-- ==== Sys2Proof/Word.lean ====
section
/-! DEFINITION. The two value widths of the block, a byte and a word (spec/00_scope.md R10), and the beat of the request port. -/

namespace Sys2Proof

/-- An unsigned 8-bit value (R10). -/
abbrev Byte := BitVec 8

/-- An unsigned 16-bit value (R10). -/
abbrev Word := BitVec 16

/-- One beat of the request port (R75): a 16-bit header, or a payload byte in bits [7:0] (DESIGN CHOICE, log 9; unsafe). -/
abbrev Beat := BitVec 16

end Sys2Proof
end

