-- ==== Sys2Proof/Config.lean ====
section
/-! DEFINITION. The implementation parameters of spec/00_scope.md R4, the wire constants of R5, and the free values. -/

namespace Sys2Proof

/-- The physical-layer parameter TRANSPORT_PHY, one component for each thing R4 and decision D21 name. The spec leaves all of it OPEN
and gives no component a value space: the shape here (which values a component can take, its unit, one constant value for the life of
the block) is the model's own (DESIGN CHOICE, log 7; safe, since nothing reads it). -/
structure TransportPhy where
  /-- Clock rate, in whole hertz. -/
  clockHz : Nat
  /-- Clock polarity. -/
  clockInverted : Bool
  /-- The level of the idle clock. -/
  clockIdlesHigh : Bool
  /-- Chip-select behaviour, as a number that the implementer gives it: the spec lists no behaviours to choose from. -/
  chipSelect : Nat
  /-- Gap between the bytes of an exchange, in whole nanoseconds. -/
  interByteGapNs : Nat
  /-- Gap between two exchanges, in whole nanoseconds (D21). -/
  interExchangeGapNs : Nat
  deriving DecidableEq, Repr

/-- The implementation parameters, one field for each row of R4 (two for the scratch buffers), with the value R4 gives it as its
default. They are fixed when the block is built, and no step writes them. Only CAPACITY and TRANSPORT_PHY can differ between blocks
(R2); `Config.AsGiven` says so of the other rows. State carries the record, so that every capacity and every physical layer is covered
(DESIGN CHOICE, log 6; safe). -/
structure Config where
  /-- CAPACITY in bytes, an integer at least 1. -/
  capacity : Nat := 64
  /-- Bits of a byte: the width of `Byte`. -/
  byteWidth : Nat := 8
  /-- Bits of a word: the width of `Word`. -/
  wordWidth : Nat := 16
  /-- The lengths an exchange can have, in bytes. -/
  exchangeLengths : List Nat := [1, 2]
  /-- Bytes of the transmit scratch buffer. -/
  scratchTx : Nat := 2
  /-- Bytes of the receive scratch buffer. -/
  scratchRx : Nat := 2
  /-- The modulus of the checksum (R170). -/
  checksumModulus : Nat := 65536
  /-- The most objects a POLL delivers: none is set (decision D18). -/
  objectLimit : Option Nat := none
  /-- The most rounds of a seek or decode loop: none is set (decision D19). -/
  loopBound : Option Nat := none
  /-- The longest request payload, in bytes (R75). -/
  maxPayload : Nat := 255
  /-- TRANSPORT_PHY: OPEN, so not fixed where it is `none`, and no rule reads it (log 7). -/
  transportPhy : Option TransportPhy := none
  deriving DecidableEq, Repr

/-- The parameters of this hardware (R4). -/
def Config.standard : Config := {}

/-- Every row of R4 but CAPACITY and TRANSPORT_PHY has the value R4 gives it (R2). -/
abbrev Config.AsGiven (c : Config) : Prop :=
  c = { Config.standard with capacity := c.capacity, transportPhy := c.transportPhy }

/-- Length in bytes of an exchange that carries a word, one of the two lengths of R4. -/
def Config.wordExchange : Nat := 2

/-- Length in bytes of a resync exchange, the other of the two lengths of R4. -/
def Config.resyncExchange : Nat := 1

/-- "sent when no outbound byte queued" (R5). -/
def Config.idleSyncByte : Byte := 0x5A#8

/-- "sent when one outbound byte follows" (R5). -/
def Config.dataSyncByte : Byte := 0x5B#8

/-- "generic frame/object start marker" (R5). -/
def Config.startWord : Word := 0xAA55#16

/-- "start marker, color-code block" (R5). -/
def Config.startWordCc : Word := 0xAA56#16

/-- "signals 1-byte misalignment" (R5). -/
def Config.outOfSyncWord : Word := 0x55AA#16

/-- Servo command opcode (R5). -/
def Config.servoSync : Byte := 0xFF#8

/-- Exposure command opcode (R5). -/
def Config.exposureSync : Byte := 0xFE#8

/-- LED command opcode (R5). -/
def Config.ledSync : Byte := 0xFD#8

/-- The previous word a seek starts from, meaning "none" (spec/42_synchronizer.md R154). -/
def Config.noPreviousWord : Word := 0xFFFF#16

/-- FREE VALUE (spec/20_memory.md R64): the byte the environment answers at the n-th free draw. Nothing constrains it (log 1). -/
opaque Config.rxByte : Nat → Byte

end Sys2Proof
end

