-- ==== Sys2Proof/Syntax.lean ====
section
/-! DEFINITION. The instructions: one constructor per row of spec/opcode_table.json. -/

namespace Sys2Proof

/-- One row of the opcode table each. Requests and reserved operation codes are issued at the request port (spec/30_encoding.md
R76, R81); the host pseudo-operations by the host (spec/45_host_commands.md); a transmitted frame or a received word stands for
the controller step in which that frame goes out or that word arrives (R71, R73; log 14). -/
inductive Instr where
  -- requests (R76)
  | enq (b : Byte)
  | deq
  | enqcmd (payload : List Byte)
  | cap
  | size
  | empty
  | transact
  | resync
  | send (payload : List Byte)
  | seek
  | poll
  -- reserved operation codes with the other twelve header bits (R81)
  | reserved0 (rest : BitVec 12)
  | reservedC (rest : BitVec 12)
  | reservedD (rest : BitVec 12)
  | reservedE (rest : BitVec 12)
  | reservedF (rest : BitVec 12)
  -- host pseudo-operations, on integers of the host's choosing (R201)
  | servo (s1 s2 : Int)
  | exposure (v : Int)
  | led (r g b : Int)
  -- transmitted frames (R71)
  | txData (d : Byte)
  | txIdle
  | txResync
  -- received word classes (R73)
  | rxStart
  | rxStartCc
  | rxOos
  | rxZero
  | rxData (w : Word)
  deriving DecidableEq, Repr

end Sys2Proof
end

