-- ==== Sys2Proof/Machine/Operands.lean ====
section
/-! DEFINITION. Operand forms: the header's fields, word assembly, the class of a received word, the transmitted frames, and the
bytes of the host commands. -/

namespace Sys2Proof.Machine

/-- `op = header[15:12]` (spec/30_encoding.md R75). -/
def opField (h : Beat) : BitVec 4 := h.extractLsb' 12 4

/-- `rsv = header[11:8]` (R75). -/
def rsvField (h : Beat) : BitVec 4 := h.extractLsb' 8 4

/-- `imm8 = header[7:0]` (R75, R77). -/
def immField (h : Beat) : Byte := h.extractLsb' 0 8

/-- The twelve bits below a reserved operation code (R81). -/
def restField (h : Beat) : BitVec 12 := h.extractLsb' 0 12

/-- The header of a legal request: `op ++ 0000 ++ imm8` (R75). -/
def headerOf (op : BitVec 4) (imm : Byte) : Beat := op ++ 0#4 ++ imm

/-- The header of a reserved operation code (R81). -/
def reservedHeader (op : BitVec 4) (rest : BitVec 12) : Beat := op ++ rest

/-- Payload length `L` as the header's low byte (R77). -/
def lengthByte (payload : List Byte) : Byte := BitVec.ofNat 8 payload.length

/-- The byte a payload beat carries, bits [7:0] (R75; log 9). -/
def payloadByte (b : Beat) : Byte := b.extractLsb' 0 8

/-- A payload byte as a beat of the port. -/
def payloadBeat (b : Byte) : Beat := 0#8 ++ b

/-- Length of a request in beats, from its header alone (R78): `1 + L` for ENQCMD and SEND with `rsv = 0`, else 1. -/
def requestLength (h : Beat) : Nat :=
  if rsvField h = 0#4 ∧ (opField h = 0x3#4 ∨ opField h = 0x9#4) then 1 + (immField h).toNat else 1

/-- The headers R81 calls illegal: a reserved op, a non-zero `rsv`, or a non-zero `imm8` outside ENQ, ENQCMD and SEND. -/
def illegalHeader (h : Beat) : Bool :=
  (opField h ∈ [0x0#4, 0xC#4, 0xD#4, 0xE#4, 0xF#4]) || rsvField h != 0#4 ||
    (!(opField h ∈ [0x1#4, 0x3#4, 0x9#4]) && immField h != 0#8)

/-- `hi(w) = w[15:8]` (spec/00_scope.md R11). -/
def hiByte (w : Word) : Byte := w.extractLsb' 8 8

/-- `lo(w) = w[7:0]` (R11). -/
def loByte (w : Word) : Byte := w.extractLsb' 0 8

/-- The received word, big-endian (spec/20_memory.md R54, spec/30_encoding.md R72): the first byte received is the high byte. -/
def wordOfBytes (b0 b1 : Byte) : Word := b0 ++ b1

/-- The classes of received words (R73). -/
inductive WordClass where
  | zero
  | start
  | startCc
  | oos
  | data
  deriving DecidableEq, Repr

/-- The one class a received word is in (R73). -/
def classify (w : Word) : WordClass :=
  if w = 0#16 then .zero
  else if w = Config.startWord then .start
  else if w = Config.startWordCc then .startCc
  else if w = Config.outOfSyncWord then .oos
  else .data

/-- The three frames the block sends (R71). -/
inductive TxFrame where
  | data (d : Byte)
  | idle
  | resync
  deriving DecidableEq, Repr

/-- The bytes of a frame in the order sent (R71, spec/20_memory.md R55). -/
def TxFrame.bytes : TxFrame → List Byte
  | .data d => [Config.dataSyncByte, d]
  | .idle => [Config.idleSyncByte, 0#8]
  | .resync => [Config.idleSyncByte]

/-- Inclusive range of a host argument (spec/45_host_commands.md R201). -/
def inRange (lo hi v : Int) : Bool := decide (lo ≤ v) && decide (v ≤ hi)

/-- `lo8(v) = v mod 256` (R203), for a value already found in range. -/
def lo8 (v : Int) : Byte := BitVec.ofNat 8 (v.toNat % 256)

/-- `hi8(v) = v div 256` (R203), for a value already found in range. -/
def hi8 (v : Int) : Byte := BitVec.ofNat 8 (v.toNat / 256)

/-- The servo range check of R202. -/
def servoInRange (s1 s2 : Int) : Bool := inRange 0 1000 s1 && inRange 0 1000 s2

/-- The six bytes of the servo command, each value low byte first (R202, spec/20_memory.md R58). -/
def servoBytes (s1 s2 : Int) : List Byte := [0x00#8, Config.servoSync, lo8 s1, hi8 s1, lo8 s2, hi8 s2]

/-- The exposure range check of R204. -/
def exposureInRange (v : Int) : Bool := inRange 0 255 v

/-- The three bytes of the exposure command (R204). -/
def exposureBytes (v : Int) : List Byte := [0x00#8, Config.exposureSync, lo8 v]

/-- The range check of the LED channels (R206). -/
def ledInRange (r g b : Int) : Bool := inRange 0 255 r && inRange 0 255 g && inRange 0 255 b

/-- The five bytes of the LED command (R206, R207). -/
def ledBytes (r g b : Int) : List Byte := [0x00#8, Config.ledSync, lo8 r, lo8 g, lo8 b]

end Sys2Proof.Machine
end

