-- ==== Sys2Proof/WellFormed.lean ====
section
/-! DEFINITION. Which instruction terms an encoding exists for. -/

namespace Sys2Proof

/-- A payload has at most 255 bytes (spec/30_encoding.md R75, R77); a DATA word is none of the four marked values (R73). Every
other operand is as wide as its field, and a host argument is any integer (spec/45_host_commands.md R201). -/
def Instr.wellFormed : Instr → Bool
  | .enqcmd p => decide (p.length ≤ Config.standard.maxPayload)
  | .send p => decide (p.length ≤ Config.standard.maxPayload)
  | .rxData w => decide (Machine.classify w = .data)
  | .enq _ | .deq | .cap | .size | .empty | .transact | .resync | .seek | .poll => true
  | .reserved0 _ | .reservedC _ | .reservedD _ | .reservedE _ | .reservedF _ => true
  | .servo _ _ | .exposure _ | .led _ _ _ => true
  | .txData _ | .txIdle | .txResync => true
  | .rxStart | .rxStartCc | .rxOos | .rxZero => true

/-- The host pseudo-operations: other names of a SEND (spec/45_host_commands.md R200). -/
def Instr.isPseudo : Instr → Bool
  | .servo _ _ | .exposure _ | .led _ _ _ => true
  | _ => false

end Sys2Proof
end

