-- ==== Sys2Proof/Decode.lean ====
section
/-! DEFINITION. Decoding of requests, transmitted frames and received words, and the encoder (spec/30_encoding.md). -/

namespace Sys2Proof

open Sys2Proof.Machine

/-- Why beats or bytes are rejected, by name. -/
inductive DecodeError where
  /-- No beat is there. -/
  | noHeader
  /-- `rsv ≠ 0` in the header of a defined operation: an illegal request (R81). -/
  | reservedField (h : Beat)
  /-- `imm8 ≠ 0` where the operation has no use for it: an illegal request (R81). -/
  | unusedImm (h : Beat)
  /-- Fewer payload beats than the header's length asks for (R75). -/
  | incomplete (h : Beat)
  /-- Beats are left over after the one instruction asked for. -/
  | trailing
  /-- Not one of the three frames the block sends (R71). -/
  | notAFrame
  /-- A host pseudo-operation with an argument out of range issues no request (spec/45_host_commands.md R200). -/
  | notIssued
  deriving DecidableEq, Repr

/-- A header whose `imm8` is an operand: legal when `rsv = 0` (R81). -/
def decodeImm (h : Beat) (mk : Byte → Instr) (rest : List Beat) : Except DecodeError (Instr × List Beat) :=
  if rsvField h = 0#4 then .ok (mk (immField h), rest) else .error (.reservedField h)

/-- A header with no operand: legal when `rsv = 0` and `imm8 = 0` (R81). -/
def decodeBare (h : Beat) (i : Instr) (rest : List Beat) : Except DecodeError (Instr × List Beat) :=
  if rsvField h = 0#4 then
    if immField h = 0#8 then .ok (i, rest) else .error (.unusedImm h)
  else .error (.reservedField h)

/-- A header followed by `L = imm8` payload beats, payload[0] first (R75, R77). -/
def decodePayload (h : Beat) (mk : List Byte → Instr) (rest : List Beat) : Except DecodeError (Instr × List Beat) :=
  if rsvField h = 0#4 then
    if (immField h).toNat ≤ rest.length then
      .ok (mk ((rest.take (immField h).toNat).map payloadByte), rest.drop (immField h).toNat)
    else .error (.incomplete h)
  else .error (.reservedField h)

/-- The operation a header selects (R76, R81). The four-bit field has no sixteenth value left for the last arm but 0xF. -/
def decodeHeader (h : Beat) (rest : List Beat) : Except DecodeError (Instr × List Beat) :=
  match (opField h).toNat with
  | 0 => .ok (.reserved0 (restField h), rest)
  | 1 => decodeImm h .enq rest
  | 2 => decodeBare h .deq rest
  | 3 => decodePayload h .enqcmd rest
  | 4 => decodeBare h .cap rest
  | 5 => decodeBare h .size rest
  | 6 => decodeBare h .empty rest
  | 7 => decodeBare h .transact rest
  | 8 => decodeBare h .resync rest
  | 9 => decodePayload h .send rest
  | 10 => decodeBare h .seek rest
  | 11 => decodeBare h .poll rest
  | 12 => .ok (.reservedC (restField h), rest)
  | 13 => .ok (.reservedD (restField h), rest)
  | 14 => .ok (.reservedE (restField h), rest)
  | _ => .ok (.reservedF (restField h), rest)

/-- Decode the request at the front of the port's beats, with the beats after it (R75 to R78, R81). -/
def decodeRequest : List Beat → Except DecodeError (Instr × List Beat)
  | [] => .error .noHeader
  | h :: rest => decodeHeader h rest

/-- Decode the bytes of one transmitted exchange (R71). -/
def decodeTx : List Byte → Except DecodeError Instr
  | [b0] => if b0 = Config.idleSyncByte then .ok .txResync else .error .notAFrame
  | [b0, b1] =>
    if b0 = Config.dataSyncByte then .ok (.txData b1)
    else if b0 = Config.idleSyncByte ∧ b1 = 0#8 then .ok .txIdle
    else .error .notAFrame
  | _ => .error .notAFrame

/-- Decode a received word: every word is in exactly one class (R73). -/
def decodeRx (w : Word) : Instr :=
  match classify w with
  | .zero => .rxZero
  | .start => .rxStart
  | .startCc => .rxStartCc
  | .oos => .rxOos
  | .data => .rxData w

/-- The words of an instruction at the interface it belongs to. -/
inductive Words where
  | request (beats : List Beat)
  | tx (bytes : List Byte)
  | rx (word : Word)
  | unissued
  deriving DecidableEq, Repr

/-- The beats of a request with a payload (R75). -/
def payloadRequest (op : BitVec 4) (payload : List Byte) : List Beat :=
  headerOf op (lengthByte payload) :: payload.map payloadBeat

/-- The encoding of an instruction (R71, R73, R75, R76, R81; spec/45_host_commands.md R202, R204, R206). -/
def encode : Instr → Words
  | .enq b => .request [headerOf 0x1#4 b]
  | .deq => .request [headerOf 0x2#4 0#8]
  | .enqcmd p => .request (payloadRequest 0x3#4 p)
  | .cap => .request [headerOf 0x4#4 0#8]
  | .size => .request [headerOf 0x5#4 0#8]
  | .empty => .request [headerOf 0x6#4 0#8]
  | .transact => .request [headerOf 0x7#4 0#8]
  | .resync => .request [headerOf 0x8#4 0#8]
  | .send p => .request (payloadRequest 0x9#4 p)
  | .seek => .request [headerOf 0xA#4 0#8]
  | .poll => .request [headerOf 0xB#4 0#8]
  | .reserved0 r => .request [reservedHeader 0x0#4 r]
  | .reservedC r => .request [reservedHeader 0xC#4 r]
  | .reservedD r => .request [reservedHeader 0xD#4 r]
  | .reservedE r => .request [reservedHeader 0xE#4 r]
  | .reservedF r => .request [reservedHeader 0xF#4 r]
  | .servo s1 s2 => if servoInRange s1 s2 then .request (payloadRequest 0x9#4 (servoBytes s1 s2)) else .unissued
  | .exposure v => if exposureInRange v then .request (payloadRequest 0x9#4 (exposureBytes v)) else .unissued
  | .led r g b => if ledInRange r g b then .request (payloadRequest 0x9#4 (ledBytes r g b)) else .unissued
  | .txData d => .tx (TxFrame.data d).bytes
  | .txIdle => .tx TxFrame.idle.bytes
  | .txResync => .tx TxFrame.resync.bytes
  | .rxStart => .rx Config.startWord
  | .rxStartCc => .rx Config.startWordCc
  | .rxOos => .rx Config.outOfSyncWord
  | .rxZero => .rx 0#16
  | .rxData w => .rx w

/-- Decode the words of one instruction, all of them, at their interface. -/
def decodeWords : Words → Except DecodeError Instr
  | .request beats =>
    match decodeRequest beats with
    | .ok (i, []) => .ok i
    | .ok (_, _ :: _) => .error .trailing
    | .error e => .error e
  | .tx bytes => decodeTx bytes
  | .rx w => .ok (decodeRx w)
  | .unissued => .error .notIssued

/-- The beats of a request whose bits are `w`: the header in bits [15:0], and payload byte `k` in bits `[23+8k : 16+8k]`, 0 above
the table's bits. -/
def tableBeats (w : Nat) : List Beat :=
  BitVec.ofNat 16 w ::
    (List.range (requestLength (BitVec.ofNat 16 w) - 1)).map (fun k => payloadBeat (BitVec.ofNat 8 (w >>> (16 + 8 * k))))

/-- The instruction read from the bits of an opcode-table row (log 17). An 8-bit row is a one-byte frame. A wider row is tried at
the request port, then as a transmitted frame (byte 0 in bits [15:8]), then as a received word, since the three share 16 bits. -/
def decodeTableWord (nbits w : Nat) : Option Instr :=
  if nbits = 0 then none
  else if nbits ≤ 8 then (decodeTx [BitVec.ofNat 8 w]).toOption
  else
    match decodeWords (.request (tableBeats w)) with
    | .ok i => some i
    | .error _ =>
      match decodeTx [hiByte (BitVec.ofNat 16 w), loByte (BitVec.ofNat 16 w)] with
      | .ok i => some i
      | .error _ => some (decodeRx (BitVec.ofNat 16 w))

end Sys2Proof
end

