-- ==== Sys2Proof/Machine/State.lean ====
section
/-! DEFINITION. The state of the block as plain data (spec/10_state.md), its ports and its observation, and the state after reset. -/

namespace Sys2Proof.Machine

/-- The ring storage as (index, byte) pairs in canonical form: indices strictly rising, no byte equal to the 0x00 an unlisted
index reads as (spec/10_state.md R21; the reset contents are a DESIGN CHOICE, log 3; unsafe). -/
abbrev Memory := List Host.Cell

/-- The outbound command queue (R21 to R24). -/
structure Queue where
  buf : Memory
  head : Nat
  tail : Nat
  count : Nat
  deriving DecidableEq, Repr

/-- Block type (R26): NORMAL = 0, COLOR_CODE = 1. -/
inductive BlockType where
  | normal
  | colorCode
  deriving DecidableEq, Repr

/-- The Frame Context (R26, R27). -/
structure FrameCtx where
  bt : BlockType
  skip : Bool
  deriving DecidableEq, Repr

/-- The recorded fatal error (R28): NONE = 0, UNDERFLOW = 1. -/
inductive FaultCause where
  | none
  | underflow
  deriving DecidableEq, Repr

/-- The transaction channel's scratch buffers, two bytes each (R29). -/
structure Channel where
  tx0 : Byte
  tx1 : Byte
  rx0 : Byte
  rx1 : Byte
  deriving DecidableEq, Repr

/-- The operations that take more than one step (R30). -/
inductive BusyOp where
  | seek
  | poll
  deriving DecidableEq, Repr

/-- The controller phases (spec/43_decoder.md R179). -/
inductive Phase where
  | skX
  | skR
  | dChk
  | dSig
  | dX
  | dY
  | dW
  | dH
  | dAng
  | dTrail
  deriving DecidableEq, Repr

/-- The controller state (R30). -/
inductive Ctl where
  | idle
  | busy (op : BusyOp) (phase : Phase)
  | halt
  deriving DecidableEq, Repr

/-- The synchronizer's word registers (R31). -/
structure SyncRegs where
  prev : Word
  cur : Word
  deriving DecidableEq, Repr

/-- A detected object (R33). -/
structure DetectedObject where
  signature : Word
  x : Word
  y : Word
  width : Word
  height : Word
  angle : Word
  deriving DecidableEq, Repr

/-- The decoder's working registers (R32). -/
structure DecRegs where
  chk : Word
  sig : Word
  x : Word
  y : Word
  w : Word
  h : Word
  ang : Word
  trail : Word
  objs : List DetectedObject
  deriving DecidableEq, Repr

/-- One event of the exchange history: `(n, tx, rx)` (spec/20_memory.md R63). -/
structure Exchange where
  n : Nat
  tx : List Byte
  rx : List Byte
  deriving DecidableEq, Repr

/-- A request as presented: its header and its payload (spec/30_encoding.md R75). -/
structure Request where
  header : Beat
  payload : List Byte
  deriving DecidableEq, Repr

/-- The value of an OK response (R80). -/
inductive Value where
  | none
  | bit (b : Bool)
  | byte (b : Byte)
  | count (n : Nat)
  | word (w : Word)
  | objects (os : List DetectedObject)
  deriving DecidableEq, Repr

/-- A response: a status, and a value only with OK (R80). -/
inductive Response where
  | ok (v : Value)
  | illegal
  | fault
  deriving DecidableEq, Repr

/-- The host pseudo-operations (spec/45_host_commands.md R202, R204, R206). -/
inductive HostCall where
  | servo (s1 s2 : Int)
  | exposure (v : Int)
  | led (r g b : Int)
  deriving DecidableEq, Repr

/-- What the host has lined up: a beat it presents on the request port, or a pseudo-operation it runs. -/
inductive HostItem where
  | beat (b : Beat)
  | call (c : HostCall)
  deriving DecidableEq, Repr

/-- The host's own error (spec/60_exceptions.md R226). -/
inductive HostError where
  | invalidArgument
  deriving DecidableEq, Repr

/-- What can stop a step. -/
inductive Fault where
  /-- Raised by a ring-storage access at an index outside 0 to CAPACITY-1 (spec/20_memory.md R50), which the spec says no operation
  can form (R51): only states no run reaches raise it (log 15). Safe: the model stops where the spec has no behaviour. -/
  | ringAddress (i : Nat)
  deriving DecidableEq, Repr

/-- Why an instruction has no meaning. -/
inductive Refusal where
  /-- The instruction has no meaning in this model yet; raised by an arm of exec only. Safe. No arm raises it. -/
  | notModelled (mnemonic : String)
  deriving DecidableEq, Repr

/-- Everything the spec gives the machine (R34), its ports, and what is observed at them (spec/20_memory.md R63). -/
structure State where
  /-- The implementation parameters (spec/00_scope.md R4); no step writes them (log 6). -/
  cfg : Config
  /-- `q` (R21 to R24). -/
  q : Queue
  /-- `ctx` (R26, R27). -/
  ctx : FrameCtx
  /-- `fault` (R28). -/
  fault : FaultCause
  /-- `ch` (R29). -/
  ch : Channel
  /-- `ctl` (R30). -/
  ctl : Ctl
  /-- `sync` (R31). -/
  sync : SyncRegs
  /-- `dec` (R32). -/
  dec : DecRegs
  /-- The reset input (spec/70_reset_and_hazards.md R250; log 5). -/
  rst : Bool
  /-- What the host has lined up and the port has not accepted (spec/30_encoding.md R79; log 12). -/
  host : List HostItem
  /-- The bytes the environment will answer with, next byte first (spec/20_memory.md R64; the model's own field, log 1). -/
  rxIn : List Byte
  /-- How many bytes were drawn freely so far (the model's own field, log 1). -/
  drawn : Nat
  /-- The exchange history, oldest first (spec/20_memory.md R63; log 2). -/
  wire : List Exchange
  /-- The (request, response) pairs, oldest first (spec/20_memory.md R63; log 2). -/
  portLog : List (Request × Response)
  /-- The errors raised in the host, oldest first (spec/60_exceptions.md R226; log 13). -/
  hostErrors : List HostError
  deriving DecidableEq, Repr

/-- The three outcomes of a step of this machine. -/
abbrev Result := Host.Outcome State Fault Refusal

/-- Replace the queue. -/
def State.setQ (s : State) (v : Queue) : State := { s with q := v }
/-- Replace the Frame Context. -/
def State.setCtx (s : State) (v : FrameCtx) : State := { s with ctx := v }
/-- Replace the recorded fault. -/
def State.setFault (s : State) (v : FaultCause) : State := { s with fault := v }
/-- Replace the scratch buffers. -/
def State.setCh (s : State) (v : Channel) : State := { s with ch := v }
/-- Replace the controller state. -/
def State.setCtl (s : State) (v : Ctl) : State := { s with ctl := v }
/-- Replace the synchronizer's registers. -/
def State.setSync (s : State) (v : SyncRegs) : State := { s with sync := v }
/-- Replace the decoder's registers. -/
def State.setDec (s : State) (v : DecRegs) : State := { s with dec := v }
/-- Replace the reset input. -/
def State.setRst (s : State) (v : Bool) : State := { s with rst := v }
/-- Replace what the host has lined up. -/
def State.setHost (s : State) (v : List HostItem) : State := { s with host := v }
/-- Replace the environment's coming answers. -/
def State.setRxIn (s : State) (v : List Byte) : State := { s with rxIn := v }
/-- Replace the count of free draws. -/
def State.setDrawn (s : State) (v : Nat) : State := { s with drawn := v }
/-- Replace the exchange history. -/
def State.setWire (s : State) (v : List Exchange) : State := { s with wire := v }
/-- Replace the log of the request port. -/
def State.setPortLog (s : State) (v : List (Request × Response)) : State := { s with portLog := v }
/-- Replace the host's errors. -/
def State.setHostErrors (s : State) (v : List HostError) : State := { s with hostErrors := v }

/-- The queue after reset: empty, head and tail at 0 (R22 to R24); its storage reads as zeros (DESIGN CHOICE, log 3; unsafe). -/
def Queue.reset : Queue := { buf := [], head := 0, tail := 0, count := 0 }

/-- The Frame Context after reset (R26, R27). -/
def FrameCtx.reset : FrameCtx := { bt := .normal, skip := false }

/-- The scratch buffers after reset (R29 gives no value: DESIGN CHOICE, log 4; unsafe). -/
def Channel.reset : Channel := { tx0 := 0#8, tx1 := 0#8, rx0 := 0#8, rx1 := 0#8 }

/-- The synchronizer's registers after reset (R31 gives no value: DESIGN CHOICE, log 4; unsafe). -/
def SyncRegs.reset : SyncRegs := { prev := 0#16, cur := 0#16 }

/-- The decoder's registers after reset (R32 gives no value: DESIGN CHOICE, log 4; unsafe). -/
def DecRegs.reset : DecRegs :=
  { chk := 0#16, sig := 0#16, x := 0#16, y := 0#16, w := 0#16, h := 0#16, ang := 0#16, trail := 0#16, objs := [] }

/-- The machine right after reset (spec/70_reset_and_hazards.md R250, R253), at the CAPACITY of this hardware, with nothing
presented at its ports and nothing observed yet. -/
def State.reset : State :=
  { cfg := Config.standard
    q := Queue.reset
    ctx := FrameCtx.reset
    fault := .none
    ch := Channel.reset
    ctl := .idle
    sync := SyncRegs.reset
    dec := DecRegs.reset
    rst := false
    host := []
    rxIn := []
    drawn := 0
    wire := []
    portLog := []
    hostErrors := [] }

end Sys2Proof.Machine
end

