-- ==== Sys2Proof/Machine/Ops.lean ====
section
/-! DEFINITION. The named operations over the ring storage, the queue, the transport port, the request port, faults and reset. -/

namespace Sys2Proof.Machine

/-! ### Outcomes -/

/-- Go on with `k` from a next state; a fault or a refusal stays. -/
def andThen (o : Result) (k : State → Result) : Result :=
  match o with
  | .next s => k s
  | .fault e => .fault e
  | .refused r => .refused r

/-- Apply `f` to a next state; a fault or a refusal stays. -/
def mapNext (o : Result) (f : State → State) : Result := andThen o (fun s => .next (f s))

/-- The next state of an outcome, if it is one. -/
def nextState (o : Result) : Option State :=
  match o with
  | .next s => some s
  | .fault _ => none
  | .refused _ => none

/-! ### Ring storage (spec/20_memory.md R50 to R52) -/

/-- Byte `i` of a memory; an unlisted index reads as 0x00 (DESIGN CHOICE, log 3; unsafe). -/
def Memory.read : Memory → Nat → Byte
  | [], _ => 0#8
  | (a, b) :: m, i => if a = i then b else Memory.read m i

/-- Write byte `i`, keeping the canonical form: writing the value an unlisted index reads as removes the entry. -/
def Memory.write : Memory → Nat → Byte → Memory
  | [], i, v => if v = 0#8 then [] else [(i, v)]
  | (a, b) :: m, i, v =>
    if i < a then (if v = 0#8 then (a, b) :: m else (i, v) :: (a, b) :: m)
    else if i = a then (if v = 0#8 then m else (i, v) :: m)
    else (a, b) :: Memory.write m i v

/-- Every listed index is above `lo`-or-equal, the indices rise strictly, and no listed byte is 0x00. -/
def Memory.wfFrom : Nat → Memory → Bool
  | _, [] => true
  | lo, (a, b) :: m => decide (lo ≤ a) && b != 0#8 && Memory.wfFrom (a + 1) m

/-- The canonical form of a memory. -/
def Memory.wf (m : Memory) : Bool := Memory.wfFrom 0 m

/-- `(i + 1) mod CAPACITY` (R52). -/
def ringNext (capacity i : Nat) : Nat := (i + 1) % capacity

/-- `MemRead(i, 1)` (spec/00_scope.md R12), for 0 ≤ i < CAPACITY. -/
def ringRead (capacity : Nat) (m : Memory) (i : Nat) : Except Fault Byte :=
  if i < capacity then .ok (Memory.read m i) else .error (.ringAddress i)

/-- `MemWrite(i, 1, v)` (R12), for 0 ≤ i < CAPACITY. -/
def ringWrite (capacity : Nat) (m : Memory) (i : Nat) (v : Byte) : Except Fault Memory :=
  if i < capacity then .ok (Memory.write m i v) else .error (.ringAddress i)

/-! ### The queue's procedures (spec/40_fifo.md R101) -/

/-- `Free()`: the remaining capacity (R101). -/
def freeBytes (capacity : Nat) (q : Queue) : Nat := capacity - q.count

/-- `Push(b)` (R101); the caller has checked `q.count < CAPACITY`. -/
def pushByte (capacity : Nat) (b : Byte) (q : Queue) : Except Fault Queue :=
  match ringWrite capacity q.buf q.tail b with
  | .ok m => .ok { q with buf := m, tail := ringNext capacity q.tail, count := q.count + 1 }
  | .error e => .error e

/-- The loop of R106: push the payload in order. -/
def pushBytes (capacity : Nat) : List Byte → Queue → Except Fault Queue
  | [], q => .ok q
  | b :: bs, q =>
    match pushByte capacity b q with
    | .ok q' => pushBytes capacity bs q'
    | .error e => .error e

/-- `Pop()` (R101); the caller has checked `q.count > 0`. -/
def popByte (capacity : Nat) (q : Queue) : Except Fault (Byte × Queue) :=
  match ringRead capacity q.buf q.head with
  | .ok b => .ok (b, { q with head := ringNext capacity q.head, count := q.count - 1 })
  | .error e => .error e

/-- The fit test and the loop of a whole-command enqueue, all or nothing (R106, spec/41_channel.md R135): the queue after, and
whether the command was taken. -/
def enqueueAll (capacity : Nat) (payload : List Byte) (q : Queue) : Except Fault (Queue × Bool) :=
  if payload.length ≤ freeBytes capacity q then
    match pushBytes capacity payload q with
    | .ok q' => .ok (q', true)
    | .error e => .error e
  else .ok (q, false)

/-! ### The transport port (spec/30_encoding.md R70, spec/20_memory.md R63, R64) -/

/-- The next byte the environment answers with: the next one lined up, else a free draw (R64; log 1). -/
def drawByte (s : State) : Byte × State :=
  match s.rxIn with
  | b :: bs => (b, s.setRxIn bs)
  | [] => (Config.rxByte s.drawn, s.setDrawn (s.drawn + 1))

/-- The two bytes of a 2-byte exchange's answer, as the received word (R72). -/
def drawWord (s : State) : Word × State :=
  (wordOfBytes (drawByte s).1 (drawByte (drawByte s).2).1, (drawByte (drawByte s).2).2)

/-- `Exchange(2, [t0, t1])` answered with the word `w`: the scratch buffers and one event of the history (R12, R63,
spec/10_state.md R29). -/
def exchangeTwo (t0 t1 : Byte) (w : Word) (s : State) : State :=
  (s.setCh { tx0 := t0, tx1 := t1, rx0 := hiByte w, rx1 := loByte w }).setWire
    (s.wire ++ [{ n := Config.wordExchange, tx := [t0, t1], rx := [hiByte w, loByte w] }])

/-- `Resync()` answered with the byte `b`, which nothing reads (spec/41_channel.md R132). -/
def exchangeOne (b : Byte) (s : State) : State :=
  (s.setCh { s.ch with tx0 := Config.idleSyncByte, rx0 := b }).setWire
    (s.wire ++ [{ n := Config.resyncExchange, tx := [Config.idleSyncByte], rx := [b] }])

/-- `Transact()` answered with the word `w` (spec/41_channel.md R130): the dequeue, if there is a byte, and the exchange, in one
step. -/
def transactWord (w : Word) (s : State) : Result :=
  if 0 < s.q.count then
    match popByte s.cfg.capacity s.q with
    | .ok (d, q') => .next (exchangeTwo Config.dataSyncByte d w (s.setQ q'))
    | .error e => .fault e
  else .next (exchangeTwo Config.idleSyncByte 0#8 w s)

/-! ### The request port (spec/30_encoding.md R79, R80; spec/60_exceptions.md R222 to R225) -/

/-- `respond`: log the answer to a request (R80). -/
def respond (r : Request) (a : Response) (s : State) : State := s.setPortLog (s.portLog ++ [(r, a)])

/-- The port accepts a request only in IDLE or HALT (R79). -/
def portReady (s : State) : Bool :=
  match s.ctl with
  | .idle => true
  | .halt => true
  | .busy _ _ => false

/-- The request checks in their order: held while BUSY (R79), FAULT while a fault is recorded (R223, R225), else `run`. -/
def acceptRequest (r : Request) (run : State → Result) (s : State) : Result :=
  if portReady s then
    if s.fault = .none then run s else .next (respond r .fault s)
  else .next s

/-- `raise Fault(UNDERFLOW)` (R222): the one fault entry of the block. -/
def raiseUnderflow (r : Request) (s : State) : State := respond r .fault ((s.setFault .underflow).setCtl .halt)

/-- The answer to an illegal request (R224), after the fault check (R225). -/
def answerIllegal (r : Request) (s : State) : Result := acceptRequest r (fun t => .next (respond r .illegal t)) s

/-- The host raises InvalidArgument and issues no request (R226; log 13). -/
def raiseInvalidArgument (s : State) : State := s.setHostErrors (s.hostErrors ++ [.invalidArgument])

/-- The request of an operation without payload. -/
def bareRequest (op : BitVec 4) : Request := { header := headerOf op 0#8, payload := [] }

/-- The request of ENQCMD or SEND (R75). -/
def payloadRequestOf (op : BitVec 4) (payload : List Byte) : Request :=
  { header := headerOf op (lengthByte payload), payload := payload }

/-- SEND (spec/41_channel.md R135): the whole command or nothing, and no value either way. -/
def sendCommand (payload : List Byte) (s : State) : Result :=
  acceptRequest (payloadRequestOf 0x9#4 payload)
    (fun t =>
      match enqueueAll t.cfg.capacity payload t.q with
      | .ok (q', _) => .next (respond (payloadRequestOf 0x9#4 payload) (.ok .none) (t.setQ q'))
      | .error e => .fault e) s

/-! ### Reset and the other inputs (spec/70_reset_and_hazards.md R250, R251; spec/00_scope.md R9) -/

/-- The effect of the reset input (R250): every element of the block at its reset value, no exchange, no response, and the request
in progress abandoned (R251). What is lined up at the ports and what was observed stay (log 5). -/
def resetBlock (s : State) : State :=
  { State.reset with
    cfg := s.cfg, host := s.host, rxIn := s.rxIn, drawn := s.drawn, wire := s.wire, portLog := s.portLog,
    hostErrors := s.hostErrors }

/-- The reset input is asserted, between two steps (R251). -/
def assertReset (s : State) : State := s.setRst true

/-- The host lines up more beats or pseudo-operations, between two steps (R79). -/
def presentItems (items : List HostItem) (s : State) : State := s.setHost (s.host ++ items)

/-- The environment's coming answers are lined up, between two steps (R64). -/
def supplyBytes (bytes : List Byte) (s : State) : State := s.setRxIn (s.rxIn ++ bytes)

end Sys2Proof.Machine
end

