-- ==== Sys2Proof/Machine/Flags.lean ====
section
/-! DEFINITION. What acts as a flag (spec/10_state.md R35), the checksum validator, and the bit encodings of flags and responses. -/

namespace Sys2Proof.Machine

/-- `ctx.bt <- bt`. -/
def setBlockType (bt : BlockType) (s : State) : State := s.setCtx { s.ctx with bt := bt }

/-- `ctx.skip <- v`. -/
def setSkip (v : Bool) (s : State) : State := s.setCtx { s.ctx with skip := v }

/-- The fields of a record as a sum formed without overflow (spec/43_decoder.md R170). -/
def fieldSum (o : DetectedObject) : Nat :=
  o.signature.toNat + o.x.toNat + o.y.toNat + o.width.toNat + o.height.toNat + o.angle.toNat

/-- `Valid` (R170): the sum modulo the checksum modulus, 65536 (spec/00_scope.md R4), equals the checksum. -/
def checksumValid (modulus : Nat) (chk : Word) (o : DetectedObject) : Bool := fieldSum o % modulus == chk.toNat

/-- The record held in the decoder's registers (R181). -/
def DecRegs.object (d : DecRegs) : DetectedObject :=
  { signature := d.sig, x := d.x, y := d.y, width := d.w, height := d.h, angle := d.ang }

/-- Keep the record if its checksum is valid, else drop it silently (R176). -/
def judgeRecord (modulus : Nat) (d : DecRegs) : DecRegs :=
  if checksumValid modulus d.chk d.object then { d with objs := d.objs ++ [d.object] } else d

/-- Block type as a bit (spec/10_state.md R26). -/
def BlockType.bit : BlockType → BitVec 1
  | .normal => 0
  | .colorCode => 1

/-- `fault` as a bit (R28). -/
def FaultCause.bit : FaultCause → BitVec 1
  | .none => 0
  | .underflow => 1

/-- A detected object as 96 bits, signature in the high word (R33). -/
def DetectedObject.pack (o : DetectedObject) : BitVec 96 :=
  o.signature ++ o.x ++ o.y ++ o.width ++ o.height ++ o.angle

/-- The status field of a response (spec/30_encoding.md R80): OK 0, ILLEGAL 1, FAULT 2. -/
def Response.status : Response → BitVec 2
  | .ok _ => 0
  | .illegal => 1
  | .fault => 2

/-- The number of bits that hold the integers 0 to n-1: the least k with n ≤ 2^k (spec/10_state.md R22, R24). -/
def bitsFor (n : Nat) : Nat := if n ≤ 1 then 0 else Nat.log2 (n - 1) + 1

/-- Width in bits of an OK response's value (R80); a POLL's list has no fixed width. -/
def Value.width (c : Config) : Value → Option Nat
  | .none => some 0
  | .bit _ => some 1
  | .byte _ => some c.byteWidth
  | .count _ => some (bitsFor (c.capacity + 1))
  | .word _ => some c.wordWidth
  | .objects _ => Option.none

/-- A POLL's list as it is framed (R80): a count `k`, then `k` records of 96 bits in the order they were accepted. -/
def pollFrame (os : List DetectedObject) : Nat × List (BitVec 96) := (os.length, os.map DetectedObject.pack)

end Sys2Proof.Machine
end

