-- ==== Sys2Proof/Machine/Channel.lean ====
section
/-! DEFINITION. The transaction channel's operations (spec/41_channel.md). -/

namespace Sys2Proof.Machine

/-- TRANSACT (R131): one 2-byte exchange; the received word is the response, and `ctx` is not touched. -/
def execTransact (s : State) : Result :=
  acceptRequest (bareRequest 0x7#4)
    (fun t =>
      mapNext (transactWord (drawWord t).1 (drawWord t).2)
        (respond (bareRequest 0x7#4) (.ok (.word (drawWord t).1)))) s

/-- RESYNC (R133): one 1-byte exchange; the received byte is discarded and the queue is not drained. -/
def execResync (s : State) : Result :=
  acceptRequest (bareRequest 0x8#4)
    (fun t => .next (respond (bareRequest 0x8#4) (.ok .none) (exchangeOne (drawByte t).1 (drawByte t).2))) s

/-- SEND (R135): queue the whole command or drop it silently. -/
def execSend (payload : List Byte) (s : State) : Result := sendCommand payload s

end Sys2Proof.Machine
end

