-- ==== Sys2Proof/Machine/Fifo.lean ====
section
/-! DEFINITION. The outbound command queue's operations (spec/40_fifo.md). -/

namespace Sys2Proof.Machine

/-- ENQ (R102): append one byte, or answer 0 and change nothing when full (R103). -/
def execEnq (b : Byte) (s : State) : Result :=
  acceptRequest { header := headerOf 0x1#4 b, payload := [] }
    (fun t =>
      if t.q.count < t.cfg.capacity then
        match pushByte t.cfg.capacity b t.q with
        | .ok q' => .next (respond { header := headerOf 0x1#4 b, payload := [] } (.ok (.bit true)) (t.setQ q'))
        | .error e => .fault e
      else .next (respond { header := headerOf 0x1#4 b, payload := [] } (.ok (.bit false)) t)) s

/-- DEQ (R104): remove the oldest byte, or raise UNDERFLOW (spec/60_exceptions.md R222) when empty. -/
def execDeq (s : State) : Result :=
  acceptRequest (bareRequest 0x2#4)
    (fun t =>
      if t.q.count = 0 then .next (raiseUnderflow (bareRequest 0x2#4) t)
      else
        match popByte t.cfg.capacity t.q with
        | .ok (b, q') => .next (respond (bareRequest 0x2#4) (.ok (.byte b)) (t.setQ q'))
        | .error e => .fault e) s

/-- ENQCMD (R106): the whole command or nothing, and whether it was taken. -/
def execEnqcmd (payload : List Byte) (s : State) : Result :=
  acceptRequest (payloadRequestOf 0x3#4 payload)
    (fun t =>
      match enqueueAll t.cfg.capacity payload t.q with
      | .ok (q', taken) => .next (respond (payloadRequestOf 0x3#4 payload) (.ok (.bit taken)) (t.setQ q'))
      | .error e => .fault e) s

/-- CAP (R108). -/
def execCap (s : State) : Result :=
  acceptRequest (bareRequest 0x4#4) (fun t => .next (respond (bareRequest 0x4#4) (.ok (.count t.cfg.capacity)) t)) s

/-- SIZE (R109). -/
def execSize (s : State) : Result :=
  acceptRequest (bareRequest 0x5#4) (fun t => .next (respond (bareRequest 0x5#4) (.ok (.count t.q.count)) t)) s

/-- EMPTY (R110). -/
def execEmpty (s : State) : Result :=
  acceptRequest (bareRequest 0x6#4) (fun t => .next (respond (bareRequest 0x6#4) (.ok (.bit (t.q.count == 0))) t)) s

end Sys2Proof.Machine
end

