-- ==== Sys2Proof/Machine/HostCommands.lean ====
section
/-! DEFINITION. The host pseudo-operations (spec/45_host_commands.md): every argument is checked in the host; if one is out of range
the host raises InvalidArgument and issues no request, else it issues one SEND (R200). -/

namespace Sys2Proof.Machine

/-- SERVO s1, s2 (R202). -/
def execServo (s1 s2 : Int) (s : State) : Result :=
  if servoInRange s1 s2 then sendCommand (servoBytes s1 s2) s else .next (raiseInvalidArgument s)

/-- EXPOSURE v (R204). -/
def execExposure (v : Int) (s : State) : Result :=
  if exposureInRange v then sendCommand (exposureBytes v) s else .next (raiseInvalidArgument s)

/-- LED r, g, b (R206, R207). -/
def execLed (r g b : Int) (s : State) : Result :=
  if ledInRange r g b then sendCommand (ledBytes r g b) s else .next (raiseInvalidArgument s)

end Sys2Proof.Machine
end

