-- ==== Sys2Proof/Machine/Reserved.lean ====
section
/-! DEFINITION. The reserved operation codes (spec/30_encoding.md R81): answered ILLEGAL (spec/60_exceptions.md R224), or FAULT while a
fault is recorded (R225). -/

namespace Sys2Proof.Machine

/-- The request of a reserved operation code: one beat (R78). -/
def reservedRequest (op : BitVec 4) (rest : BitVec 12) : Request := { header := reservedHeader op rest, payload := [] }

/-- Operation code 0x0. -/
def execReserved0 (rest : BitVec 12) (s : State) : Result := answerIllegal (reservedRequest 0x0#4 rest) s

/-- Operation code 0xC. -/
def execReservedC (rest : BitVec 12) (s : State) : Result := answerIllegal (reservedRequest 0xC#4 rest) s

/-- Operation code 0xD. -/
def execReservedD (rest : BitVec 12) (s : State) : Result := answerIllegal (reservedRequest 0xD#4 rest) s

/-- Operation code 0xE. -/
def execReservedE (rest : BitVec 12) (s : State) : Result := answerIllegal (reservedRequest 0xE#4 rest) s

/-- Operation code 0xF. -/
def execReservedF (rest : BitVec 12) (s : State) : Result := answerIllegal (reservedRequest 0xF#4 rest) s

end Sys2Proof.Machine
end

