-- ==== Sys2Proof/Machine/Synchronizer.lean ====
section
/-! DEFINITION. The frame synchronizer (spec/42_synchronizer.md) and its phases (spec/43_decoder.md R179). -/

namespace Sys2Proof.Machine

/-- The request a BUSY controller is answering (R30). -/
def BusyOp.request : BusyOp → Request
  | .seek => bareRequest 0xA#4
  | .poll => bareRequest 0xB#4

/-- Respond OK with a value and return to IDLE (R179). -/
def finishOp (op : BusyOp) (v : Value) (s : State) : State := (respond op.request (.ok v) s).setCtl .idle

/-- The rows of the transition table R153. -/
inductive SeekRow where
  | noData
  | found (bt : BlockType)
  | resync
  | roll
  deriving DecidableEq, Repr

/-- One iteration of SEEKING as a function of the previous and the current word; the rows are tried top to bottom (R153). -/
def seekRow (prev cur : Word) : SeekRow :=
  if prev = 0#16 ∧ cur = 0#16 then .noData
  else if prev = Config.startWord ∧ cur = Config.startWord then .found .normal
  else if prev = Config.startWord ∧ cur = Config.startWordCc then .found .colorCode
  else if cur = Config.outOfSyncWord then .resync
  else .roll

/-- A seek begins: `sync.prev` is "none" and the controller is SEEKING (R154, R179). -/
def startSeek (op : BusyOp) (s : State) : State :=
  (s.setSync { s.sync with prev := Config.noPreviousWord }).setCtl (.busy op .skX)

/-- A seek ends with no data (R179): SEEK answers 0, POLL an empty list. -/
def seekNoData (op : BusyOp) (s : State) : State :=
  match op with
  | .seek => finishOp .seek (.bit false) s
  | .poll => finishOp .poll (.objects []) s

/-- A seek finds a frame start (R151, R179): the block type is set; SEEK answers 1, POLL goes on at checksum position. -/
def seekFound (op : BusyOp) (bt : BlockType) (s : State) : State :=
  match op with
  | .seek => finishOp .seek (.bit true) (setBlockType bt s)
  | .poll => (setBlockType bt s).setCtl (.busy .poll .dChk)

/-- Phase SK_X after the word `w` is received (R153, R179). -/
def seekWord (op : BusyOp) (w : Word) (s : State) : State :=
  match seekRow s.sync.prev w with
  | .noData => seekNoData op (s.setSync { s.sync with cur := w })
  | .found bt => seekFound op bt (s.setSync { s.sync with cur := w })
  | .resync => (s.setSync { prev := w, cur := w }).setCtl (.busy op .skR)
  | .roll => (s.setSync { prev := w, cur := w }).setCtl (.busy op .skX)

/-- SEEK (R152): accepted with no exchange; it runs in the phases SK_X and SK_R. -/
def execSeek (s : State) : Result := acceptRequest (bareRequest 0xA#4) (fun t => .next (startSeek .seek t)) s

end Sys2Proof.Machine
end

