-- ==== Sys2Proof/Machine/Decoder.lean ====
section
/-! DEFINITION. The frame decoder (spec/43_decoder.md) and its phases (R179). -/

namespace Sys2Proof.Machine

/-- Respond with the objects accepted so far and return to IDLE (R172, R179). -/
def finishPoll (op : BusyOp) (s : State) : State := finishOp op (.objects s.dec.objs) s

/-- Checksum position (R174). -/
def checksumWord (op : BusyOp) (w : Word) (s : State) : State :=
  match classify w with
  | .start => finishPoll op ((s.setDec { s.dec with chk := w }).setCtx { bt := .normal, skip := true })
  | .startCc => finishPoll op ((s.setDec { s.dec with chk := w }).setCtx { bt := .colorCode, skip := true })
  | .zero => finishPoll op (s.setDec { s.dec with chk := w })
  | .oos => (s.setDec { s.dec with chk := w }).setCtl (.busy op .dSig)
  | .data => (s.setDec { s.dec with chk := w }).setCtl (.busy op .dSig)

/-- The height word (R175, R179): a NORMAL record is complete with angle 0, a COLOR_CODE record has an angle word. -/
def heightWord (op : BusyOp) (w : Word) (s : State) : State :=
  match s.ctx.bt with
  | .normal => (s.setDec (judgeRecord s.cfg.checksumModulus { s.dec with h := w, ang := 0#16 })).setCtl (.busy op .dTrail)
  | .colorCode => (s.setDec { s.dec with h := w }).setCtl (.busy op .dAng)

/-- The angle word of a COLOR_CODE record (R175, R176). -/
def angleWord (op : BusyOp) (w : Word) (s : State) : State :=
  (s.setDec (judgeRecord s.cfg.checksumModulus { s.dec with ang := w })).setCtl (.busy op .dTrail)

/-- Trailing position (R177). -/
def trailingWord (op : BusyOp) (w : Word) (s : State) : State :=
  match classify w with
  | .start => (setBlockType .normal (s.setDec { s.dec with trail := w })).setCtl (.busy op .dChk)
  | .startCc => (setBlockType .colorCode (s.setDec { s.dec with trail := w })).setCtl (.busy op .dChk)
  | .zero => finishPoll op (s.setDec { s.dec with trail := w })
  | .oos => finishPoll op (s.setDec { s.dec with trail := w })
  | .data => finishPoll op (s.setDec { s.dec with trail := w })

/-- The updates of a phase after the word `w` is received (R179). SK_R receives a byte, not a word, and has no row here. -/
def wordPhase (op : BusyOp) (ph : Phase) (w : Word) (s : State) : State :=
  match ph with
  | .skX => seekWord op w s
  | .skR => s
  | .dChk => checksumWord op w s
  | .dSig => (s.setDec { s.dec with sig := w }).setCtl (.busy op .dX)
  | .dX => (s.setDec { s.dec with x := w }).setCtl (.busy op .dY)
  | .dY => (s.setDec { s.dec with y := w }).setCtl (.busy op .dW)
  | .dW => (s.setDec { s.dec with w := w }).setCtl (.busy op .dH)
  | .dH => heightWord op w s
  | .dAng => angleWord op w s
  | .dTrail => trailingWord op w s

/-- Acceptance of a POLL (R173, R179): the object list is emptied; a set skip flag is cleared and the next word is at checksum
position; otherwise a seek begins. -/
def startPoll (s : State) : State :=
  if s.ctx.skip then (setSkip false (s.setDec { s.dec with objs := [] })).setCtl (.busy .poll .dChk)
  else startSeek .poll (s.setDec { s.dec with objs := [] })

/-- POLL (R172): accepted with no exchange; it runs in the phases of R179. -/
def execPoll (s : State) : Result := acceptRequest (bareRequest 0xB#4) (fun t => .next (startPoll t)) s

end Sys2Proof.Machine
end

