-- ==== Sys2Proof/Machine/Wire.lean ====
section
/-! DEFINITION. The exchanges of a BUSY controller, named by the frame that goes out (spec/30_encoding.md R71) or by the class of the
word that arrives (R73). Both names are of the one atomic step of R60 and R179; the block makes no other exchange, so a frame that
is not due, or a word where none is awaited, changes nothing (DESIGN CHOICE, log 14). -/

namespace Sys2Proof.Machine

/-- The frame of the controller's next exchange: TX_RESYNC in phase SK_R; in every other phase TX_DATA with the oldest byte when
the queue is non-empty, else TX_IDLE (R71, spec/41_channel.md R134); none in IDLE and HALT. -/
def frameDue (s : State) : Option TxFrame :=
  match s.ctl with
  | .idle => none
  | .halt => none
  | .busy _ .skR => some .resync
  | .busy _ _ => if 0 < s.q.count then some (.data (Memory.read s.q.buf s.q.head)) else some .idle

/-- One step of a BUSY controller that receives the word `w` (R60, R179). -/
def receiveWord (w : Word) (s : State) : Result :=
  match s.ctl with
  | .idle => .next s
  | .halt => .next s
  | .busy _ .skR => .next s
  | .busy op ph => mapNext (transactWord w s) (wordPhase op ph w)

/-- One step of a BUSY controller in phase SK_R that receives the byte `b` (R132, R179). -/
def receiveByte (b : Byte) (s : State) : State :=
  match s.ctl with
  | .busy op .skR => (exchangeOne b s).setCtl (.busy op .skX)
  | _ => s

/-- TX_DATA d (R71, R130): the exchange that sends 0x5B and then d, when d is the oldest queued byte. -/
def execTxData (d : Byte) (s : State) : Result :=
  if frameDue s = some (.data d) then receiveWord (drawWord s).1 (drawWord s).2 else .next s

/-- TX_IDLE (R71, R130): the exchange that sends 0x5A and then 0x00, when the queue is empty. -/
def execTxIdle (s : State) : Result :=
  if frameDue s = some .idle then receiveWord (drawWord s).1 (drawWord s).2 else .next s

/-- TX_RESYNC (R71, R132): the 1-byte exchange that sends 0x5A, in phase SK_R. -/
def execTxResync (s : State) : Result :=
  if frameDue s = some .resync then .next (receiveByte (drawByte s).1 (drawByte s).2) else .next s

/-- START, 0xAA55, is received (R73). -/
def execRxStart (s : State) : Result := receiveWord Config.startWord s

/-- START_CC, 0xAA56, is received (R73). -/
def execRxStartCc (s : State) : Result := receiveWord Config.startWordCc s

/-- OOS, 0x55AA, is received (R73). -/
def execRxOos (s : State) : Result := receiveWord Config.outOfSyncWord s

/-- ZERO, 0x0000, is received (R73). -/
def execRxZero (s : State) : Result := receiveWord 0#16 s

/-- An ordinary word is received (R73). -/
def execRxData (w : Word) (s : State) : Result := receiveWord w s

end Sys2Proof.Machine
end

