-- ==== Sys2Proof/Machine/Dispatch.lean ====
section
/-! DEFINITION. One arm per constructor of Instr: the direct call of its meaning. -/

namespace Sys2Proof.Machine

/-- The meaning of an instruction. -/
def exec (i : Instr) (s : State) : Host.Outcome State Fault Refusal :=
  match i with
  | .enq b => Sys2Proof.Machine.execEnq b s
  | .deq => Sys2Proof.Machine.execDeq s
  | .enqcmd payload => Sys2Proof.Machine.execEnqcmd payload s
  | .cap => Sys2Proof.Machine.execCap s
  | .size => Sys2Proof.Machine.execSize s
  | .empty => Sys2Proof.Machine.execEmpty s
  | .transact => Sys2Proof.Machine.execTransact s
  | .resync => Sys2Proof.Machine.execResync s
  | .send payload => Sys2Proof.Machine.execSend payload s
  | .seek => Sys2Proof.Machine.execSeek s
  | .poll => Sys2Proof.Machine.execPoll s
  | .reserved0 rest => Sys2Proof.Machine.execReserved0 rest s
  | .reservedC rest => Sys2Proof.Machine.execReservedC rest s
  | .reservedD rest => Sys2Proof.Machine.execReservedD rest s
  | .reservedE rest => Sys2Proof.Machine.execReservedE rest s
  | .reservedF rest => Sys2Proof.Machine.execReservedF rest s
  | .servo s1 s2 => Sys2Proof.Machine.execServo s1 s2 s
  | .exposure v => Sys2Proof.Machine.execExposure v s
  | .led r g b => Sys2Proof.Machine.execLed r g b s
  | .txData d => Sys2Proof.Machine.execTxData d s
  | .txIdle => Sys2Proof.Machine.execTxIdle s
  | .txResync => Sys2Proof.Machine.execTxResync s
  | .rxStart => Sys2Proof.Machine.execRxStart s
  | .rxStartCc => Sys2Proof.Machine.execRxStartCc s
  | .rxOos => Sys2Proof.Machine.execRxOos s
  | .rxZero => Sys2Proof.Machine.execRxZero s
  | .rxData w => Sys2Proof.Machine.execRxData w s

end Sys2Proof.Machine
end

