-- ==== Sys2Proof/Machine/Fetch.lean ====
section
/-! DEFINITION. What the controller does next: the reset input, the request at the port, the exchange of a BUSY controller; and where a
given instruction is placed so that it comes next. -/

namespace Sys2Proof.Machine

/-- The instruction of a pseudo-operation call. -/
def HostCall.instr : HostCall → Instr
  | .servo s1 s2 => .servo s1 s2
  | .exposure v => .exposure v
  | .led r g b => .led r g b

/-- The beats at the front of what the host has lined up, up to the next pseudo-operation call. -/
def portBeats : List HostItem → List Beat
  | .beat b :: items => b :: portBeats items
  | _ => []

/-- What the port finds in what the host has lined up. -/
inductive Fetched where
  /-- Nothing, or a request whose payload beats have not all been presented (log 10). -/
  | nothing
  /-- An instruction, and what is lined up after it. -/
  | run (i : Instr) (rest : List HostItem)
  /-- An illegal header of a defined operation, one beat long (R78, R81), and what is lined up after it. -/
  | illegal (h : Beat) (rest : List HostItem)
  deriving DecidableEq, Repr

/-- The next request or pseudo-operation call (spec/30_encoding.md R78, R81). -/
def fetchRequest : List HostItem → Fetched
  | [] => .nothing
  | .call c :: rest => .run c.instr rest
  | .beat h :: rest =>
    match decodeRequest (h :: portBeats rest) with
    | .ok (i, _) => .run i (rest.drop (requestLength h - 1))
    | .error (.reservedField _) => .illegal h rest
    | .error (.unusedImm _) => .illegal h rest
    | .error _ => .nothing

/-- The row of a transmitted frame. -/
def TxFrame.instr : TxFrame → Instr
  | .data d => .txData d
  | .idle => .txIdle
  | .resync => .txResync

/-- The name of a BUSY controller's next exchange, and the state it runs in: the class of the received word when the environment's
two bytes are lined up, else the frame that goes out (log 20). -/
def exchangeInstr (f : TxFrame) (s : State) : Instr × State :=
  match f, s.rxIn with
  | .resync, _ => (.txResync, s)
  | .data _, _ :: _ :: _ => (decodeRx (drawWord s).1, (drawWord s).2)
  | .idle, _ :: _ :: _ => (decodeRx (drawWord s).1, (drawWord s).2)
  | f, _ => (f.instr, s)

/-- What the next step does. -/
inductive Action where
  | reset
  | idle
  | run (i : Instr) (s : State)
  | illegal (h : Beat) (s : State)
  deriving DecidableEq, Repr

/-- The reset input comes first (spec/70_reset_and_hazards.md R251); a BUSY controller makes its next exchange (R179); an IDLE or
halted one accepts the next request (spec/30_encoding.md R79). -/
def nextAction (s : State) : Action :=
  if s.rst then .reset
  else
    match frameDue s with
    | some f => .run (exchangeInstr f s).1 (exchangeInstr f s).2
    | none =>
      match fetchRequest s.host with
      | .nothing => .idle
      | .run i rest => .run i (s.setHost rest)
      | .illegal h rest => .illegal h (s.setHost rest)

/-- The beats of a request in front of what the host has lined up, at an IDLE port. -/
def placeRequest (beats : List Beat) (s : State) : State :=
  ((s.setRst false).setCtl .idle).setHost (beats.map HostItem.beat ++ s.host)

/-- A seek in progress with no previous word, in phase `ph`. -/
def placeSeek (ph : Phase) (s : State) : State :=
  ((s.setRst false).setSync { s.sync with prev := Config.noPreviousWord }).setCtl (.busy .seek ph)

/-- The queue that holds exactly the given bytes, from index 0 on. -/
def queueOf (capacity : Nat) (bytes : List Byte) : Queue :=
  match pushBytes capacity bytes Queue.reset with
  | .ok q => q
  | .error _ => Queue.reset

/-- Place a transmitted frame: a seek whose next exchange sends it, with no answer lined up so that the frame names the step. -/
def placeFrame (f : TxFrame) (s : State) : State :=
  match f with
  | .data d => (placeSeek .skX (s.setQ (queueOf s.cfg.capacity [d]))).setRxIn []
  | .idle => (placeSeek .skX (s.setQ Queue.reset)).setRxIn []
  | .resync => placeSeek .skR s

/-- Place a received word: a seek whose next exchange is answered with it. -/
def placeWord (w : Word) (s : State) : State := (placeSeek .skX s).setRxIn (hiByte w :: loByte w :: s.rxIn)

/-- Place a decoded instruction where the next step runs it (log 17). -/
def placeInstr (w : Nat) (i : Instr) (s : State) : State :=
  match i with
  | .txData d => placeFrame (.data d) s
  | .txIdle => placeFrame .idle s
  | .txResync => placeFrame .resync s
  | .rxStart | .rxStartCc | .rxOos | .rxZero | .rxData _ => placeWord (BitVec.ofNat 16 w) s
  | .servo _ _ | .exposure _ | .led _ _ _ => s
  | .enq _ | .deq | .enqcmd _ | .cap | .size | .empty | .transact | .resync | .send _ | .seek | .poll
  | .reserved0 _ | .reservedC _ | .reservedD _ | .reservedE _ | .reservedF _ => placeRequest (tableBeats w) s

/-- Place the instruction that the bits of a table row decode to; bits that decode to none change nothing. -/
def placeTableWord (nbits w : Nat) (s : State) : State :=
  match decodeTableWord nbits w with
  | some i => placeInstr w i s
  | none => s

end Sys2Proof.Machine
end

