-- ==== Sys2Proof/Machine/Step.lean ====
section
/-! DEFINITION. One step of the controller. -/

namespace Sys2Proof.Machine

/-- One atomic step (spec/20_memory.md R60, spec/43_decoder.md R179). With nothing to do the state stays as it is (log 8). -/
def step (s : State) : Host.Outcome State Fault Refusal :=
  match nextAction s with
  | .reset => .next (resetBlock s)
  | .idle => .next s
  | .run i t => exec i t
  | .illegal h t => answerIllegal { header := h, payload := [] } t

/-- `s` with the instruction of a table row placed so that the next step runs it (log 17). -/
def State.withFetchWord (s : State) (nbits w : Nat) : State := placeTableWord nbits w s

end Sys2Proof.Machine
end

