-- ==== Sys2Proof/Safety.lean ====
section
/-! DEFINITION. What claims speak of: the queue's abstract value, the invariant of every state a run reaches, the responses the port may
give, and the spec's own Seek() and Decode() as functions of the bytes received. -/

namespace Sys2Proof.Machine

/-! ### Readiness -/

/-- The port accepts and runs a request: IDLE or HALT, and no fault recorded (spec/30_encoding.md R79, spec/60_exceptions.md R225). -/
abbrev State.ready (s : State) : Prop := portReady s = true ∧ s.fault = .none

/-- The controller is at a phase that receives a word (spec/43_decoder.md R179). -/
abbrev State.awaitsWord (s : State) (op : BusyOp) (ph : Phase) : Prop := s.ctl = .busy op ph ∧ ph ≠ .skR

/-- The queue's indices and count are in range (spec/10_state.md R22 to R25). -/
structure Queue.InRange (capacity : Nat) (q : Queue) : Prop where
  head_lt : q.head < capacity
  tail_lt : q.tail < capacity
  count_le : q.count ≤ capacity
  tail_eq : q.tail = (q.head + q.count) % capacity

/-! ### The queue's abstract value (spec/10_state.md R25) -/

/-- `Q = [q.buf[(q.head + k) mod CAPACITY] for k = 0 .. q.count-1]`, oldest first. -/
def Queue.bytes (capacity : Nat) (q : Queue) : List Byte :=
  (List.range q.count).map (fun k => Memory.read q.buf ((q.head + k) % capacity))

/-- The abstract value of the machine's queue. -/
def State.queued (s : State) : List Byte := s.q.bytes s.cfg.capacity

/-! ### What is observed -/

/-- An event of one of the three shapes the block sends, with as many bytes received as sent (spec/30_encoding.md R71,
spec/20_memory.md R63), of a length R4 names and within the scratch buffers (spec/00_scope.md R4). -/
def Exchange.legal (c : Config) (e : Exchange) : Bool :=
  c.exchangeLengths.contains e.n && decide (e.tx.length ≤ c.scratchTx) && decide (e.rx.length ≤ c.scratchRx) &&
    match e.n, e.tx, e.rx with
    | 2, [t0, t1], [_, _] => t0 == Config.dataSyncByte || (t0 == Config.idleSyncByte && t1 == 0#8)
    | 1, [t0], [_] => t0 == Config.idleSyncByte
    | _, _, _ => false

/-- The queued byte an event carried, if it was TX_DATA (R71). -/
def Exchange.sentByte (e : Exchange) : List Byte :=
  match e.tx with
  | [t0, t1] => if t0 = Config.dataSyncByte then [t1] else []
  | _ => []

/-- The shape of the value each operation answers OK with (spec/30_encoding.md R80), a count being at most CAPACITY. -/
def valueFits (capacity : Nat) (op : BitVec 4) (v : Value) : Bool :=
  match op.toNat, v with
  | 1, .bit _ => true
  | 2, .byte _ => true
  | 3, .bit _ => true
  | 4, .count n => n == capacity
  | 5, .count n => decide (n ≤ capacity)
  | 6, .bit _ => true
  | 7, .word _ => true
  | 8, .none => true
  | 9, .none => true
  | 10, .bit _ => true
  | 11, .objects _ => true
  | _, _ => false

/-- The answers a request may get: ILLEGAL exactly for an illegal header, OK with a fitting value for a legal one, or FAULT
(spec/30_encoding.md R80, R81, spec/60_exceptions.md R225). -/
def responseFits (capacity : Nat) (p : Request × Response) : Bool :=
  match p.2 with
  | .ok v => !illegalHeader p.1.header && valueFits capacity (opField p.1.header) v
  | .illegal => illegalHeader p.1.header
  | .fault => true

/-- `u` is `s` after one 2-byte exchange answered with the word `w` (spec/41_channel.md R130): TX_IDLE went out and the queue is as
it was, or TX_DATA with the oldest queued byte went out and that byte is gone, every byte of the storage being kept; the scratch
buffers and the history hold the exchange, and nothing else differs. -/
def State.Exchanged (s : State) (w : Word) (u : State) : Prop :=
  (s.q.count = 0 ∧
    u = { s with
      ch := { tx0 := 0x5A#8, tx1 := 0x00#8, rx0 := w.extractLsb' 8 8, rx1 := w.extractLsb' 0 8 }
      wire := s.wire ++ [{ n := 2, tx := [0x5A#8, 0x00#8], rx := [w.extractLsb' 8 8, w.extractLsb' 0 8] }] }) ∨
  (∃ (d : Byte) (q' : Queue), s.queued = d :: q'.bytes s.cfg.capacity ∧ q'.buf = s.q.buf ∧ q'.tail = s.q.tail ∧
    q'.head = (s.q.head + 1) % s.cfg.capacity ∧ q'.count + 1 = s.q.count ∧
    u = { s with
      q := q'
      ch := { tx0 := 0x5B#8, tx1 := d, rx0 := w.extractLsb' 8 8, rx1 := w.extractLsb' 0 8 }
      wire := s.wire ++ [{ n := 2, tx := [0x5B#8, d], rx := [w.extractLsb' 8 8, w.extractLsb' 0 8] }] })

/-- The bytes a request would put into the queue (spec/40_fifo.md R102, R106, spec/41_channel.md R135). -/
def Request.offered (r : Request) : List Byte :=
  if opField r.header = 0x1#4 then [immField r.header]
  else if opField r.header = 0x3#4 ∨ opField r.header = 0x9#4 then r.payload
  else []

/-- The byte a response took out of the queue, if it answers a DEQ (R104). -/
def dequeuedByte (p : Request × Response) : List Byte :=
  match p.2 with
  | .ok (.byte b) => [b]
  | _ => []

/-! ### The invariant -/

/-- What holds in every state a run reaches: the queue invariant (spec/10_state.md R25), the storage canonical and inside its
address space (spec/20_memory.md R50), HALT exactly when a fault is recorded (R30), decoder phases only in a POLL and the skip flag
clear during one (spec/43_decoder.md R173, R179), only legal exchanges and responses observed, and the parameters as spec/00_scope.md
R4 gives them. -/
structure State.Inv (s : State) : Prop where
  capacity_pos : 0 < s.cfg.capacity
  queue_inRange : s.q.InRange s.cfg.capacity
  memory_wf : Memory.wf s.q.buf = true
  memory_inside : s.q.buf.all (fun c => decide (c.1 < s.cfg.capacity)) = true
  halt_iff_fault : s.ctl = .halt ↔ s.fault ≠ .none
  phase_ofOp : ∀ ph, s.ctl = .busy .seek ph → ph = .skX ∨ ph = .skR
  skip_clear : ∀ ph, s.ctl = .busy .poll ph → s.ctx.skip = false
  wire_legal : s.wire.all (Exchange.legal s.cfg) = true
  responses_fit : s.portLog.all (responseFits s.cfg.capacity) = true
  config_asGiven : s.cfg.AsGiven

/-! ### Seek() and Decode() over the received bytes (spec/42_synchronizer.md R151, spec/43_decoder.md R171) -/

/-- The next received word, and the bytes after it. -/
def readWord : List Byte → Option (Word × List Byte)
  | b0 :: b1 :: bs => some (wordOfBytes b0 b1, bs)
  | _ => none

/-- `Seek()` from the previous word on (R151): `some (none, _)` for NO_DATA, `some (some bt, _)` for DATA with the block type found,
with the bytes left over; `none` when the bytes run out first. -/
def seekBytes (prev : Word) : List Byte → Option (Option BlockType × List Byte)
  | [] => none
  | [_] => none
  | [b0, b1] =>
    if prev = 0x0000#16 ∧ wordOfBytes b0 b1 = 0x0000#16 then some (none, [])
    else if prev = 0xAA55#16 ∧ wordOfBytes b0 b1 = 0xAA55#16 then some (some .normal, [])
    else if prev = 0xAA55#16 ∧ wordOfBytes b0 b1 = 0xAA56#16 then some (some .colorCode, [])
    else none
  | b0 :: b1 :: b2 :: bs =>
    if prev = 0x0000#16 ∧ wordOfBytes b0 b1 = 0x0000#16 then some (none, b2 :: bs)
    else if prev = 0xAA55#16 ∧ wordOfBytes b0 b1 = 0xAA55#16 then some (some .normal, b2 :: bs)
    else if prev = 0xAA55#16 ∧ wordOfBytes b0 b1 = 0xAA56#16 then some (some .colorCode, b2 :: bs)
    else if wordOfBytes b0 b1 = 0x55AA#16 then seekBytes 0x55AA#16 bs
    else seekBytes (wordOfBytes b0 b1) (b2 :: bs)

/-- The five fields that every record has, and the angle word of a COLOR_CODE record (R171 step d). -/
def readFields (bt : BlockType) (bs : List Byte) : Option (DetectedObject × List Byte) := do
  let (sig, bs) ← readWord bs
  let (x, bs) ← readWord bs
  let (y, bs) ← readWord bs
  let (w, bs) ← readWord bs
  let (h, bs) ← readWord bs
  match bt with
  | .normal => some ({ signature := sig, x := x, y := y, width := w, height := h, angle := 0#16 }, bs)
  | .colorCode => do
    let (ang, bs) ← readWord bs
    some ({ signature := sig, x := x, y := y, width := w, height := h, angle := ang }, bs)

/-- Keep an object whose six fields sum to the checksum modulo 65536 (R170, R171 step e). -/
def keepValid (chk : Word) (o : DetectedObject) (objs : List DetectedObject) : List DetectedObject :=
  if (o.signature.toNat + o.x.toNat + o.y.toNat + o.width.toNat + o.height.toNat + o.angle.toNat) % 65536 = chk.toNat
  then objs ++ [o] else objs

/-- The record loop of `Decode()` (R171 step 2), at most `n` times round: the objects, the Frame Context after, and the bytes left
over; `none` when the bytes or the rounds run out first. -/
def decodeLoop : Nat → BlockType → List DetectedObject → List Byte → Option (List DetectedObject × FrameCtx × List Byte)
  | 0, _, _, _ => none
  | n + 1, bt, objs, bs => do
    let (chk, bs) ← readWord bs
    if chk = 0xAA55#16 then some (objs, { bt := .normal, skip := true }, bs)
    else if chk = 0xAA56#16 then some (objs, { bt := .colorCode, skip := true }, bs)
    else if chk = 0x0000#16 then some (objs, { bt := bt, skip := false }, bs)
    else do
      let (o, bs) ← readFields bt bs
      let (trail, bs) ← readWord bs
      if trail = 0xAA55#16 then decodeLoop n .normal (keepValid chk o objs) bs
      else if trail = 0xAA56#16 then decodeLoop n .colorCode (keepValid chk o objs) bs
      else some (keepValid chk o objs, { bt := bt, skip := false }, bs)

/-- `Decode()` (R171) from a Frame Context and the bytes to come, at most `n` rounds of its loop. -/
def decodeBytes (n : Nat) (ctx : FrameCtx) (bs : List Byte) : Option (List DetectedObject × FrameCtx × List Byte) :=
  if ctx.skip then decodeLoop n ctx.bt [] bs
  else
    match seekBytes 0xFFFF#16 bs with
    | none => none
    | some (none, rest) => some ([], ctx, rest)
    | some (some bt, rest) => decodeLoop n bt [] rest

/-! ### Frames on the wire (spec/30_encoding.md R74, spec/43_decoder.md R185) -/

/-- The start marker of a block type (spec/00_scope.md R5). -/
def markerOf : BlockType → Word
  | .normal => 0xAA55#16
  | .colorCode => 0xAA56#16

/-- A record as sent: its checksum word and its fields. -/
structure WireRecord where
  chk : Word
  obj : DetectedObject
  deriving DecidableEq, Repr

/-- The object a record of the given type stands for: a NORMAL record has angle 0 (R175). -/
def WireRecord.object (bt : BlockType) (r : WireRecord) : DetectedObject :=
  match bt with
  | .normal => { r.obj with angle := 0#16 }
  | .colorCode => r.obj

/-- The words of a record of the given type (R74). -/
def WireRecord.words (bt : BlockType) (r : WireRecord) : List Word :=
  [r.chk, r.obj.signature, r.obj.x, r.obj.y, r.obj.width, r.obj.height] ++
    match bt with
    | .normal => []
    | .colorCode => [r.obj.angle]

/-- A record the block can deliver: its checksum word is no marker and not 0x0000 (R182). -/
abbrev WireRecord.deliverable (r : WireRecord) : Prop := r.chk ≠ 0x0000#16 ∧ r.chk ≠ 0xAA55#16 ∧ r.chk ≠ 0xAA56#16

/-- Records in a row, the first of type `bt`, each followed by the start marker of the next type. -/
def recordWords : BlockType → List (WireRecord × BlockType) → List Word
  | _, [] => []
  | bt, (r, nxt) :: rs => r.words bt ++ [markerOf nxt] ++ recordWords nxt rs

/-- The objects of those records whose checksums are valid, in order. -/
def validObjects : BlockType → List (WireRecord × BlockType) → List DetectedObject
  | _, [] => []
  | bt, (r, nxt) :: rs => keepValid r.chk (r.object bt) [] ++ validObjects nxt rs

/-- A word as the two bytes received, high byte first (spec/20_memory.md R54). -/
def wordBytes (w : Word) : List Byte := [w.extractLsb' 8 8, w.extractLsb' 0 8]

end Sys2Proof.Machine
end

