-- ==== Sys2Proof/Certificates/Slice0/Obligations.lean ====
section
/-! DEFINITION. The statements about this machine, from the numbered rules of spec/. Where a next state is written as `{ s with … }`,
every field not named is unchanged: that is the statement's frame. -/

open Sys2Proof Sys2Proof.Machine

/-! ### Encodings -/

/-- Every well-formed instruction but the host pseudo-operations is read back from its own words, with every operand. -/
def Obligations.EveryInstructionDecodesFromItsEncoding : Prop :=
  ∀ i : Instr, i.wellFormed = true → i.isPseudo = false → decodeWords (encode i) = .ok i

/-- R202 to R207: a pseudo-operation with its arguments in range is encoded as its SEND, low byte first; out of range, no request is
issued. -/
def Obligations.PseudoOperationsAreEncodedAsTheirSend : Prop :=
  ∀ s1 s2 v r g b : Int,
    (decodeWords (encode (.servo s1 s2)) =
      if 0 ≤ s1 ∧ s1 ≤ 1000 ∧ 0 ≤ s2 ∧ s2 ≤ 1000 then
        .ok (.send [0x00#8, 0xFF#8, BitVec.ofInt 8 (s1 % 256), BitVec.ofInt 8 (s1 / 256), BitVec.ofInt 8 (s2 % 256),
          BitVec.ofInt 8 (s2 / 256)])
      else .error .notIssued) ∧
    (decodeWords (encode (.exposure v)) =
      if 0 ≤ v ∧ v ≤ 255 then .ok (.send [0x00#8, 0xFE#8, BitVec.ofInt 8 v]) else .error .notIssued) ∧
    (decodeWords (encode (.led r g b)) =
      if 0 ≤ r ∧ r ≤ 255 ∧ 0 ≤ g ∧ g ≤ 255 ∧ 0 ≤ b ∧ b ≤ 255 then
        .ok (.send [0x00#8, 0xFD#8, BitVec.ofInt 8 r, BitVec.ofInt 8 g, BitVec.ofInt 8 b])
      else .error .notIssued)

/-- The encoding examples of R83, and the headers R83 calls illegal. How the decoder reads those headers is the model's choice
(log 16): the ones with a row of the opcode table, the reserved codes, decode to that row's instruction, and the others are rejected
by name. -/
def Obligations.EncodingExamplesDecode : Prop :=
  decodeRequest [0x1011#16] = .ok (.enq 0x11#8, []) ∧
  decodeRequest [0x2000#16] = .ok (.deq, []) ∧
  decodeRequest [0x3003#16, 0x00#16, 0xFE#16, 0x80#16] = .ok (.enqcmd [0x00#8, 0xFE#8, 0x80#8], []) ∧
  decodeRequest [0x4000#16] = .ok (.cap, []) ∧
  decodeRequest [0x5000#16] = .ok (.size, []) ∧
  decodeRequest [0x6000#16] = .ok (.empty, []) ∧
  decodeRequest [0x7000#16] = .ok (.transact, []) ∧
  decodeRequest [0x8000#16] = .ok (.resync, []) ∧
  decodeRequest [0x9006#16, 0x00#16, 0xFF#16, 0xF4#16, 0x01#16, 0xF4#16, 0x01#16] =
    .ok (.send [0x00#8, 0xFF#8, 0xF4#8, 0x01#8, 0xF4#8, 0x01#8], []) ∧
  decodeRequest [0xA000#16] = .ok (.seek, []) ∧
  decodeRequest [0xB000#16] = .ok (.poll, []) ∧
  decodeRequest [0x0000#16] = .ok (.reserved0 0, []) ∧
  decodeRequest [0x2001#16] = .error (.unusedImm 0x2001#16) ∧
  decodeRequest [0x7100#16] = .error (.reservedField 0x7100#16) ∧
  decodeRequest [0xC000#16] = .ok (.reservedC 0, []) ∧
  illegalHeader 0x0000#16 = true ∧ illegalHeader 0x2001#16 = true ∧ illegalHeader 0x7100#16 = true ∧
  illegalHeader 0xC000#16 = true

/-- R75, R76, R77: a legal header selects the operation of its op field; `imm8` is the byte of ENQ and the payload length of ENQCMD and
SEND, whose payload is the next L beats, in order. That a beat is 16 bits and a payload byte its low byte is the model's choice
(log 9). -/
def Obligations.LegalHeadersSelectTheirOperation : Prop :=
  ∀ (h : Beat) (rest : List Beat), h.toNat / 256 % 16 = 0 →
    (h.toNat / 4096 = 0x1 → decodeRequest (h :: rest) = .ok (.enq (h.extractLsb' 0 8), rest)) ∧
    (h.toNat / 4096 = 0x3 → h.toNat % 256 ≤ rest.length →
      decodeRequest (h :: rest) =
        .ok (.enqcmd ((rest.take (h.toNat % 256)).map (fun b => b.extractLsb' 0 8)), rest.drop (h.toNat % 256))) ∧
    (h.toNat / 4096 = 0x9 → h.toNat % 256 ≤ rest.length →
      decodeRequest (h :: rest) =
        .ok (.send ((rest.take (h.toNat % 256)).map (fun b => b.extractLsb' 0 8)), rest.drop (h.toNat % 256))) ∧
    (h.toNat % 256 = 0 →
      (h.toNat / 4096 = 0x2 → decodeRequest (h :: rest) = .ok (.deq, rest)) ∧
      (h.toNat / 4096 = 0x4 → decodeRequest (h :: rest) = .ok (.cap, rest)) ∧
      (h.toNat / 4096 = 0x5 → decodeRequest (h :: rest) = .ok (.size, rest)) ∧
      (h.toNat / 4096 = 0x6 → decodeRequest (h :: rest) = .ok (.empty, rest)) ∧
      (h.toNat / 4096 = 0x7 → decodeRequest (h :: rest) = .ok (.transact, rest)) ∧
      (h.toNat / 4096 = 0x8 → decodeRequest (h :: rest) = .ok (.resync, rest)) ∧
      (h.toNat / 4096 = 0xA → decodeRequest (h :: rest) = .ok (.seek, rest)) ∧
      (h.toNat / 4096 = 0xB → decodeRequest (h :: rest) = .ok (.poll, rest)))

/-- R78: the length of a decoded request follows from its header alone. -/
def Obligations.RequestLengthFollowsFromTheHeader : Prop :=
  ∀ (h : Beat) (rest left : List Beat) (i : Instr), decodeRequest (h :: rest) = .ok (i, left) →
    rest.length + 1 =
      (if h.toNat / 256 % 16 = 0 ∧ (h.toNat / 4096 = 0x3 ∨ h.toNat / 4096 = 0x9) then 1 + h.toNat % 256 else 1) + left.length

/-- R73: every received word is in exactly one class; R72: a word is its two bytes, the first one high. -/
def Obligations.ReceivedWordsAreClassified : Prop :=
  (∀ b0 b1 : Byte, (wordOfBytes b0 b1).toNat = b0.toNat * 256 + b1.toNat) ∧
  decodeRx 0x0000#16 = .rxZero ∧ decodeRx 0xAA55#16 = .rxStart ∧ decodeRx 0xAA56#16 = .rxStartCc ∧ decodeRx 0x55AA#16 = .rxOos ∧
  ∀ w : Word, w ≠ 0x0000#16 → w ≠ 0xAA55#16 → w ≠ 0xAA56#16 → w ≠ 0x55AA#16 → decodeRx w = .rxData w

/-! ### The step -/

/-- At a ready port the step runs the request at the front of what the host has lined up, its beats consumed, or the
pseudo-operation called there. That a halted block takes all the beats of a request with payload at once is the model's choice
(log 19), and so is that a pseudo-operation is one step of the host at a ready port (log 13). -/
def Obligations.StepRunsTheNextRequest : Prop :=
  ∀ (s : State) (rest : List HostItem), s.rst = false → portReady s = true →
    (∀ (i : Instr) (beats : List Beat), i.wellFormed = true → i.isPseudo = false → encode i = .request beats →
      s.host = beats.map HostItem.beat ++ rest → step s = exec i { s with host := rest }) ∧
    (∀ s1 s2 : Int, s.host = .call (.servo s1 s2) :: rest → step s = exec (.servo s1 s2) { s with host := rest }) ∧
    (∀ v : Int, s.host = .call (.exposure v) :: rest → step s = exec (.exposure v) { s with host := rest }) ∧
    (∀ r g b : Int, s.host = .call (.led r g b) :: rest → step s = exec (.led r g b) { s with host := rest })

/-- While the controller is BUSY the step makes its next exchange: TX_RESYNC in phase SK_R; elsewhere the row of the word whose two
bytes the environment has lined up, those bytes consumed; with fewer than two lined up, the row of the frame that goes out
(the model's choice of name, log 20). -/
def Obligations.StepRunsTheNextExchange : Prop :=
  ∀ (s : State) (op : BusyOp) (ph : Phase), s.rst = false → s.ctl = .busy op ph →
    (ph = .skR → step s = exec .txResync s) ∧
    (ph ≠ .skR →
      (∀ (b0 b1 : Byte) (bs : List Byte), s.rxIn = b0 :: b1 :: bs →
        step s = exec (decodeRx (wordOfBytes b0 b1)) { s with rxIn := bs }) ∧
      (s.rxIn.length < 2 → s.q.count = 0 → step s = exec .txIdle s) ∧
      (s.rxIn.length < 2 → 0 < s.q.count → step s = exec (.txData (Memory.read s.q.buf s.q.head)) s))

/-- R250: asserting reset sets the queue, the Frame Context, the fault and the controller to their reset values in one step, makes no
exchange and gives no response; what the rule leaves unspecified (the storage and the working registers) is not stated. -/
def Obligations.ResetInputResetsTheBlock : Prop :=
  ∀ s : State, s.rst = true → ∃ t, step s = .next t ∧
    t.q.head = 0 ∧ t.q.tail = 0 ∧ t.q.count = 0 ∧ t.queued = [] ∧ t.ctx = { bt := .normal, skip := false } ∧ t.fault = .none ∧
    t.ctl = .idle ∧ t.wire = s.wire ∧ t.portLog = s.portLog

/-- The model's choice (log 5): the step that resets consumes the reset input and keeps the configuration and what is lined up at the
ports. -/
def Obligations.ResetInputKeepsThePorts : Prop :=
  ∀ s : State, s.rst = true → ∃ t, step s = .next t ∧
    t.rst = false ∧ t.cfg = s.cfg ∧ t.host = s.host ∧ t.rxIn = s.rxIn ∧ t.drawn = s.drawn ∧ t.hostErrors = s.hostErrors

/-- The model's choice (log 8, log 10): with no request, or one whose payload beats have not all been presented, nothing changes. -/
def Obligations.NothingPresentedChangesNothing : Prop :=
  ∀ s : State, s.rst = false → portReady s = true →
    (s.host = [] → step s = .next s) ∧
    (∀ (h : Beat) (beats : List Beat), h.toNat / 256 % 16 = 0 → (h.toNat / 4096 = 0x3 ∨ h.toNat / 4096 = 0x9) →
      beats.length < h.toNat % 256 → s.host = (h :: beats).map HostItem.beat → step s = .next s)

/-- R81, R224: a header with a reserved op, a non-zero rsv, or an unused imm8 that is not zero is one beat long and is answered
ILLEGAL with no change to any state. -/
def Obligations.IllegalHeadersAreAnsweredIllegal : Prop :=
  ∀ (s : State) (h : Beat) (rest : List HostItem), s.rst = false → s.ready → s.host = .beat h :: rest →
    (h.toNat / 4096 ∈ [0x0, 0xC, 0xD, 0xE, 0xF] ∨ h.toNat / 256 % 16 ≠ 0 ∨
      (h.toNat / 4096 ∉ [0x1, 0x3, 0x9] ∧ h.toNat % 256 ≠ 0)) →
    step s = .next { s with
      host := rest
      portLog := s.portLog ++ [({ header := h, payload := [] }, .illegal)] }

/-- R253: after reset the block is IDLE and accepts a request, with no fault and an empty queue; the flag is clear, and so the first
POLL begins with a seek. -/
def Obligations.ResetStateIsIdleAndEmpty : Prop :=
  State.reset.ctl = .idle ∧ State.reset.ready ∧ State.reset.fault = .none ∧ State.reset.queued = [] ∧
  State.reset.q.head = 0 ∧ State.reset.q.tail = 0 ∧ State.reset.q.count = 0 ∧
  State.reset.ctx = { bt := .normal, skip := false } ∧
  ∃ t, exec .poll State.reset = .next t ∧ t.ctl = .busy .poll .skX ∧ t.sync.prev = 0xFFFF#16

/-- The invariant holds after reset. -/
def Obligations.ResetStateMeetsTheInvariant : Prop := State.reset.Inv

/-! ### The queue's operations -/

/-- R102, R103: ENQ appends its byte, storing it at the tail and nothing else; on a full queue it answers 0 and changes no state. -/
def Obligations.EnqAppendsItsByteOrChangesNothing : Prop :=
  ∀ (s : State) (b : Byte), s.Inv → s.ready →
    (s.q.count < s.cfg.capacity →
      ∃ q', exec (.enq b) s = .next { s with
          q := q'
          portLog := s.portLog ++ [({ header := 0x1#4 ++ 0x0#4 ++ b, payload := [] }, .ok (.bit true))] } ∧
        q'.bytes s.cfg.capacity = s.queued ++ [b] ∧ q'.head = s.q.head ∧ q'.tail = (s.q.tail + 1) % s.cfg.capacity ∧
        q'.count = s.q.count + 1 ∧ Memory.read q'.buf s.q.tail = b ∧
        ∀ a, a ≠ s.q.tail → Memory.read q'.buf a = Memory.read s.q.buf a) ∧
    (s.q.count = s.cfg.capacity →
      exec (.enq b) s = .next { s with
        portLog := s.portLog ++ [({ header := 0x1#4 ++ 0x0#4 ++ b, payload := [] }, .ok (.bit false))] })

/-- R104, R222: DEQ removes the oldest byte and stores nothing; on an empty queue it records UNDERFLOW, halts, answers FAULT and
changes nothing else. -/
def Obligations.DeqRemovesTheOldestByteOrHalts : Prop :=
  ∀ s : State, s.Inv → s.ready →
    (0 < s.q.count →
      ∃ d q', exec .deq s = .next { s with
          q := q'
          portLog := s.portLog ++ [({ header := 0x2000#16, payload := [] }, .ok (.byte d))] } ∧
        s.queued = d :: q'.bytes s.cfg.capacity ∧ q'.head = (s.q.head + 1) % s.cfg.capacity ∧ q'.tail = s.q.tail ∧
        q'.count + 1 = s.q.count ∧ q'.buf = s.q.buf) ∧
    (s.q.count = 0 →
      exec .deq s = .next { s with
        fault := .underflow
        ctl := .halt
        portLog := s.portLog ++ [({ header := 0x2000#16, payload := [] }, .fault)] })

/-- R106, R107, R135: ENQCMD and SEND put the whole payload into the queue, in order, exactly when it fits, and else nothing; ENQCMD
answers which, SEND answers OK with no value. Only the L slots from the tail on are stored to. -/
def Obligations.WholeCommandsAreAllOrNothing : Prop :=
  ∀ (s : State) (p : List Byte), s.Inv → s.ready → p.length ≤ 255 →
    (p.length ≤ s.cfg.capacity - s.q.count →
      ∃ q',
        exec (.enqcmd p) s = .next { s with
          q := q'
          portLog := s.portLog ++
            [({ header := 0x3#4 ++ 0x0#4 ++ BitVec.ofNat 8 p.length, payload := p }, .ok (.bit true))] } ∧
        exec (.send p) s = .next { s with
          q := q'
          portLog := s.portLog ++
            [({ header := 0x9#4 ++ 0x0#4 ++ BitVec.ofNat 8 p.length, payload := p }, .ok .none)] } ∧
        q'.bytes s.cfg.capacity = s.queued ++ p ∧ q'.head = s.q.head ∧ q'.count = s.q.count + p.length ∧
        q'.tail = (s.q.tail + p.length) % s.cfg.capacity ∧
        ∀ a, (∀ k < p.length, a ≠ (s.q.tail + k) % s.cfg.capacity) → Memory.read q'.buf a = Memory.read s.q.buf a) ∧
    (s.cfg.capacity - s.q.count < p.length →
      exec (.enqcmd p) s = .next { s with
        portLog := s.portLog ++
          [({ header := 0x3#4 ++ 0x0#4 ++ BitVec.ofNat 8 p.length, payload := p }, .ok (.bit false))] } ∧
      exec (.send p) s = .next { s with
        portLog := s.portLog ++
          [({ header := 0x9#4 ++ 0x0#4 ++ BitVec.ofNat 8 p.length, payload := p }, .ok .none)] })

/-- R108, R109, R110: CAP, SIZE and EMPTY answer the capacity, the number of queued bytes and whether there is none, and change
nothing. -/
def Obligations.QueueQueriesOnlyAnswer : Prop :=
  ∀ s : State, s.ready →
    exec .cap s = .next { s with
      portLog := s.portLog ++ [({ header := 0x4000#16, payload := [] }, .ok (.count s.cfg.capacity))] } ∧
    exec .size s = .next { s with
      portLog := s.portLog ++ [({ header := 0x5000#16, payload := [] }, .ok (.count s.queued.length))] } ∧
    exec .empty s = .next { s with
      portLog := s.portLog ++ [({ header := 0x6000#16, payload := [] }, .ok (.bit (decide (s.queued = []))))] }

/-! ### The transaction channel -/

/-- The answers of the environment are taken in the order lined up, and only then drawn freely (log 1): the word is high byte first,
and nothing but the environment's own fields changes. -/
def Obligations.AnswersAreTakenInOrder : Prop :=
  ∀ s : State,
    (∀ b0 b1 bs, s.rxIn = b0 :: b1 :: bs → drawWord s = (wordOfBytes b0 b1, { s with rxIn := bs })) ∧
    (∀ b, s.rxIn = [b] →
      drawWord s = (wordOfBytes b (Config.rxByte s.drawn), { s with rxIn := [], drawn := s.drawn + 1 })) ∧
    (∀ b bs, s.rxIn = b :: bs → drawByte s = (b, { s with rxIn := bs })) ∧
    (s.rxIn = [] →
      drawWord s = (wordOfBytes (Config.rxByte s.drawn) (Config.rxByte (s.drawn + 1)), { s with drawn := s.drawn + 2 }) ∧
      drawByte s = (Config.rxByte s.drawn, { s with drawn := s.drawn + 1 }))

/-- R130, R131: TRANSACT makes one 2-byte exchange, sending the oldest queued byte after 0x5B or the idle pair, and answers the
received word; the Frame Context and the storage are untouched. -/
def Obligations.TransactAnswersTheReceivedWord : Prop :=
  ∀ s : State, s.Inv → s.ready → ∃ u, (drawWord s).2.Exchanged (drawWord s).1 u ∧
    exec .transact s = .next { u with
      portLog := s.portLog ++ [({ header := 0x7000#16, payload := [] }, .ok (.word (drawWord s).1))] }

/-- R132, R133: RESYNC makes one 1-byte exchange that sends 0x5A, discards the received byte and leaves the queue alone. -/
def Obligations.ResyncSendsOneIdleByte : Prop :=
  ∀ s : State, s.ready →
    exec .resync s = .next { (drawByte s).2 with
      ch := { s.ch with tx0 := 0x5A#8, rx0 := (drawByte s).1 }
      wire := s.wire ++ [{ n := 1, tx := [0x5A#8], rx := [(drawByte s).1] }]
      portLog := s.portLog ++ [({ header := 0x8000#16, payload := [] }, .ok .none)] }

/-! ### Acceptance of SEEK and POLL -/

/-- R154, R179: SEEK is accepted with no exchange; the seek starts from "no previous word". -/
def Obligations.SeekStartsWithNoPreviousWord : Prop :=
  ∀ s : State, s.ready →
    exec .seek s = .next { s with sync := { s.sync with prev := 0xFFFF#16 }, ctl := .busy .seek .skX }

/-- R173, R179: POLL is accepted with no exchange; a set skip flag is cleared and the next word is at checksum position, else a seek
starts; the list of objects is emptied. -/
def Obligations.PollSkipsOrSeeks : Prop :=
  ∀ s : State, s.ready →
    (s.ctx.skip = true →
      exec .poll s = .next { s with
        ctx := { s.ctx with skip := false }, dec := { s.dec with objs := [] }, ctl := .busy .poll .dChk }) ∧
    (s.ctx.skip = false →
      exec .poll s = .next { s with
        sync := { s.sync with prev := 0xFFFF#16 }, dec := { s.dec with objs := [] }, ctl := .busy .poll .skX })

/-! ### Reserved codes, halt and the held port -/

/-- R81, R224: every reserved operation code, whatever its other twelve bits, is answered ILLEGAL and changes nothing. -/
def Obligations.ReservedCodesAreAnsweredIllegal : Prop :=
  ∀ (s : State) (r : BitVec 12), s.ready →
    exec (.reserved0 r) s = .next { s with portLog := s.portLog ++ [({ header := 0x0#4 ++ r, payload := [] }, .illegal)] } ∧
    exec (.reservedC r) s = .next { s with portLog := s.portLog ++ [({ header := 0xC#4 ++ r, payload := [] }, .illegal)] } ∧
    exec (.reservedD r) s = .next { s with portLog := s.portLog ++ [({ header := 0xD#4 ++ r, payload := [] }, .illegal)] } ∧
    exec (.reservedE r) s = .next { s with portLog := s.portLog ++ [({ header := 0xE#4 ++ r, payload := [] }, .illegal)] } ∧
    exec (.reservedF r) s = .next { s with portLog := s.portLog ++ [({ header := 0xF#4 ++ r, payload := [] }, .illegal)] }

/-- R223: while a fault is recorded every request, legal or illegal, with the payload its beats carry, is answered FAULT and nothing
else changes; no step but a reset
clears the fault, leaves HALT or makes an exchange. -/
def Obligations.HaltedBlockAnswersFault : Prop :=
  ∀ s : State, portReady s = true → s.fault ≠ .none →
    (∀ (i : Instr) (h : Beat) (beats : List Beat), i.isPseudo = false → encode i = .request (h :: beats) →
      exec i s = .next { s with
        portLog := s.portLog ++ [({ header := h, payload := beats.map (fun b => b.extractLsb' 0 8) }, .fault)] }) ∧
    (∀ (h : Beat) (rest : List HostItem), s.rst = false → s.host = .beat h :: rest →
      (h.toNat / 4096 ∈ [0x0, 0xC, 0xD, 0xE, 0xF] ∨ h.toNat / 256 % 16 ≠ 0 ∨
        (h.toNat / 4096 ∉ [0x1, 0x3, 0x9] ∧ h.toNat % 256 ≠ 0)) →
      step s = .next { s with
        host := rest
        portLog := s.portLog ++ [({ header := h, payload := [] }, .fault)] }) ∧
    (∀ t : State, s.Inv → s.rst = false → step s = .next t → t.fault = s.fault ∧ t.ctl = .halt ∧ t.wire = s.wire)

/-- R229: in HALT no operation runs: a step that is no reset changes nothing of the block, and what it adds to the port's log is a
FAULT. -/
def Obligations.OnlyResetLeavesHalt : Prop :=
  ∀ s t : State, s.Inv → s.ctl = .halt → s.rst = false → step s = .next t →
    t = { s with host := t.host, portLog := t.portLog, hostErrors := t.hostErrors } ∧
    (t.portLog = s.portLog ∨ ∃ r, t.portLog = s.portLog ++ [(r, .fault)])

/-- R79 and the model's choice (log 11): a request given to a BUSY controller is held, and changes nothing. -/
def Obligations.BusyPortHoldsRequests : Prop :=
  ∀ (s : State) (op : BusyOp) (ph : Phase) (i : Instr) (beats : List Beat), s.ctl = .busy op ph →
    encode i = .request beats → exec i s = .next s

/-! ### The host pseudo-operations -/

/-- R200, R202: SERVO in range is one SEND of its six bytes, low byte first, queued whole if they fit and dropped otherwise; out of
range the host raises InvalidArgument, recorded as log 13 says, and the block is untouched. -/
def Obligations.ServoSendsSixBytesOrRaises : Prop :=
  ∀ (s : State) (s1 s2 : Int),
    (0 ≤ s1 ∧ s1 ≤ 1000 ∧ 0 ≤ s2 ∧ s2 ≤ 1000 → s.Inv → s.ready →
      ∃ q', exec (.servo s1 s2) s = .next { s with
          q := q'
          portLog := s.portLog ++ [({ header := 0x9006#16, payload :=
            [0x00#8, 0xFF#8, BitVec.ofInt 8 (s1 % 256), BitVec.ofInt 8 (s1 / 256), BitVec.ofInt 8 (s2 % 256),
              BitVec.ofInt 8 (s2 / 256)] }, .ok .none)] } ∧
        (6 ≤ s.cfg.capacity - s.q.count → q'.bytes s.cfg.capacity = s.queued ++
          [0x00#8, 0xFF#8, BitVec.ofInt 8 (s1 % 256), BitVec.ofInt 8 (s1 / 256), BitVec.ofInt 8 (s2 % 256),
            BitVec.ofInt 8 (s2 / 256)]) ∧
        (s.cfg.capacity - s.q.count < 6 → q' = s.q) ∧
        ∀ a, (∀ k < 6, a ≠ (s.q.tail + k) % s.cfg.capacity) → Memory.read q'.buf a = Memory.read s.q.buf a) ∧
    (¬ (0 ≤ s1 ∧ s1 ≤ 1000 ∧ 0 ≤ s2 ∧ s2 ≤ 1000) →
      exec (.servo s1 s2) s = .next { s with hostErrors := s.hostErrors ++ [.invalidArgument] })

/-- R200, R204: EXPOSURE in range is one SEND of its three bytes; out of range the host raises InvalidArgument (recorded as log 13
says). -/
def Obligations.ExposureSendsThreeBytesOrRaises : Prop :=
  ∀ (s : State) (v : Int),
    (0 ≤ v ∧ v ≤ 255 → s.Inv → s.ready →
      ∃ q', exec (.exposure v) s = .next { s with
          q := q'
          portLog := s.portLog ++
            [({ header := 0x9003#16, payload := [0x00#8, 0xFE#8, BitVec.ofInt 8 v] }, .ok .none)] } ∧
        (3 ≤ s.cfg.capacity - s.q.count →
          q'.bytes s.cfg.capacity = s.queued ++ [0x00#8, 0xFE#8, BitVec.ofInt 8 v]) ∧
        (s.cfg.capacity - s.q.count < 3 → q' = s.q) ∧
        ∀ a, (∀ k < 3, a ≠ (s.q.tail + k) % s.cfg.capacity) → Memory.read q'.buf a = Memory.read s.q.buf a) ∧
    (¬ (0 ≤ v ∧ v ≤ 255) →
      exec (.exposure v) s = .next { s with hostErrors := s.hostErrors ++ [.invalidArgument] })

/-- R200, R206, R207: LED in range is one SEND of exactly five bytes; any channel out of range raises InvalidArgument
(recorded as log 13 says) and sends nothing. -/
def Obligations.LedSendsFiveBytesOrRaises : Prop :=
  ∀ (s : State) (r g b : Int),
    (0 ≤ r ∧ r ≤ 255 ∧ 0 ≤ g ∧ g ≤ 255 ∧ 0 ≤ b ∧ b ≤ 255 → s.Inv → s.ready →
      ∃ q', exec (.led r g b) s = .next { s with
          q := q'
          portLog := s.portLog ++ [({ header := 0x9005#16, payload :=
            [0x00#8, 0xFD#8, BitVec.ofInt 8 r, BitVec.ofInt 8 g, BitVec.ofInt 8 b] }, .ok .none)] } ∧
        (5 ≤ s.cfg.capacity - s.q.count → q'.bytes s.cfg.capacity =
          s.queued ++ [0x00#8, 0xFD#8, BitVec.ofInt 8 r, BitVec.ofInt 8 g, BitVec.ofInt 8 b]) ∧
        (s.cfg.capacity - s.q.count < 5 → q' = s.q) ∧
        ∀ a, (∀ k < 5, a ≠ (s.q.tail + k) % s.cfg.capacity) → Memory.read q'.buf a = Memory.read s.q.buf a) ∧
    (¬ (0 ≤ r ∧ r ≤ 255 ∧ 0 ≤ g ∧ g ≤ 255 ∧ 0 ≤ b ∧ b ≤ 255) →
      exec (.led r g b) s = .next { s with hostErrors := s.hostErrors ++ [.invalidArgument] })

/-- R203: the byte split, low byte first. -/
def Obligations.ServoValuesAreSplitLowByteFirst : Prop :=
  ∀ v : Int, 0 ≤ v → v ≤ 65535 →
    ((lo8 v).toNat : Int) = v % 256 ∧ ((hi8 v).toNat : Int) = v / 256 ∧ (v ≤ 1000 → (hi8 v).toNat ≤ 3) ∧
    ∀ w : Int, servoBytes v w = [0x00#8, 0xFF#8, lo8 v, hi8 v, lo8 w, hi8 w]

/-! ### The word positions of a BUSY controller -/

/-- R153: what each received word does at seek position, in a SEEK and in a POLL; an out-of-sync word is followed by one resync
exchange, after which the seek goes on. -/
def Obligations.SeekPositionFollowsItsTable : Prop :=
  ∀ (s : State) (op : BusyOp), s.Inv → s.ctl = .busy op .skX →
    (∃ u, s.Exchanged 0x0000#16 u ∧ exec .rxZero s = .next (
      if s.sync.prev = 0x0000#16 then
        match op with
        | .seek => { u with
            sync := { u.sync with cur := 0x0000#16 }, ctl := .idle
            portLog := u.portLog ++ [({ header := 0xA000#16, payload := [] }, .ok (.bit false))] }
        | .poll => { u with
            sync := { u.sync with cur := 0x0000#16 }, ctl := .idle
            portLog := u.portLog ++ [({ header := 0xB000#16, payload := [] }, .ok (.objects []))] }
      else { u with sync := { prev := 0x0000#16, cur := 0x0000#16 } })) ∧
    (∃ u, s.Exchanged 0xAA55#16 u ∧ exec .rxStart s = .next (
      if s.sync.prev = 0xAA55#16 then
        match op with
        | .seek => { u with
            ctx := { u.ctx with bt := .normal }, sync := { u.sync with cur := 0xAA55#16 }, ctl := .idle
            portLog := u.portLog ++ [({ header := 0xA000#16, payload := [] }, .ok (.bit true))] }
        | .poll => { u with
            ctx := { u.ctx with bt := .normal }, sync := { u.sync with cur := 0xAA55#16 }, ctl := .busy .poll .dChk }
      else { u with sync := { prev := 0xAA55#16, cur := 0xAA55#16 } })) ∧
    (∃ u, s.Exchanged 0xAA56#16 u ∧ exec .rxStartCc s = .next (
      if s.sync.prev = 0xAA55#16 then
        match op with
        | .seek => { u with
            ctx := { u.ctx with bt := .colorCode }, sync := { u.sync with cur := 0xAA56#16 }, ctl := .idle
            portLog := u.portLog ++ [({ header := 0xA000#16, payload := [] }, .ok (.bit true))] }
        | .poll => { u with
            ctx := { u.ctx with bt := .colorCode }, sync := { u.sync with cur := 0xAA56#16 }, ctl := .busy .poll .dChk }
      else { u with sync := { prev := 0xAA56#16, cur := 0xAA56#16 } })) ∧
    (∃ u t, s.Exchanged 0x55AA#16 u ∧ exec .rxOos s = .next t ∧
      t = { u with sync := { prev := 0x55AA#16, cur := 0x55AA#16 }, ctl := .busy op .skR } ∧
      exec .txResync t = .next { (drawByte t).2 with
        ch := { t.ch with tx0 := 0x5A#8, rx0 := (drawByte t).1 }
        wire := t.wire ++ [{ n := 1, tx := [0x5A#8], rx := [(drawByte t).1] }]
        ctl := .busy op .skX }) ∧
    (∀ w : Word, w ≠ 0x0000#16 → w ≠ 0xAA55#16 → w ≠ 0xAA56#16 → w ≠ 0x55AA#16 →
      ∃ u, s.Exchanged w u ∧ exec (.rxData w) s = .next { u with sync := { prev := w, cur := w } })

/-- R174: what each received word does at checksum position of a POLL. -/
def Obligations.ChecksumPositionFollowsItsTable : Prop :=
  ∀ s : State, s.Inv → s.ctl = .busy .poll .dChk →
    (∃ u, s.Exchanged 0xAA55#16 u ∧ exec .rxStart s = .next { u with
      ctx := { bt := .normal, skip := true }, dec := { u.dec with chk := 0xAA55#16 }, ctl := .idle
      portLog := u.portLog ++ [({ header := 0xB000#16, payload := [] }, .ok (.objects s.dec.objs))] }) ∧
    (∃ u, s.Exchanged 0xAA56#16 u ∧ exec .rxStartCc s = .next { u with
      ctx := { bt := .colorCode, skip := true }, dec := { u.dec with chk := 0xAA56#16 }, ctl := .idle
      portLog := u.portLog ++ [({ header := 0xB000#16, payload := [] }, .ok (.objects s.dec.objs))] }) ∧
    (∃ u, s.Exchanged 0x0000#16 u ∧ exec .rxZero s = .next { u with
      dec := { u.dec with chk := 0x0000#16 }, ctl := .idle
      portLog := u.portLog ++ [({ header := 0xB000#16, payload := [] }, .ok (.objects s.dec.objs))] }) ∧
    (∃ u, s.Exchanged 0x55AA#16 u ∧
      exec .rxOos s = .next { u with dec := { u.dec with chk := 0x55AA#16 }, ctl := .busy .poll .dSig }) ∧
    (∀ w : Word, w ≠ 0x0000#16 → w ≠ 0xAA55#16 → w ≠ 0xAA56#16 → w ≠ 0x55AA#16 →
      ∃ u, s.Exchanged w u ∧ exec (.rxData w) s = .next { u with dec := { u.dec with chk := w }, ctl := .busy .poll .dSig })

/-- R175: the field words are taken in order, each as data whatever its value; after the height a NORMAL record has angle 0 and no
angle word, a COLOR_CODE record has one. -/
def Obligations.FieldPositionsTakeEveryWordAsData : Prop :=
  ∀ (s : State) (w : Word), s.Inv →
    (s.ctl = .busy .poll .dSig → ∃ u, s.Exchanged w u ∧
      exec (decodeRx w) s = .next { u with dec := { u.dec with sig := w }, ctl := .busy .poll .dX }) ∧
    (s.ctl = .busy .poll .dX → ∃ u, s.Exchanged w u ∧
      exec (decodeRx w) s = .next { u with dec := { u.dec with x := w }, ctl := .busy .poll .dY }) ∧
    (s.ctl = .busy .poll .dY → ∃ u, s.Exchanged w u ∧
      exec (decodeRx w) s = .next { u with dec := { u.dec with y := w }, ctl := .busy .poll .dW }) ∧
    (s.ctl = .busy .poll .dW → ∃ u, s.Exchanged w u ∧
      exec (decodeRx w) s = .next { u with dec := { u.dec with w := w }, ctl := .busy .poll .dH }) ∧
    (s.ctl = .busy .poll .dH → s.ctx.bt = .colorCode → ∃ u, s.Exchanged w u ∧
      exec (decodeRx w) s = .next { u with dec := { u.dec with h := w }, ctl := .busy .poll .dAng }) ∧
    (s.ctl = .busy .poll .dH → s.ctx.bt = .normal → ∃ t, exec (decodeRx w) s = .next t ∧
      t.ctl = .busy .poll .dTrail ∧ t.dec.h = w ∧ t.dec.ang = 0x0000#16) ∧
    (s.ctl = .busy .poll .dAng → ∃ t, exec (decodeRx w) s = .next t ∧ t.ctl = .busy .poll .dTrail ∧ t.dec.ang = w)

/-- R176: the last word of a record, the height of a NORMAL one or the angle of a COLOR_CODE one, appends the record if its six
fields sum to the checksum modulo 65536 and drops it otherwise; either way the trailing word is next. -/
def Obligations.RecordIsKeptExactlyWhenItsChecksumIsValid : Prop :=
  ∀ (s : State) (w : Word), s.Inv →
    (s.ctl = .busy .poll .dH → s.ctx.bt = .normal → ∃ u, s.Exchanged w u ∧
      exec (decodeRx w) s = .next { u with
        dec := { u.dec with
          h := w
          ang := 0x0000#16
          objs :=
            if (s.dec.sig.toNat + s.dec.x.toNat + s.dec.y.toNat + s.dec.w.toNat + w.toNat) % 65536 = s.dec.chk.toNat then
              s.dec.objs ++ [DetectedObject.mk s.dec.sig s.dec.x s.dec.y s.dec.w w 0x0000#16]
            else s.dec.objs }
        ctl := .busy .poll .dTrail }) ∧
    (s.ctl = .busy .poll .dAng → ∃ u, s.Exchanged w u ∧
      exec (decodeRx w) s = .next { u with
        dec := { u.dec with
          ang := w
          objs :=
            if (s.dec.sig.toNat + s.dec.x.toNat + s.dec.y.toNat + s.dec.w.toNat + s.dec.h.toNat + w.toNat) % 65536 =
                s.dec.chk.toNat then
              s.dec.objs ++ [DetectedObject.mk s.dec.sig s.dec.x s.dec.y s.dec.w s.dec.h w]
            else s.dec.objs }
        ctl := .busy .poll .dTrail })

/-- R177: a start marker at trailing position sets the block type and begins the next record; any other word ends the call, with the
skip flag left clear. -/
def Obligations.TrailingPositionContinuesOrEndsTheFrame : Prop :=
  ∀ s : State, s.Inv → s.ctl = .busy .poll .dTrail → s.ctx.skip = false ∧
    (∃ u, s.Exchanged 0xAA55#16 u ∧ exec .rxStart s = .next { u with
      ctx := { u.ctx with bt := .normal }, dec := { u.dec with trail := 0xAA55#16 }, ctl := .busy .poll .dChk }) ∧
    (∃ u, s.Exchanged 0xAA56#16 u ∧ exec .rxStartCc s = .next { u with
      ctx := { u.ctx with bt := .colorCode }, dec := { u.dec with trail := 0xAA56#16 }, ctl := .busy .poll .dChk }) ∧
    (∀ w : Word, w ≠ 0xAA55#16 → w ≠ 0xAA56#16 →
      ∃ u, s.Exchanged w u ∧ exec (decodeRx w) s = .next { u with
        dec := { u.dec with trail := w }, ctl := .idle
        portLog := u.portLog ++ [({ header := 0xB000#16, payload := [] }, .ok (.objects s.dec.objs))] })

/-! ### The transmitted frames -/

/-- R71, R130: with a byte queued, the exchange of a phase that awaits a word is TX_DATA with the oldest byte, which leaves the queue;
it is the step in which the environment's next word arrives. -/
def Obligations.TxDataSendsTheOldestByte : Prop :=
  ∀ (s : State) (op : BusyOp) (ph : Phase), s.Inv → s.awaitsWord op ph → 0 < s.q.count →
    ∃ d t, s.queued = d :: t.queued ∧ exec (.txData d) s = .next t ∧
      exec (.txData d) s = exec (decodeRx (drawWord s).1) (drawWord s).2 ∧
      t.wire = s.wire ++
        [{ n := 2, tx := [0x5B#8, d], rx := [(drawWord s).1.extractLsb' 8 8, (drawWord s).1.extractLsb' 0 8] }] ∧
      t.q.buf = s.q.buf ∧ t.q.tail = s.q.tail

/-- R71, R130: with the queue empty, the exchange is TX_IDLE and the queue stays as it is. -/
def Obligations.TxIdleSendsTheIdlePair : Prop :=
  ∀ (s : State) (op : BusyOp) (ph : Phase), s.awaitsWord op ph → s.q.count = 0 →
    ∃ t, exec .txIdle s = .next t ∧ exec .txIdle s = exec (decodeRx (drawWord s).1) (drawWord s).2 ∧ t.q = s.q ∧
      t.wire = s.wire ++
        [{ n := 2, tx := [0x5A#8, 0x00#8], rx := [(drawWord s).1.extractLsb' 8 8, (drawWord s).1.extractLsb' 0 8] }]

/-- R132, R179: in phase SK_R the exchange is TX_RESYNC; the received byte is discarded, the queue is not drained, and the seek goes
on. -/
def Obligations.TxResyncShiftsByOneByte : Prop :=
  ∀ (s : State) (op : BusyOp), s.ctl = .busy op .skR →
    exec .txResync s = .next { (drawByte s).2 with
      ch := { s.ch with tx0 := 0x5A#8, rx0 := (drawByte s).1 }
      wire := s.wire ++ [{ n := 1, tx := [0x5A#8], rx := [(drawByte s).1] }]
      ctl := .busy op .skX }

/-- The model's choice (log 14): the block makes no exchange that is not due, so a frame or a word given where none is due changes
nothing. -/
def Obligations.ExchangesNotDueChangeNothing : Prop :=
  ∀ (s : State) (d : Byte) (w : Word),
    (portReady s = true →
      exec (.txData d) s = .next s ∧ exec .txIdle s = .next s ∧ exec .txResync s = .next s ∧ exec (decodeRx w) s = .next s) ∧
    (∀ op, s.ctl = .busy op .skR →
      exec (.txData d) s = .next s ∧ exec .txIdle s = .next s ∧ exec (decodeRx w) s = .next s) ∧
    (∀ op ph, s.awaitsWord op ph → exec .txResync s = .next s ∧ (0 < s.q.count → exec .txIdle s = .next s) ∧
      (s.q.count = 0 ∨ d ≠ Memory.read s.q.buf s.q.head → exec (.txData d) s = .next s))

/-- What a received word leaves alone: the configuration, the fault, the reset input, the host's side and the environment's, every
byte of the storage and the tail always; the Frame Context but at seek, checksum and trailing position; the synchronizer's registers
but at seek position; the decoder's registers but at its own positions. -/
def Obligations.ReceivedWordFrame : Prop :=
  ∀ (s t : State) (op : BusyOp) (ph : Phase) (w : Word), s.Inv → s.awaitsWord op ph → exec (decodeRx w) s = .next t →
    t.cfg = s.cfg ∧ t.fault = s.fault ∧ t.rst = s.rst ∧ t.host = s.host ∧ t.rxIn = s.rxIn ∧ t.drawn = s.drawn ∧
    t.hostErrors = s.hostErrors ∧ t.q.tail = s.q.tail ∧
    (∀ a, Memory.read t.q.buf a = Memory.read s.q.buf a) ∧
    (ph ∉ [.skX, .dChk, .dTrail] → t.ctx = s.ctx) ∧ (ph ≠ .dChk → t.ctx.skip = s.ctx.skip) ∧
    (ph ≠ .skX → t.sync = s.sync) ∧ (ph = .skX → t.dec = s.dec)

/-! ### The whole machine -/

/-- Every step keeps the invariant, from every state that meets it. -/
def Obligations.EveryStepKeepsTheInvariant : Prop :=
  ∀ s t : State, s.Inv → step s = .next t → t.Inv

/-- From every state that meets the invariant a step answers a next state: no run from reset ends in a fault or a refusal of the
model. -/
def Obligations.NoStepStops : Prop :=
  ∀ s : State, s.Inv → ∃ t, step s = .next t

/-- R60, R62, R134: a step makes at most one exchange; a 2-byte one sends 0x5B and the oldest queued byte, which leaves the queue,
exactly when there is one, and the idle pair otherwise; a 1-byte one sends 0x5A and drains nothing. -/
def Obligations.EveryExchangeFollowsTheArbiter : Prop :=
  ∀ s t : State, s.Inv → step s = .next t →
    t.wire = s.wire ∨
    ∃ e, t.wire = s.wire ++ [e] ∧ e.rx.length = e.n ∧
      ((e.n = 2 ∧ s.queued = [] ∧ e.tx = [0x5A#8, 0x00#8] ∧ t.queued = []) ∨
       (e.n = 2 ∧ ∃ d, s.queued = d :: t.queued ∧ e.tx = [0x5B#8, d]) ∨
       (e.n = 1 ∧ e.tx = [0x5A#8] ∧ t.queued = s.queued))

/-- R105, R107 for one step that is no reset: what leaves the queue (in a TX_DATA frame or as a DEQ's answer) leaves at the front, and
what enters is the whole of what the answered request offers, at the back. -/
def Obligations.EveryStepKeepsFifoOrder : Prop :=
  ∀ s t : State, s.Inv → s.rst = false → step s = .next t →
    ∃ evs answers accepted, t.wire = s.wire ++ evs ∧ t.portLog = s.portLog ++ answers ∧
      s.queued ++ accepted = evs.flatMap Exchange.sentByte ++ answers.flatMap dequeuedByte ++ t.queued ∧
      (accepted = [] ∨ ∃ r a, answers = [(r, .ok a)] ∧ a ≠ .bit false ∧ accepted = r.offered)

/-- R28: only a DEQ of an empty queue records a fault, only a reset clears it, and none is recorded after reset. -/
def Obligations.OnlyAnEmptyDeqFaults : Prop :=
  State.reset.fault = .none ∧
  ∀ s t : State, s.Inv → step s = .next t →
    (s.fault = .none → t.fault ≠ .none →
      s.q.count = 0 ∧ s.host = .beat 0x2000#16 :: t.host ∧ t.fault = .underflow ∧ t.ctl = .halt) ∧
    (s.fault ≠ .none → t.fault = .none → s.rst = true)

/-- R26, R27: in a step that is no reset the skip flag is set only by a start marker at checksum position and cleared only by the
acceptance of a POLL; the block type changes only at seek, checksum and trailing position. -/
def Obligations.FrameContextChangesOnlyInSeekOrPoll : Prop :=
  ∀ s t : State, s.Inv → s.rst = false → step s = .next t →
    (t.ctx.skip = true → s.ctx.skip = false →
      s.ctl = .busy .poll .dChk ∧ t.ctl = .idle ∧ ((drawWord s).1 = 0xAA55#16 ∨ (drawWord s).1 = 0xAA56#16)) ∧
    (t.ctx.skip = false → s.ctx.skip = true →
      portReady s = true ∧ s.host = .beat 0xB000#16 :: t.host ∧ t.ctl = .busy .poll .dChk) ∧
    (t.ctx.bt ≠ s.ctx.bt → ∃ op ph, s.ctl = .busy op ph ∧ ph ∈ [.skX, .dChk, .dTrail])

/-- R79, R80: each step gives at most one response. At a ready port a request, legal or illegal, whose beats are all there is accepted:
it is answered in that step, and exactly once, or, being a SEEK or a POLL that runs, makes the controller BUSY. A BUSY controller
responds to its own request, in the step that returns it to IDLE and in no other, and consumes nothing of what the host has lined
up. (In HALT the number of beats taken is log 19, the model's choice.) -/
def Obligations.EveryRequestGetsOneResponse : Prop :=
  ∀ s t : State, s.Inv → s.rst = false → step s = .next t →
    (t.portLog = s.portLog ∨ ∃ p, t.portLog = s.portLog ++ [p]) ∧
    (∀ (h : Beat) (p : List Byte) (rest : List HostItem), portReady s = true →
      p.length =
        (if h.toNat / 256 % 16 = 0 ∧ (h.toNat / 4096 = 0x3 ∨ h.toNat / 4096 = 0x9) then h.toNat % 256 else 0) →
      s.host = .beat h :: p.map (fun b => HostItem.beat (0x00#8 ++ b)) ++ rest →
      t.host = rest ∧
      if s.fault = .none ∧ (h = 0xA000#16 ∨ h = 0xB000#16) then
        t.portLog = s.portLog ∧ ∃ ph, t.ctl = .busy (if h = 0xA000#16 then .seek else .poll) ph
      else
        portReady t = true ∧ ∃ a, t.portLog = s.portLog ++ [({ header := h, payload := p }, a)]) ∧
    (∀ op ph, s.ctl = .busy op ph → t.host = s.host ∧
      ((∃ v, t.ctl = .idle ∧ t.portLog = s.portLog ++
        [({ header := match op with | .seek => 0xA000#16 | .poll => 0xB000#16, payload := [] }, .ok v)]) ∨
       (∃ ph', t.ctl = .busy op ph' ∧ t.portLog = s.portLog)))

/-- R170: the validator's sum needs 19 bits, is reduced modulo 65536 and compared with the checksum; the same bits as adding the six
words with wrap-around. -/
def Obligations.ChecksumIsTheFieldSumModulo65536 : Prop :=
  ∀ (c : Config) (chk : Word) (o : DetectedObject), c.AsGiven →
    fieldSum o ≤ 393210 ∧
    (checksumValid c.checksumModulus chk o = true ↔
      (o.signature.toNat + o.x.toNat + o.y.toNat + o.width.toNat + o.height.toNat + o.angle.toNat) % 65536 = chk.toNat) ∧
    (checksumValid c.checksumModulus chk o = true ↔ o.signature + o.x + o.y + o.width + o.height + o.angle = chk)

/-- R33, R80: the 96 bits of a detected object; the status codes; the width in bits of the value of every OK response given, by its
request's operation, where a count has the least width that holds 0 to CAPACITY; and a POLL's frame, the length
of its list as the count, then exactly that many records, each object's 96 bits in the list's order. -/
def Obligations.ResponsesAreEncodedAsTheSpecSays : Prop :=
  (∀ o : DetectedObject,
    o.pack.extractLsb' 80 16 = o.signature ∧ o.pack.extractLsb' 64 16 = o.x ∧ o.pack.extractLsb' 48 16 = o.y ∧
    o.pack.extractLsb' 32 16 = o.width ∧ o.pack.extractLsb' 16 16 = o.height ∧ o.pack.extractLsb' 0 16 = o.angle) ∧
  (∀ v, (Response.ok v).status = 0#2) ∧ Response.illegal.status = 1#2 ∧ Response.fault.status = 2#2 ∧
  (∀ r : Response, r.status ≠ 3#2) ∧
  (∀ (s : State) (r : Request) (v : Value), s.Inv → (r, Response.ok v) ∈ s.portLog →
    (r.header.toNat / 4096 ∈ [0x1, 0x3, 0x6, 0xA] → v.width s.cfg = some 1) ∧
    (r.header.toNat / 4096 = 0x2 → v.width s.cfg = some 8) ∧
    (r.header.toNat / 4096 ∈ [0x4, 0x5] → ∃ n k, v = .count n ∧ v.width s.cfg = some k ∧ n < 2 ^ k ∧
      ∀ m, s.cfg.capacity + 1 ≤ 2 ^ m ↔ k ≤ m) ∧
    (r.header.toNat / 4096 = 0x7 → v.width s.cfg = some 16) ∧
    (r.header.toNat / 4096 ∈ [0x8, 0x9] → v.width s.cfg = some 0) ∧
    (r.header.toNat / 4096 = 0xB → ∃ os, v = .objects os ∧ v.width s.cfg = none)) ∧
  (∀ os : List DetectedObject, (pollFrame os).1 = os.length ∧ (pollFrame os).2.length = (pollFrame os).1 ∧
    ∀ (k : Nat) (o : DetectedObject), os[k]? = some o → (pollFrame os).2[k]? = some o.pack)

/-! ### Refinement: the stepped controller runs the spec's algorithms -/

/-- R151, R152, R157, R158: from an accepted SEEK on, the steps receive the bytes that Seek() reads and no more, end in IDLE with the
answer of Seek(), set the block type only on DATA and leave the skip flag. -/
def Obligations.SeekRunsItsAlgorithm : Prop :=
  ∀ (s : State) (hs : List HostItem) (r : Option BlockType) (rest : List Byte),
    s.Inv → s.ready → s.rst = false → s.host = .beat 0xA000#16 :: hs → seekBytes 0xFFFF#16 s.rxIn = some (r, rest) →
    ∃ k t evs, core.run k s = .next t ∧ t.ctl = .idle ∧ t.host = hs ∧ t.fault = .none ∧ t.rxIn = rest ∧
      t.ctx = { s.ctx with bt := r.getD s.ctx.bt } ∧
      t.portLog = s.portLog ++ [({ header := 0xA000#16, payload := [] }, .ok (.bit r.isSome))] ∧
      t.wire = s.wire ++ evs ∧ s.rxIn = evs.flatMap Exchange.rx ++ rest ∧ k = evs.length + 1 ∧
      s.queued = evs.flatMap Exchange.sentByte ++ t.queued

/-- R171, R172, R178: from an accepted POLL on, the steps receive the bytes that Decode() reads and no more, and end in IDLE with the
objects and the Frame Context of Decode(). -/
def Obligations.PollRunsItsAlgorithm : Prop :=
  ∀ (s : State) (hs : List HostItem) (n : Nat) (objs : List DetectedObject) (ctx : FrameCtx) (rest : List Byte),
    s.Inv → s.ready → s.rst = false → s.host = .beat 0xB000#16 :: hs → decodeBytes n s.ctx s.rxIn = some (objs, ctx, rest) →
    ∃ k t evs, core.run k s = .next t ∧ t.ctl = .idle ∧ t.host = hs ∧ t.fault = .none ∧ t.rxIn = rest ∧ t.ctx = ctx ∧
      t.portLog = s.portLog ++ [({ header := 0xB000#16, payload := [] }, .ok (.objects objs))] ∧
      t.wire = s.wire ++ evs ∧ s.rxIn = evs.flatMap Exchange.rx ++ rest ∧ k = evs.length + 1 ∧
      s.queued = evs.flatMap Exchange.sentByte ++ t.queued

/-- R157: a seek that ends after the words w_1 to w_k made k 2-byte exchanges, in that order, and one 1-byte exchange directly after
each w_i that is 0x55AA; k is at least 2 and the last word is never 0x55AA. -/
def Obligations.SeekExchangesAreAccounted : Prop :=
  ∀ (s : State) (op : BusyOp) (r : Option BlockType) (rest : List Byte),
    s.Inv → s.rst = false → s.ctl = .busy op .skX → s.sync.prev = 0xFFFF#16 → seekBytes 0xFFFF#16 s.rxIn = some (r, rest) →
    ∃ (t : State) (evs : List Exchange) (ws : List Word),
      core.run evs.length s = .next t ∧ t.wire = s.wire ++ evs ∧ t.rxIn = rest ∧
      t.ctl = (match op, r with | .poll, some _ => .busy .poll .dChk | _, _ => .idle) ∧
      2 ≤ ws.length ∧ ws.getLast? ≠ some 0x55AA#16 ∧
      evs.map Exchange.n = ws.flatMap (fun w => if w = 0x55AA#16 then [2, 1] else [2]) ∧
      (evs.filter (fun e => e.n == 2)).map Exchange.rx = ws.map wordBytes

/-- R185: a POLL entered with the skip flag clear on a stream with a frame start, then deliverable records (R74) each followed by a
start marker, then a start marker at checksum position, answers exactly the records whose checksums are valid, in order, and leaves
the skip flag set. -/
def Obligations.PollDeliversTheValidRecordsOfAFrame : Prop :=
  ∀ (s : State) (hs : List HostItem) (first last : BlockType) (rs : List (WireRecord × BlockType)) (rest : List Byte),
    s.Inv → s.ready → s.rst = false → s.ctx.skip = false → s.host = .beat 0xB000#16 :: hs →
    (∀ p ∈ rs, p.1.deliverable) →
    seekBytes 0xFFFF#16 s.rxIn = some (some first, (recordWords first rs ++ [markerOf last]).flatMap wordBytes ++ rest) →
    ∃ k t, core.run k s = .next t ∧ t.ctl = .idle ∧ t.host = hs ∧ t.rxIn = rest ∧ t.ctx = { bt := last, skip := true } ∧
      t.portLog = s.portLog ++ [({ header := 0xB000#16, payload := [] }, .ok (.objects (validObjects first rs)))]

/-- R184: with the skip flag clear and every word received 0x0000, any number of POLLs in a row each answer the empty list after
exactly two exchanges and leave the Frame Context as it was; with the skip flag set the first such POLL clears it after one. -/
def Obligations.NoDataPollsAreIdempotent : Prop :=
  ∀ (s : State) (m : Nat) (hs : List HostItem) (rest : List Byte), s.Inv → s.ready → s.rst = false →
    (s.ctx.skip = false →
      s.host = List.replicate m (.beat 0xB000#16) ++ hs → s.rxIn = List.replicate (4 * m) 0x00#8 ++ rest →
      ∃ t evs, core.run (3 * m) s = .next t ∧ t.ctl = s.ctl ∧ t.host = hs ∧ t.rxIn = rest ∧ t.ctx = s.ctx ∧
        t.portLog = s.portLog ++ List.replicate m ({ header := 0xB000#16, payload := [] }, .ok (.objects [])) ∧
        t.wire = s.wire ++ evs ∧ evs.length = 2 * m ∧ ∀ e ∈ evs, e.n = 2) ∧
    (s.ctx.skip = true → s.host = .beat 0xB000#16 :: hs → s.rxIn = 0x00#8 :: 0x00#8 :: rest →
      ∃ t e, core.run 2 s = .next t ∧ t.ctl = .idle ∧ t.host = hs ∧ t.rxIn = rest ∧ t.ctx = { s.ctx with skip := false } ∧
        t.portLog = s.portLog ++ [({ header := 0xB000#16, payload := [] }, .ok (.objects []))] ∧
        t.wire = s.wire ++ [e] ∧ e.n = 2)
end

