-- ==== Sys2Proof/Laws/Config.lean ====
section
/-! SUPPORT. The fixed rows of the parameter table, read off a configuration that has them as given, and what follows for the widths
and the exchanges. -/

namespace Sys2Proof.Laws

open Sys2Proof Sys2Proof.Machine

variable {c : Config}

theorem standard_asGiven : Config.standard.AsGiven := rfl

/-! ### The fixed rows (spec/00_scope.md R4) -/

theorem byteWidth_eq (h : c.AsGiven) : c.byteWidth = 8 := congrArg Config.byteWidth h
theorem wordWidth_eq (h : c.AsGiven) : c.wordWidth = 16 := congrArg Config.wordWidth h
theorem exchangeLengths_eq (h : c.AsGiven) : c.exchangeLengths = [1, 2] := congrArg Config.exchangeLengths h
theorem scratchTx_eq (h : c.AsGiven) : c.scratchTx = 2 := congrArg Config.scratchTx h
theorem scratchRx_eq (h : c.AsGiven) : c.scratchRx = 2 := congrArg Config.scratchRx h
theorem checksumModulus_eq (h : c.AsGiven) : c.checksumModulus = 65536 := congrArg Config.checksumModulus h
theorem objectLimit_eq (h : c.AsGiven) : c.objectLimit = none := congrArg Config.objectLimit h
theorem loopBound_eq (h : c.AsGiven) : c.loopBound = none := congrArg Config.loopBound h
theorem maxPayload_eq (h : c.AsGiven) : c.maxPayload = 255 := congrArg Config.maxPayload h

/-! ### What follows from them -/

/-- The types of the model have the widths the parameters name. -/
theorem widths_are_types (h : c.AsGiven) : Byte = BitVec c.byteWidth ∧ Word = BitVec c.wordWidth := by
  rw [byteWidth_eq h, wordWidth_eq h]; exact ⟨rfl, rfl⟩

/-- Every configuration differs from the standard one in CAPACITY and TRANSPORT_PHY at most. -/
theorem asGiven_mk (n : Nat) (phy : Option TransportPhy) : ({ capacity := n, transportPhy := phy } : Config).AsGiven := rfl

/-- The width of a count: the least one that holds the integers 0 to n-1 (spec/10_state.md R22, R24). -/
theorem bitsFor_le_iff {n k : Nat} : bitsFor n ≤ k ↔ n ≤ 2 ^ k := by
  unfold bitsFor
  split
  · have := Nat.one_le_two_pow (n := k); omega
  · have h := Nat.log2_lt (n := n - 1) (k := k) (by omega); omega

/-- The events of the two exchanges are legal. -/
theorem legal_word (h : c.AsGiven) {t0 t1 r0 r1 : Byte}
    (ht : t0 = Config.dataSyncByte ∨ t0 = Config.idleSyncByte ∧ t1 = 0#8) :
    Exchange.legal c { n := Config.wordExchange, tx := [t0, t1], rx := [r0, r1] } = true := by
  rw [h]
  rcases ht with rfl | ⟨rfl, rfl⟩ <;> rfl

theorem legal_resync (h : c.AsGiven) (r0 : Byte) :
    Exchange.legal c { n := Config.resyncExchange, tx := [Config.idleSyncByte], rx := [r0] } = true := by
  rw [h]; rfl

end Sys2Proof.Laws
end

