-- ==== Sys2Proof/Laws/Encoding.lean ====
section
/-! SUPPORT. Fields of headers, beats and words taken apart and put together (spec/30_encoding.md R72, R75). -/

namespace Sys2Proof.Laws

open Sys2Proof.Machine

@[simp] theorem opField_headerOf (op : BitVec 4) (imm : Byte) : opField (headerOf op imm) = op := by
  apply BitVec.eq_of_getLsbD_eq
  intro i hi
  simp only [opField, headerOf, BitVec.getLsbD_extractLsb', BitVec.getLsbD_append, hi,
    show ¬ (12 + i < 8) by omega, show ¬ (12 + i - 8 < 4) by omega, show 12 + i - 8 - 4 = i by omega,
    decide_true, Bool.true_and, if_false]

@[simp] theorem rsvField_headerOf (op : BitVec 4) (imm : Byte) : rsvField (headerOf op imm) = 0#4 := by
  apply BitVec.eq_of_getLsbD_eq
  intro i hi
  simp only [rsvField, headerOf, BitVec.getLsbD_extractLsb', BitVec.getLsbD_append, hi,
    show ¬ (8 + i < 8) by omega, show 8 + i - 8 < 4 by omega, decide_true, Bool.true_and, if_false, if_true]
  simp

@[simp] theorem immField_headerOf (op : BitVec 4) (imm : Byte) : immField (headerOf op imm) = imm := by
  apply BitVec.eq_of_getLsbD_eq
  intro i hi
  simp only [immField, headerOf, BitVec.getLsbD_extractLsb', BitVec.getLsbD_append, Nat.zero_add, hi, decide_true,
    Bool.true_and, if_true]

@[simp] theorem opField_reservedHeader (op : BitVec 4) (r : BitVec 12) : opField (reservedHeader op r) = op := by
  apply BitVec.eq_of_getLsbD_eq
  intro i hi
  simp only [opField, reservedHeader, BitVec.getLsbD_extractLsb', BitVec.getLsbD_append, hi,
    show ¬ (12 + i < 12) by omega, show 12 + i - 12 = i by omega, decide_true, Bool.true_and, if_false]

@[simp] theorem restField_reservedHeader (op : BitVec 4) (r : BitVec 12) : restField (reservedHeader op r) = r := by
  apply BitVec.eq_of_getLsbD_eq
  intro i hi
  simp only [restField, reservedHeader, BitVec.getLsbD_extractLsb', BitVec.getLsbD_append, Nat.zero_add, hi, decide_true,
    Bool.true_and, if_true]

@[simp] theorem payloadByte_payloadBeat (b : Byte) : payloadByte (payloadBeat b) = b := by
  apply BitVec.eq_of_getLsbD_eq
  intro i hi
  simp only [payloadByte, payloadBeat, BitVec.getLsbD_extractLsb', BitVec.getLsbD_append, Nat.zero_add, hi, decide_true,
    Bool.true_and, if_true]

@[simp] theorem wordOfBytes_hi_lo (w : Word) : wordOfBytes (hiByte w) (loByte w) = w := by
  apply BitVec.eq_of_getLsbD_eq
  intro i hi
  simp only [wordOfBytes, hiByte, loByte, BitVec.getLsbD_extractLsb', BitVec.getLsbD_append]
  by_cases h : i < 8
  · simp [h]
  · simp [h, show i - 8 < 8 by omega, show 8 + (i - 8) = i by omega]

@[simp] theorem hiByte_wordOfBytes (a b : Byte) : hiByte (wordOfBytes a b) = a := by
  apply BitVec.eq_of_getLsbD_eq
  intro i hi
  simp only [hiByte, wordOfBytes, BitVec.getLsbD_extractLsb', BitVec.getLsbD_append, hi,
    show ¬ (8 + i < 8) by omega, show 8 + i - 8 = i by omega, decide_true, Bool.true_and, if_false]

@[simp] theorem loByte_wordOfBytes (a b : Byte) : loByte (wordOfBytes a b) = b := by
  apply BitVec.eq_of_getLsbD_eq
  intro i hi
  simp only [loByte, wordOfBytes, BitVec.getLsbD_extractLsb', BitVec.getLsbD_append, Nat.zero_add, hi, decide_true,
    Bool.true_and, if_true]

/-- A header with no reserved bit set is made of its operation and its low byte. -/
theorem header_eta (h : Beat) (hr : rsvField h = 0#4) : headerOf (opField h) (immField h) = h := by
  apply BitVec.eq_of_getLsbD_eq
  intro i hi
  have hr' : ∀ j < 4, h.getLsbD (8 + j) = false := by
    intro j hj
    have := congrArg (·.getLsbD j) hr
    simpa [rsvField, BitVec.getLsbD_extractLsb', hj] using this
  simp only [opField, headerOf, immField, BitVec.getLsbD_extractLsb', BitVec.getLsbD_append, Nat.zero_add]
  by_cases h1 : i < 8
  · simp [h1]
  · by_cases h2 : i - 8 < 4
    · have := hr' (i - 8) h2
      rw [show 8 + (i - 8) = i by omega] at this
      simp [h1, h2, this]
    · simp [h1, h2, show i - 8 - 4 < 4 by omega, show 12 + (i - 8 - 4) = i by omega]

/-- A header is made of its operation and the bits below. -/
theorem reservedHeader_eta (h : Beat) : reservedHeader (opField h) (restField h) = h := by
  apply BitVec.eq_of_getLsbD_eq
  intro i hi
  simp only [opField, reservedHeader, restField, BitVec.getLsbD_extractLsb', BitVec.getLsbD_append, Nat.zero_add]
  by_cases h1 : i < 12
  · simp [h1]
  · simp [h1, show i - 12 < 4 by omega, show 12 + (i - 12) = i by omega]

/-- The length byte of a payload that a header can express. -/
theorem lengthByte_toNat {p : List Byte} (h : p.length ≤ Config.standard.maxPayload) : (lengthByte p).toNat = p.length := by
  simp only [lengthByte, BitVec.toNat_ofNat]
  exact Nat.mod_eq_of_lt (by simp only [Config.standard] at h; omega)

@[simp] theorem map_payloadByte_payloadBeat (p : List Byte) : (p.map payloadBeat).map payloadByte = p := by
  simp [Function.comp_def]

/-! ### The header's fields as numbers -/

theorem opField_toNat (h : Beat) : (opField h).toNat = h.toNat / 4096 := by
  have := h.isLt
  simp only [opField, BitVec.extractLsb'_toNat, Nat.shiftRight_eq_div_pow]
  omega

theorem rsvField_toNat (h : Beat) : (rsvField h).toNat = h.toNat / 256 % 16 := by
  simp only [rsvField, BitVec.extractLsb'_toNat, Nat.shiftRight_eq_div_pow]

theorem immField_toNat (h : Beat) : (immField h).toNat = h.toNat % 256 := by
  simp [immField, BitVec.extractLsb'_toNat]

theorem rsvField_eq_zero {h : Beat} : rsvField h = 0#4 ↔ h.toNat / 256 % 16 = 0 := by
  rw [← BitVec.toNat_inj, rsvField_toNat]; rfl

theorem immField_eq_zero {h : Beat} : immField h = 0#8 ↔ h.toNat % 256 = 0 := by
  rw [← BitVec.toNat_inj, immField_toNat]; rfl

/-- The request's length as a number of the header (R78). -/
theorem requestLength_eq (h : Beat) :
    requestLength h =
      if h.toNat / 256 % 16 = 0 ∧ (h.toNat / 4096 = 0x3 ∨ h.toNat / 4096 = 0x9) then 1 + h.toNat % 256 else 1 := by
  have h3 : opField h = 3#4 ↔ h.toNat / 4096 = 3 := by rw [← BitVec.toNat_inj, opField_toNat]; rfl
  have h9 : opField h = 9#4 ↔ h.toNat / 4096 = 9 := by rw [← BitVec.toNat_inj, opField_toNat]; rfl
  simp only [requestLength, rsvField_eq_zero, h3, h9, immField_toNat]

theorem requestLength_headerOf (op : BitVec 4) (imm : Byte) :
    requestLength (headerOf op imm) = if op = 3#4 ∨ op = 9#4 then 1 + imm.toNat else 1 := by
  simp [requestLength]

theorem length_payloadRequest (op : BitVec 4) (p : List Byte) : (payloadRequest op p).length = 1 + p.length := by
  simp [payloadRequest, Nat.add_comm]

/-! ### The host's arguments -/

theorem servoInRange_iff {a b : Int} : servoInRange a b = true ↔ 0 ≤ a ∧ a ≤ 1000 ∧ 0 ≤ b ∧ b ≤ 1000 := by
  simp [servoInRange, inRange, and_assoc]

theorem exposureInRange_iff {a : Int} : exposureInRange a = true ↔ 0 ≤ a ∧ a ≤ 255 := by
  simp [exposureInRange, inRange]

theorem ledInRange_iff {a b c : Int} :
    ledInRange a b c = true ↔ 0 ≤ a ∧ a ≤ 255 ∧ 0 ≤ b ∧ b ≤ 255 ∧ 0 ≤ c ∧ c ≤ 255 := by
  simp [ledInRange, inRange, and_assoc]

/-- The byte of an integer found non-negative, as its residue. -/
theorem ofInt_eq_ofNat {v : Int} (h0 : 0 ≤ v) : BitVec.ofInt 8 v = BitVec.ofNat 8 v.toNat := by
  obtain ⟨n, rfl⟩ := Int.eq_ofNat_of_zero_le h0
  simp

theorem lo8_eq {v : Int} (h0 : 0 ≤ v) : lo8 v = BitVec.ofInt 8 (v % 256) := by
  obtain ⟨n, rfl⟩ := Int.eq_ofNat_of_zero_le h0
  rw [ofInt_eq_ofNat (by omega), lo8]; rfl

theorem hi8_eq {v : Int} (h0 : 0 ≤ v) : hi8 v = BitVec.ofInt 8 (v / 256) := by
  obtain ⟨n, rfl⟩ := Int.eq_ofNat_of_zero_le h0
  rw [ofInt_eq_ofNat (by omega), hi8]; rfl

theorem lo8_eq_self {v : Int} (h0 : 0 ≤ v) (h1 : v ≤ 255) : lo8 v = BitVec.ofInt 8 v := by
  rw [lo8_eq h0, Int.emod_eq_of_lt h0 (by omega)]

end Sys2Proof.Laws
end

