-- ==== Sys2Proof/Laws/Memory.lean ====
section
/-! SUPPORT. The ring storage: read after write, every other byte kept, and the canonical form kept by every operation. -/

namespace Sys2Proof.Laws

open Sys2Proof.Machine

theorem wfFrom_mono {m : Memory} {lo lo' : Nat} (hlo : lo ≤ lo') (h : Memory.wfFrom lo' m = true) :
    Memory.wfFrom lo m = true := by
  cases m with
  | nil => rfl
  | cons c m =>
    simp only [Memory.wfFrom, Bool.and_eq_true, decide_eq_true_eq] at h ⊢
    exact ⟨⟨by omega, h.1.2⟩, h.2⟩

/-- An index below every listed one reads as an unlisted index does. -/
theorem read_below {m : Memory} {lo i : Nat} (h : Memory.wfFrom lo m = true) (hi : i < lo) : Memory.read m i = 0#8 := by
  induction m generalizing lo with
  | nil => rfl
  | cons c m ih =>
    simp only [Memory.wfFrom, Bool.and_eq_true, decide_eq_true_eq] at h
    have hne : c.1 ≠ i := by omega
    simp only [Memory.read, hne, if_false]
    exact ih h.2 (by omega)

theorem write_wfFrom {m : Memory} {lo i : Nat} (v : Byte) (h : Memory.wfFrom lo m = true) (hi : lo ≤ i) :
    Memory.wfFrom lo (Memory.write m i v) = true := by
  induction m generalizing lo with
  | nil =>
    simp only [Memory.write]
    split
    · rfl
    · simp only [Memory.wfFrom, Bool.and_eq_true, decide_eq_true_eq, bne_iff_ne, ne_eq]
      exact ⟨⟨hi, ‹_›⟩, trivial⟩
  | cons c m ih =>
    obtain ⟨a, b⟩ := c
    simp only [Memory.wfFrom, Bool.and_eq_true, decide_eq_true_eq, bne_iff_ne, ne_eq] at h
    obtain ⟨⟨ha, hb⟩, hm⟩ := h
    simp only [Memory.write]
    split
    · split
      · simp only [Memory.wfFrom, Bool.and_eq_true, decide_eq_true_eq, bne_iff_ne, ne_eq]
        exact ⟨⟨ha, hb⟩, hm⟩
      · simp only [Memory.wfFrom, Bool.and_eq_true, decide_eq_true_eq, bne_iff_ne, ne_eq]
        exact ⟨⟨hi, ‹_›⟩, ⟨by omega, hb⟩, hm⟩
    · split
      · subst_vars
        split
        · exact wfFrom_mono (by omega) hm
        · simp only [Memory.wfFrom, Bool.and_eq_true, decide_eq_true_eq, bne_iff_ne, ne_eq]
          exact ⟨⟨hi, ‹_›⟩, hm⟩
      · simp only [Memory.wfFrom, Bool.and_eq_true, decide_eq_true_eq, bne_iff_ne, ne_eq]
        exact ⟨⟨ha, hb⟩, ih hm (by omega)⟩

/-- A write keeps the canonical form. -/
theorem write_wf {m : Memory} (i : Nat) (v : Byte) (h : Memory.wf m = true) : Memory.wf (Memory.write m i v) = true :=
  write_wfFrom v h (Nat.zero_le i)

/-- A byte just written reads back. -/
theorem read_write_same {m : Memory} {lo : Nat} (i : Nat) (v : Byte) (h : Memory.wfFrom lo m = true) :
    Memory.read (Memory.write m i v) i = v := by
  induction m generalizing lo with
  | nil =>
    simp only [Memory.write]
    split <;> simp_all [Memory.read]
  | cons c m ih =>
    obtain ⟨a, b⟩ := c
    simp only [Memory.wfFrom, Bool.and_eq_true, decide_eq_true_eq] at h
    simp only [Memory.write]
    split
    · have hne : a ≠ i := by omega
      split
      · simp only [Memory.read, hne, if_false]
        exact (read_below h.2 (by omega)).trans (Eq.symm ‹_›)
      · simp [Memory.read]
    · split
      · split
        · subst_vars; exact read_below h.2 (by omega)
        · simp [Memory.read]
      · have hne : a ≠ i := by omega
        simp only [Memory.read, hne, if_false]
        exact ih h.2

/-- Every byte but the one written is kept. -/
theorem read_write_other (m : Memory) {i j : Nat} (v : Byte) (hij : j ≠ i) :
    Memory.read (Memory.write m i v) j = Memory.read m j := by
  have hij' : i ≠ j := Ne.symm hij
  induction m with
  | nil =>
    simp only [Memory.write]
    split <;> simp [Memory.read, hij']
  | cons c m ih =>
    obtain ⟨a, b⟩ := c
    simp only [Memory.write]
    split
    · split <;> simp [Memory.read, hij']
    · split
      · subst_vars
        split <;> simp [Memory.read, hij']
      · simp only [Memory.read, ih]

/-- A write inside the address space keeps every listed index inside. -/
theorem write_inside {m : Memory} {capacity i : Nat} (v : Byte) (hi : i < capacity)
    (h : m.all (fun c => decide (c.1 < capacity)) = true) :
    (Memory.write m i v).all (fun c => decide (c.1 < capacity)) = true := by
  induction m with
  | nil =>
    simp only [Memory.write]
    split <;> simp [hi]
  | cons c m ih =>
    obtain ⟨a, b⟩ := c
    simp only [List.all_cons, Bool.and_eq_true, decide_eq_true_eq] at h
    simp only [Memory.write]
    split
    · split <;> simp only [List.all_cons, h.1, h.2, hi, decide_true, Bool.and_self]
    · split
      · split <;> simp only [List.all_cons, h.2, hi, decide_true, Bool.and_self]
      · simp only [List.all_cons, Bool.and_eq_true, decide_eq_true_eq]
        exact ⟨h.1, ih h.2⟩

/-- The memory after reset is canonical. -/
theorem reset_memory_wf : Memory.wf State.reset.q.buf = true := rfl

end Sys2Proof.Laws
end

