-- ==== Sys2Proof/Laws/Queue.lean ====
section
/-! SUPPORT. The queue's procedures on its abstract value (spec/10_state.md R25, spec/40_fifo.md R101): what a push, a pop and a
whole-command enqueue do, and the indices they store to. -/

namespace Sys2Proof.Laws

open Sys2Proof.Machine

/-- A queue in range whose storage is canonical and inside the address space. -/
structure Good (capacity : Nat) (q : Queue) : Prop where
  inRange : q.InRange capacity
  wf : Memory.wf q.buf = true
  inside : q.buf.all (fun c => decide (c.1 < capacity)) = true

theorem Good.of_inv {s : State} (h : s.Inv) : Good s.cfg.capacity s.q := ⟨h.queue_inRange, h.memory_wf, h.memory_inside⟩

theorem Good.pos {capacity : Nat} {q : Queue} (h : Good capacity q) : 0 < capacity := by
  have := h.inRange.head_lt; omega

theorem good_reset {capacity : Nat} (h : 0 < capacity) : Good capacity Queue.reset :=
  ⟨⟨h, h, Nat.zero_le _, (Nat.zero_mod _).symm⟩, rfl, rfl⟩

/-- Two indices of a window no longer than the ring are different. -/
theorem ring_ne {capacity head j k : Nat} (hjk : j < k) (hk : k < capacity) :
    (head + j) % capacity ≠ (head + k) % capacity := by
  intro h
  have h2 : j ≡ k [MOD capacity] := Nat.ModEq.add_left_cancel' head h
  have h3 : j % capacity = k % capacity := h2
  rw [Nat.mod_eq_of_lt (by omega), Nat.mod_eq_of_lt hk] at h3
  omega

theorem length_bytes (capacity : Nat) (q : Queue) : (q.bytes capacity).length = q.count := by
  simp [Queue.bytes]

/-- What a push of one byte does. -/
theorem pushByte_ok {capacity : Nat} {q : Queue} (b : Byte) (ht : q.tail < capacity) :
    pushByte capacity b q =
      .ok { q with buf := Memory.write q.buf q.tail b, tail := (q.tail + 1) % capacity, count := q.count + 1 } := by
  simp [pushByte, ringWrite, ht, ringNext]

/-- A push onto a queue that is not full appends the byte. -/
theorem pushByte_spec {capacity : Nat} {q : Queue} (b : Byte) (hg : Good capacity q) (hc : q.count < capacity) :
    ∃ q', pushByte capacity b q = .ok q' ∧ Good capacity q' ∧ q'.bytes capacity = q.bytes capacity ++ [b] ∧
      q'.count = q.count + 1 ∧ q'.head = q.head ∧ q'.tail = (q.tail + 1) % capacity ∧
      q'.buf = Memory.write q.buf q.tail b := by
  obtain ⟨hr, hw, hi⟩ := hg
  refine ⟨_, pushByte_ok b hr.tail_lt, ⟨⟨hr.head_lt, ?_, ?_, ?_⟩, write_wf _ _ hw, write_inside _ hr.tail_lt hi⟩, ?_,
    rfl, rfl, rfl, rfl⟩
  · exact Nat.mod_lt _ (by omega)
  · exact hc
  · show (q.tail + 1) % capacity = (q.head + (q.count + 1)) % capacity
    rw [hr.tail_eq, Nat.mod_add_mod, Nat.add_assoc]
  · simp only [Queue.bytes, List.range_succ, List.map_append, List.map_cons, List.map_nil]
    congr 1
    · apply List.map_congr_left
      intro k hk
      refine read_write_other _ _ ?_
      rw [hr.tail_eq]
      exact ring_ne (List.mem_range.mp hk) hc
    · rw [← hr.tail_eq, read_write_same _ _ hw]

/-- What a pop does to a queue in range. -/
theorem popByte_ok {capacity : Nat} {q : Queue} (hh : q.head < capacity) :
    popByte capacity q =
      .ok (Memory.read q.buf q.head, { q with head := (q.head + 1) % capacity, count := q.count - 1 }) := by
  simp [popByte, ringRead, hh, ringNext]

/-- A pop of a non-empty queue takes the oldest byte and stores nothing. -/
theorem popByte_spec {capacity : Nat} {q : Queue} (hg : Good capacity q) (hc : 0 < q.count) :
    ∃ d q', popByte capacity q = .ok (d, q') ∧ Good capacity q' ∧ q.bytes capacity = d :: q'.bytes capacity ∧
      q'.count = q.count - 1 ∧ q'.buf = q.buf ∧ q'.tail = q.tail ∧ d = Memory.read q.buf q.head ∧
      q'.head = (q.head + 1) % capacity := by
  obtain ⟨hr, hw, hi⟩ := hg
  have hcap := hr.head_lt
  refine ⟨_, _, popByte_ok hr.head_lt, ⟨⟨Nat.mod_lt _ (by omega), hr.tail_lt, ?_, ?_⟩, hw, hi⟩, ?_, rfl, rfl, rfl, rfl, rfl⟩
  · have := hr.count_le
    show q.count - 1 ≤ capacity
    omega
  · show q.tail = ((q.head + 1) % capacity + (q.count - 1)) % capacity
    rw [hr.tail_eq, Nat.mod_add_mod, show q.head + 1 + (q.count - 1) = q.head + q.count by omega]
  · obtain ⟨n, hn⟩ : ∃ n, q.count = n + 1 := ⟨q.count - 1, by omega⟩
    simp only [Queue.bytes, hn, List.range_succ_eq_map, List.map_cons, List.map_map, Nat.add_sub_cancel, Nat.add_zero,
      Nat.mod_eq_of_lt hcap]
    congr 1
    apply List.map_congr_left
    intro k _
    simp only [Function.comp_apply, Nat.succ_eq_add_one, Nat.mod_add_mod]
    congr 2
    omega

/-- A payload that fits is pushed whole, in order, to the slots from the tail on, and every other byte is kept. -/
theorem pushBytes_spec {capacity : Nat} (bs : List Byte) {q : Queue} (hg : Good capacity q) (hc : q.count + bs.length ≤ capacity) :
    ∃ q', pushBytes capacity bs q = .ok q' ∧ Good capacity q' ∧ q'.bytes capacity = q.bytes capacity ++ bs ∧
      q'.count = q.count + bs.length ∧ q'.head = q.head ∧ q'.tail = (q.tail + bs.length) % capacity ∧
      ∀ a, (∀ k < bs.length, a ≠ (q.tail + k) % capacity) → Memory.read q'.buf a = Memory.read q.buf a := by
  induction bs generalizing q with
  | nil => exact ⟨q, rfl, hg, by simp, rfl, rfl, by simp [Nat.mod_eq_of_lt hg.inRange.tail_lt], fun _ _ => rfl⟩
  | cons b bs ih =>
    simp only [List.length_cons] at hc ⊢
    obtain ⟨q1, h1, hg1, hb1, hc1, hh1, ht1, hm1⟩ := pushByte_spec b hg (by omega)
    obtain ⟨q2, h2, hg2, hb2, hc2, hh2, ht2, hm2⟩ := ih hg1 (by omega)
    refine ⟨q2, by simp [pushBytes, h1, h2], hg2, by simp [hb2, hb1], by omega, by rw [hh2, hh1], ?_, ?_⟩
    · rw [ht2, ht1, Nat.mod_add_mod]
      congr 1
      omega
    · intro a ha
      rw [hm2 a, hm1, read_write_other]
      · have := ha 0 (by omega)
        rwa [Nat.add_zero, Nat.mod_eq_of_lt hg.inRange.tail_lt] at this
      · intro k hk
        rw [ht1, Nat.mod_add_mod, Nat.add_assoc, Nat.add_comm 1 k]
        exact ha (k + 1) (by omega)

/-- A whole-command enqueue that fits takes everything (spec/40_fifo.md R106, R107). -/
theorem enqueueAll_fits {capacity : Nat} (bs : List Byte) {q : Queue} (hg : Good capacity q)
    (hf : bs.length ≤ freeBytes capacity q) :
    ∃ q', enqueueAll capacity bs q = .ok (q', true) ∧ Good capacity q' ∧ q'.bytes capacity = q.bytes capacity ++ bs ∧
      q'.count = q.count + bs.length ∧ q'.head = q.head ∧ q'.tail = (q.tail + bs.length) % capacity ∧
      ∀ a, (∀ k < bs.length, a ≠ (q.tail + k) % capacity) → Memory.read q'.buf a = Memory.read q.buf a := by
  obtain ⟨q', h, hrest⟩ := pushBytes_spec bs hg (by
    have := hg.inRange.count_le
    simp only [freeBytes] at hf
    omega)
  exact ⟨q', by simp [enqueueAll, hf, h], hrest⟩

/-- A whole-command enqueue that does not fit takes nothing (spec/40_fifo.md R106, R107). -/
theorem enqueueAll_full {capacity : Nat} (bs : List Byte) {q : Queue} (hf : ¬ bs.length ≤ freeBytes capacity q) :
    enqueueAll capacity bs q = .ok (q, false) := by
  simp [enqueueAll, hf]

end Sys2Proof.Laws
end

