-- ==== Sys2Proof/Laws/State.lean ====
section
/-! SUPPORT. What each update of a state leaves in each field: one lemma per field per update, so that no proof unfolds an update. -/

namespace Sys2Proof.Laws

open Sys2Proof.Machine

section
variable (s : State) (v : Queue)

@[simp] theorem setQ_cfg : (s.setQ v).cfg = s.cfg := rfl
@[simp] theorem setQ_q : (s.setQ v).q = v := rfl
@[simp] theorem setQ_ctx : (s.setQ v).ctx = s.ctx := rfl
@[simp] theorem setQ_fault : (s.setQ v).fault = s.fault := rfl
@[simp] theorem setQ_ch : (s.setQ v).ch = s.ch := rfl
@[simp] theorem setQ_ctl : (s.setQ v).ctl = s.ctl := rfl
@[simp] theorem setQ_sync : (s.setQ v).sync = s.sync := rfl
@[simp] theorem setQ_dec : (s.setQ v).dec = s.dec := rfl
@[simp] theorem setQ_rst : (s.setQ v).rst = s.rst := rfl
@[simp] theorem setQ_host : (s.setQ v).host = s.host := rfl
@[simp] theorem setQ_rxIn : (s.setQ v).rxIn = s.rxIn := rfl
@[simp] theorem setQ_drawn : (s.setQ v).drawn = s.drawn := rfl
@[simp] theorem setQ_wire : (s.setQ v).wire = s.wire := rfl
@[simp] theorem setQ_portLog : (s.setQ v).portLog = s.portLog := rfl
@[simp] theorem setQ_hostErrors : (s.setQ v).hostErrors = s.hostErrors := rfl

end

section
variable (s : State) (v : FrameCtx)

@[simp] theorem setCtx_cfg : (s.setCtx v).cfg = s.cfg := rfl
@[simp] theorem setCtx_q : (s.setCtx v).q = s.q := rfl
@[simp] theorem setCtx_ctx : (s.setCtx v).ctx = v := rfl
@[simp] theorem setCtx_fault : (s.setCtx v).fault = s.fault := rfl
@[simp] theorem setCtx_ch : (s.setCtx v).ch = s.ch := rfl
@[simp] theorem setCtx_ctl : (s.setCtx v).ctl = s.ctl := rfl
@[simp] theorem setCtx_sync : (s.setCtx v).sync = s.sync := rfl
@[simp] theorem setCtx_dec : (s.setCtx v).dec = s.dec := rfl
@[simp] theorem setCtx_rst : (s.setCtx v).rst = s.rst := rfl
@[simp] theorem setCtx_host : (s.setCtx v).host = s.host := rfl
@[simp] theorem setCtx_rxIn : (s.setCtx v).rxIn = s.rxIn := rfl
@[simp] theorem setCtx_drawn : (s.setCtx v).drawn = s.drawn := rfl
@[simp] theorem setCtx_wire : (s.setCtx v).wire = s.wire := rfl
@[simp] theorem setCtx_portLog : (s.setCtx v).portLog = s.portLog := rfl
@[simp] theorem setCtx_hostErrors : (s.setCtx v).hostErrors = s.hostErrors := rfl

end

section
variable (s : State) (v : FaultCause)

@[simp] theorem setFault_cfg : (s.setFault v).cfg = s.cfg := rfl
@[simp] theorem setFault_q : (s.setFault v).q = s.q := rfl
@[simp] theorem setFault_ctx : (s.setFault v).ctx = s.ctx := rfl
@[simp] theorem setFault_fault : (s.setFault v).fault = v := rfl
@[simp] theorem setFault_ch : (s.setFault v).ch = s.ch := rfl
@[simp] theorem setFault_ctl : (s.setFault v).ctl = s.ctl := rfl
@[simp] theorem setFault_sync : (s.setFault v).sync = s.sync := rfl
@[simp] theorem setFault_dec : (s.setFault v).dec = s.dec := rfl
@[simp] theorem setFault_rst : (s.setFault v).rst = s.rst := rfl
@[simp] theorem setFault_host : (s.setFault v).host = s.host := rfl
@[simp] theorem setFault_rxIn : (s.setFault v).rxIn = s.rxIn := rfl
@[simp] theorem setFault_drawn : (s.setFault v).drawn = s.drawn := rfl
@[simp] theorem setFault_wire : (s.setFault v).wire = s.wire := rfl
@[simp] theorem setFault_portLog : (s.setFault v).portLog = s.portLog := rfl
@[simp] theorem setFault_hostErrors : (s.setFault v).hostErrors = s.hostErrors := rfl

end

section
variable (s : State) (v : Channel)

@[simp] theorem setCh_cfg : (s.setCh v).cfg = s.cfg := rfl
@[simp] theorem setCh_q : (s.setCh v).q = s.q := rfl
@[simp] theorem setCh_ctx : (s.setCh v).ctx = s.ctx := rfl
@[simp] theorem setCh_fault : (s.setCh v).fault = s.fault := rfl
@[simp] theorem setCh_ch : (s.setCh v).ch = v := rfl
@[simp] theorem setCh_ctl : (s.setCh v).ctl = s.ctl := rfl
@[simp] theorem setCh_sync : (s.setCh v).sync = s.sync := rfl
@[simp] theorem setCh_dec : (s.setCh v).dec = s.dec := rfl
@[simp] theorem setCh_rst : (s.setCh v).rst = s.rst := rfl
@[simp] theorem setCh_host : (s.setCh v).host = s.host := rfl
@[simp] theorem setCh_rxIn : (s.setCh v).rxIn = s.rxIn := rfl
@[simp] theorem setCh_drawn : (s.setCh v).drawn = s.drawn := rfl
@[simp] theorem setCh_wire : (s.setCh v).wire = s.wire := rfl
@[simp] theorem setCh_portLog : (s.setCh v).portLog = s.portLog := rfl
@[simp] theorem setCh_hostErrors : (s.setCh v).hostErrors = s.hostErrors := rfl

end

section
variable (s : State) (v : Ctl)

@[simp] theorem setCtl_cfg : (s.setCtl v).cfg = s.cfg := rfl
@[simp] theorem setCtl_q : (s.setCtl v).q = s.q := rfl
@[simp] theorem setCtl_ctx : (s.setCtl v).ctx = s.ctx := rfl
@[simp] theorem setCtl_fault : (s.setCtl v).fault = s.fault := rfl
@[simp] theorem setCtl_ch : (s.setCtl v).ch = s.ch := rfl
@[simp] theorem setCtl_ctl : (s.setCtl v).ctl = v := rfl
@[simp] theorem setCtl_sync : (s.setCtl v).sync = s.sync := rfl
@[simp] theorem setCtl_dec : (s.setCtl v).dec = s.dec := rfl
@[simp] theorem setCtl_rst : (s.setCtl v).rst = s.rst := rfl
@[simp] theorem setCtl_host : (s.setCtl v).host = s.host := rfl
@[simp] theorem setCtl_rxIn : (s.setCtl v).rxIn = s.rxIn := rfl
@[simp] theorem setCtl_drawn : (s.setCtl v).drawn = s.drawn := rfl
@[simp] theorem setCtl_wire : (s.setCtl v).wire = s.wire := rfl
@[simp] theorem setCtl_portLog : (s.setCtl v).portLog = s.portLog := rfl
@[simp] theorem setCtl_hostErrors : (s.setCtl v).hostErrors = s.hostErrors := rfl

end

section
variable (s : State) (v : SyncRegs)

@[simp] theorem setSync_cfg : (s.setSync v).cfg = s.cfg := rfl
@[simp] theorem setSync_q : (s.setSync v).q = s.q := rfl
@[simp] theorem setSync_ctx : (s.setSync v).ctx = s.ctx := rfl
@[simp] theorem setSync_fault : (s.setSync v).fault = s.fault := rfl
@[simp] theorem setSync_ch : (s.setSync v).ch = s.ch := rfl
@[simp] theorem setSync_ctl : (s.setSync v).ctl = s.ctl := rfl
@[simp] theorem setSync_sync : (s.setSync v).sync = v := rfl
@[simp] theorem setSync_dec : (s.setSync v).dec = s.dec := rfl
@[simp] theorem setSync_rst : (s.setSync v).rst = s.rst := rfl
@[simp] theorem setSync_host : (s.setSync v).host = s.host := rfl
@[simp] theorem setSync_rxIn : (s.setSync v).rxIn = s.rxIn := rfl
@[simp] theorem setSync_drawn : (s.setSync v).drawn = s.drawn := rfl
@[simp] theorem setSync_wire : (s.setSync v).wire = s.wire := rfl
@[simp] theorem setSync_portLog : (s.setSync v).portLog = s.portLog := rfl
@[simp] theorem setSync_hostErrors : (s.setSync v).hostErrors = s.hostErrors := rfl

end

section
variable (s : State) (v : DecRegs)

@[simp] theorem setDec_cfg : (s.setDec v).cfg = s.cfg := rfl
@[simp] theorem setDec_q : (s.setDec v).q = s.q := rfl
@[simp] theorem setDec_ctx : (s.setDec v).ctx = s.ctx := rfl
@[simp] theorem setDec_fault : (s.setDec v).fault = s.fault := rfl
@[simp] theorem setDec_ch : (s.setDec v).ch = s.ch := rfl
@[simp] theorem setDec_ctl : (s.setDec v).ctl = s.ctl := rfl
@[simp] theorem setDec_sync : (s.setDec v).sync = s.sync := rfl
@[simp] theorem setDec_dec : (s.setDec v).dec = v := rfl
@[simp] theorem setDec_rst : (s.setDec v).rst = s.rst := rfl
@[simp] theorem setDec_host : (s.setDec v).host = s.host := rfl
@[simp] theorem setDec_rxIn : (s.setDec v).rxIn = s.rxIn := rfl
@[simp] theorem setDec_drawn : (s.setDec v).drawn = s.drawn := rfl
@[simp] theorem setDec_wire : (s.setDec v).wire = s.wire := rfl
@[simp] theorem setDec_portLog : (s.setDec v).portLog = s.portLog := rfl
@[simp] theorem setDec_hostErrors : (s.setDec v).hostErrors = s.hostErrors := rfl

end

section
variable (s : State) (v : Bool)

@[simp] theorem setRst_cfg : (s.setRst v).cfg = s.cfg := rfl
@[simp] theorem setRst_q : (s.setRst v).q = s.q := rfl
@[simp] theorem setRst_ctx : (s.setRst v).ctx = s.ctx := rfl
@[simp] theorem setRst_fault : (s.setRst v).fault = s.fault := rfl
@[simp] theorem setRst_ch : (s.setRst v).ch = s.ch := rfl
@[simp] theorem setRst_ctl : (s.setRst v).ctl = s.ctl := rfl
@[simp] theorem setRst_sync : (s.setRst v).sync = s.sync := rfl
@[simp] theorem setRst_dec : (s.setRst v).dec = s.dec := rfl
@[simp] theorem setRst_rst : (s.setRst v).rst = v := rfl
@[simp] theorem setRst_host : (s.setRst v).host = s.host := rfl
@[simp] theorem setRst_rxIn : (s.setRst v).rxIn = s.rxIn := rfl
@[simp] theorem setRst_drawn : (s.setRst v).drawn = s.drawn := rfl
@[simp] theorem setRst_wire : (s.setRst v).wire = s.wire := rfl
@[simp] theorem setRst_portLog : (s.setRst v).portLog = s.portLog := rfl
@[simp] theorem setRst_hostErrors : (s.setRst v).hostErrors = s.hostErrors := rfl

end

section
variable (s : State) (v : List HostItem)

@[simp] theorem setHost_cfg : (s.setHost v).cfg = s.cfg := rfl
@[simp] theorem setHost_q : (s.setHost v).q = s.q := rfl
@[simp] theorem setHost_ctx : (s.setHost v).ctx = s.ctx := rfl
@[simp] theorem setHost_fault : (s.setHost v).fault = s.fault := rfl
@[simp] theorem setHost_ch : (s.setHost v).ch = s.ch := rfl
@[simp] theorem setHost_ctl : (s.setHost v).ctl = s.ctl := rfl
@[simp] theorem setHost_sync : (s.setHost v).sync = s.sync := rfl
@[simp] theorem setHost_dec : (s.setHost v).dec = s.dec := rfl
@[simp] theorem setHost_rst : (s.setHost v).rst = s.rst := rfl
@[simp] theorem setHost_host : (s.setHost v).host = v := rfl
@[simp] theorem setHost_rxIn : (s.setHost v).rxIn = s.rxIn := rfl
@[simp] theorem setHost_drawn : (s.setHost v).drawn = s.drawn := rfl
@[simp] theorem setHost_wire : (s.setHost v).wire = s.wire := rfl
@[simp] theorem setHost_portLog : (s.setHost v).portLog = s.portLog := rfl
@[simp] theorem setHost_hostErrors : (s.setHost v).hostErrors = s.hostErrors := rfl

end

section
variable (s : State) (v : List Byte)

@[simp] theorem setRxIn_cfg : (s.setRxIn v).cfg = s.cfg := rfl
@[simp] theorem setRxIn_q : (s.setRxIn v).q = s.q := rfl
@[simp] theorem setRxIn_ctx : (s.setRxIn v).ctx = s.ctx := rfl
@[simp] theorem setRxIn_fault : (s.setRxIn v).fault = s.fault := rfl
@[simp] theorem setRxIn_ch : (s.setRxIn v).ch = s.ch := rfl
@[simp] theorem setRxIn_ctl : (s.setRxIn v).ctl = s.ctl := rfl
@[simp] theorem setRxIn_sync : (s.setRxIn v).sync = s.sync := rfl
@[simp] theorem setRxIn_dec : (s.setRxIn v).dec = s.dec := rfl
@[simp] theorem setRxIn_rst : (s.setRxIn v).rst = s.rst := rfl
@[simp] theorem setRxIn_host : (s.setRxIn v).host = s.host := rfl
@[simp] theorem setRxIn_rxIn : (s.setRxIn v).rxIn = v := rfl
@[simp] theorem setRxIn_drawn : (s.setRxIn v).drawn = s.drawn := rfl
@[simp] theorem setRxIn_wire : (s.setRxIn v).wire = s.wire := rfl
@[simp] theorem setRxIn_portLog : (s.setRxIn v).portLog = s.portLog := rfl
@[simp] theorem setRxIn_hostErrors : (s.setRxIn v).hostErrors = s.hostErrors := rfl

end

section
variable (s : State) (v : Nat)

@[simp] theorem setDrawn_cfg : (s.setDrawn v).cfg = s.cfg := rfl
@[simp] theorem setDrawn_q : (s.setDrawn v).q = s.q := rfl
@[simp] theorem setDrawn_ctx : (s.setDrawn v).ctx = s.ctx := rfl
@[simp] theorem setDrawn_fault : (s.setDrawn v).fault = s.fault := rfl
@[simp] theorem setDrawn_ch : (s.setDrawn v).ch = s.ch := rfl
@[simp] theorem setDrawn_ctl : (s.setDrawn v).ctl = s.ctl := rfl
@[simp] theorem setDrawn_sync : (s.setDrawn v).sync = s.sync := rfl
@[simp] theorem setDrawn_dec : (s.setDrawn v).dec = s.dec := rfl
@[simp] theorem setDrawn_rst : (s.setDrawn v).rst = s.rst := rfl
@[simp] theorem setDrawn_host : (s.setDrawn v).host = s.host := rfl
@[simp] theorem setDrawn_rxIn : (s.setDrawn v).rxIn = s.rxIn := rfl
@[simp] theorem setDrawn_drawn : (s.setDrawn v).drawn = v := rfl
@[simp] theorem setDrawn_wire : (s.setDrawn v).wire = s.wire := rfl
@[simp] theorem setDrawn_portLog : (s.setDrawn v).portLog = s.portLog := rfl
@[simp] theorem setDrawn_hostErrors : (s.setDrawn v).hostErrors = s.hostErrors := rfl

end

section
variable (s : State) (v : List Exchange)

@[simp] theorem setWire_cfg : (s.setWire v).cfg = s.cfg := rfl
@[simp] theorem setWire_q : (s.setWire v).q = s.q := rfl
@[simp] theorem setWire_ctx : (s.setWire v).ctx = s.ctx := rfl
@[simp] theorem setWire_fault : (s.setWire v).fault = s.fault := rfl
@[simp] theorem setWire_ch : (s.setWire v).ch = s.ch := rfl
@[simp] theorem setWire_ctl : (s.setWire v).ctl = s.ctl := rfl
@[simp] theorem setWire_sync : (s.setWire v).sync = s.sync := rfl
@[simp] theorem setWire_dec : (s.setWire v).dec = s.dec := rfl
@[simp] theorem setWire_rst : (s.setWire v).rst = s.rst := rfl
@[simp] theorem setWire_host : (s.setWire v).host = s.host := rfl
@[simp] theorem setWire_rxIn : (s.setWire v).rxIn = s.rxIn := rfl
@[simp] theorem setWire_drawn : (s.setWire v).drawn = s.drawn := rfl
@[simp] theorem setWire_wire : (s.setWire v).wire = v := rfl
@[simp] theorem setWire_portLog : (s.setWire v).portLog = s.portLog := rfl
@[simp] theorem setWire_hostErrors : (s.setWire v).hostErrors = s.hostErrors := rfl

end

section
variable (s : State) (v : List (Request × Response))

@[simp] theorem setPortLog_cfg : (s.setPortLog v).cfg = s.cfg := rfl
@[simp] theorem setPortLog_q : (s.setPortLog v).q = s.q := rfl
@[simp] theorem setPortLog_ctx : (s.setPortLog v).ctx = s.ctx := rfl
@[simp] theorem setPortLog_fault : (s.setPortLog v).fault = s.fault := rfl
@[simp] theorem setPortLog_ch : (s.setPortLog v).ch = s.ch := rfl
@[simp] theorem setPortLog_ctl : (s.setPortLog v).ctl = s.ctl := rfl
@[simp] theorem setPortLog_sync : (s.setPortLog v).sync = s.sync := rfl
@[simp] theorem setPortLog_dec : (s.setPortLog v).dec = s.dec := rfl
@[simp] theorem setPortLog_rst : (s.setPortLog v).rst = s.rst := rfl
@[simp] theorem setPortLog_host : (s.setPortLog v).host = s.host := rfl
@[simp] theorem setPortLog_rxIn : (s.setPortLog v).rxIn = s.rxIn := rfl
@[simp] theorem setPortLog_drawn : (s.setPortLog v).drawn = s.drawn := rfl
@[simp] theorem setPortLog_wire : (s.setPortLog v).wire = s.wire := rfl
@[simp] theorem setPortLog_portLog : (s.setPortLog v).portLog = v := rfl
@[simp] theorem setPortLog_hostErrors : (s.setPortLog v).hostErrors = s.hostErrors := rfl

end

section
variable (s : State) (v : List HostError)

@[simp] theorem setHostErrors_cfg : (s.setHostErrors v).cfg = s.cfg := rfl
@[simp] theorem setHostErrors_q : (s.setHostErrors v).q = s.q := rfl
@[simp] theorem setHostErrors_ctx : (s.setHostErrors v).ctx = s.ctx := rfl
@[simp] theorem setHostErrors_fault : (s.setHostErrors v).fault = s.fault := rfl
@[simp] theorem setHostErrors_ch : (s.setHostErrors v).ch = s.ch := rfl
@[simp] theorem setHostErrors_ctl : (s.setHostErrors v).ctl = s.ctl := rfl
@[simp] theorem setHostErrors_sync : (s.setHostErrors v).sync = s.sync := rfl
@[simp] theorem setHostErrors_dec : (s.setHostErrors v).dec = s.dec := rfl
@[simp] theorem setHostErrors_rst : (s.setHostErrors v).rst = s.rst := rfl
@[simp] theorem setHostErrors_host : (s.setHostErrors v).host = s.host := rfl
@[simp] theorem setHostErrors_rxIn : (s.setHostErrors v).rxIn = s.rxIn := rfl
@[simp] theorem setHostErrors_drawn : (s.setHostErrors v).drawn = s.drawn := rfl
@[simp] theorem setHostErrors_wire : (s.setHostErrors v).wire = s.wire := rfl
@[simp] theorem setHostErrors_portLog : (s.setHostErrors v).portLog = s.portLog := rfl
@[simp] theorem setHostErrors_hostErrors : (s.setHostErrors v).hostErrors = v := rfl

end

end Sys2Proof.Laws
end

