-- ==== Sys2Proof/Laws/Ops.lean ====
section
/-! SUPPORT. The shared operations: what each can do, said once, and what each leaves alone. -/

namespace Sys2Proof.Laws

open Sys2Proof.Machine

/-! ### Outcomes -/

@[simp] theorem andThen_next (s : State) (k : State → Result) : andThen (.next s) k = k s := rfl
@[simp] theorem andThen_fault (e : Fault) (k : State → Result) : andThen (.fault e) k = .fault e := rfl
@[simp] theorem mapNext_next (s : State) (f : State → State) : mapNext (.next s) f = .next (f s) := rfl
@[simp] theorem mapNext_fault (e : Fault) (f : State → State) : mapNext (.fault e) f = .fault e := rfl
@[simp] theorem nextState_next (s : State) : nextState (.next s) = some s := rfl

/-- A mapped outcome is a next state exactly when the outcome is one. -/
theorem mapNext_eq_next {o : Result} {f : State → State} {t : State} (h : mapNext o f = .next t) :
    ∃ u, o = .next u ∧ t = f u := by
  cases o with
  | next u => exact ⟨u, rfl, by simpa using h.symm⟩
  | fault e => simp [mapNext, andThen] at h
  | refused r => simp [mapNext, andThen] at h

/-! ### What the updates of one or two fields leave alone -/

section
variable (r : Request) (a : Response) (s : State)

@[simp] theorem respond_cfg : (respond r a s).cfg = s.cfg := rfl
@[simp] theorem respond_q : (respond r a s).q = s.q := rfl
@[simp] theorem respond_ctx : (respond r a s).ctx = s.ctx := rfl
@[simp] theorem respond_fault : (respond r a s).fault = s.fault := rfl
@[simp] theorem respond_ch : (respond r a s).ch = s.ch := rfl
@[simp] theorem respond_ctl : (respond r a s).ctl = s.ctl := rfl
@[simp] theorem respond_sync : (respond r a s).sync = s.sync := rfl
@[simp] theorem respond_dec : (respond r a s).dec = s.dec := rfl
@[simp] theorem respond_rst : (respond r a s).rst = s.rst := rfl
@[simp] theorem respond_host : (respond r a s).host = s.host := rfl
@[simp] theorem respond_rxIn : (respond r a s).rxIn = s.rxIn := rfl
@[simp] theorem respond_drawn : (respond r a s).drawn = s.drawn := rfl
@[simp] theorem respond_wire : (respond r a s).wire = s.wire := rfl
@[simp] theorem respond_hostErrors : (respond r a s).hostErrors = s.hostErrors := rfl
@[simp] theorem respond_portLog : (respond r a s).portLog = s.portLog ++ [(r, a)] := rfl

end

section
variable (t0 t1 : Byte) (w : Word) (s : State)

@[simp] theorem exchangeTwo_cfg : (exchangeTwo t0 t1 w s).cfg = s.cfg := rfl
@[simp] theorem exchangeTwo_q : (exchangeTwo t0 t1 w s).q = s.q := rfl
@[simp] theorem exchangeTwo_ctx : (exchangeTwo t0 t1 w s).ctx = s.ctx := rfl
@[simp] theorem exchangeTwo_fault : (exchangeTwo t0 t1 w s).fault = s.fault := rfl
@[simp] theorem exchangeTwo_ctl : (exchangeTwo t0 t1 w s).ctl = s.ctl := rfl
@[simp] theorem exchangeTwo_sync : (exchangeTwo t0 t1 w s).sync = s.sync := rfl
@[simp] theorem exchangeTwo_dec : (exchangeTwo t0 t1 w s).dec = s.dec := rfl
@[simp] theorem exchangeTwo_rst : (exchangeTwo t0 t1 w s).rst = s.rst := rfl
@[simp] theorem exchangeTwo_host : (exchangeTwo t0 t1 w s).host = s.host := rfl
@[simp] theorem exchangeTwo_rxIn : (exchangeTwo t0 t1 w s).rxIn = s.rxIn := rfl
@[simp] theorem exchangeTwo_drawn : (exchangeTwo t0 t1 w s).drawn = s.drawn := rfl
@[simp] theorem exchangeTwo_portLog : (exchangeTwo t0 t1 w s).portLog = s.portLog := rfl
@[simp] theorem exchangeTwo_hostErrors : (exchangeTwo t0 t1 w s).hostErrors = s.hostErrors := rfl
@[simp] theorem exchangeTwo_ch : (exchangeTwo t0 t1 w s).ch = { tx0 := t0, tx1 := t1, rx0 := hiByte w, rx1 := loByte w } := rfl
@[simp] theorem exchangeTwo_wire : (exchangeTwo t0 t1 w s).wire = s.wire ++ [{ n := 2, tx := [t0, t1], rx := [hiByte w, loByte w] }] := rfl

end

section
variable (b : Byte) (s : State)

@[simp] theorem exchangeOne_cfg : (exchangeOne b s).cfg = s.cfg := rfl
@[simp] theorem exchangeOne_q : (exchangeOne b s).q = s.q := rfl
@[simp] theorem exchangeOne_ctx : (exchangeOne b s).ctx = s.ctx := rfl
@[simp] theorem exchangeOne_fault : (exchangeOne b s).fault = s.fault := rfl
@[simp] theorem exchangeOne_ctl : (exchangeOne b s).ctl = s.ctl := rfl
@[simp] theorem exchangeOne_sync : (exchangeOne b s).sync = s.sync := rfl
@[simp] theorem exchangeOne_dec : (exchangeOne b s).dec = s.dec := rfl
@[simp] theorem exchangeOne_rst : (exchangeOne b s).rst = s.rst := rfl
@[simp] theorem exchangeOne_host : (exchangeOne b s).host = s.host := rfl
@[simp] theorem exchangeOne_rxIn : (exchangeOne b s).rxIn = s.rxIn := rfl
@[simp] theorem exchangeOne_drawn : (exchangeOne b s).drawn = s.drawn := rfl
@[simp] theorem exchangeOne_portLog : (exchangeOne b s).portLog = s.portLog := rfl
@[simp] theorem exchangeOne_hostErrors : (exchangeOne b s).hostErrors = s.hostErrors := rfl
@[simp] theorem exchangeOne_ch : (exchangeOne b s).ch = { s.ch with tx0 := 0x5A#8, rx0 := b } := rfl
@[simp] theorem exchangeOne_wire : (exchangeOne b s).wire = s.wire ++ [{ n := 1, tx := [0x5A#8], rx := [b] }] := rfl

end

section
variable (bt : BlockType) (s : State)

@[simp] theorem setBlockType_cfg : (setBlockType bt s).cfg = s.cfg := rfl
@[simp] theorem setBlockType_q : (setBlockType bt s).q = s.q := rfl
@[simp] theorem setBlockType_fault : (setBlockType bt s).fault = s.fault := rfl
@[simp] theorem setBlockType_ch : (setBlockType bt s).ch = s.ch := rfl
@[simp] theorem setBlockType_ctl : (setBlockType bt s).ctl = s.ctl := rfl
@[simp] theorem setBlockType_sync : (setBlockType bt s).sync = s.sync := rfl
@[simp] theorem setBlockType_dec : (setBlockType bt s).dec = s.dec := rfl
@[simp] theorem setBlockType_rst : (setBlockType bt s).rst = s.rst := rfl
@[simp] theorem setBlockType_host : (setBlockType bt s).host = s.host := rfl
@[simp] theorem setBlockType_rxIn : (setBlockType bt s).rxIn = s.rxIn := rfl
@[simp] theorem setBlockType_drawn : (setBlockType bt s).drawn = s.drawn := rfl
@[simp] theorem setBlockType_wire : (setBlockType bt s).wire = s.wire := rfl
@[simp] theorem setBlockType_portLog : (setBlockType bt s).portLog = s.portLog := rfl
@[simp] theorem setBlockType_hostErrors : (setBlockType bt s).hostErrors = s.hostErrors := rfl
@[simp] theorem setBlockType_ctx : (setBlockType bt s).ctx = { s.ctx with bt := bt } := rfl

end

section
variable (v : Bool) (s : State)

@[simp] theorem setSkip_cfg : (setSkip v s).cfg = s.cfg := rfl
@[simp] theorem setSkip_q : (setSkip v s).q = s.q := rfl
@[simp] theorem setSkip_fault : (setSkip v s).fault = s.fault := rfl
@[simp] theorem setSkip_ch : (setSkip v s).ch = s.ch := rfl
@[simp] theorem setSkip_ctl : (setSkip v s).ctl = s.ctl := rfl
@[simp] theorem setSkip_sync : (setSkip v s).sync = s.sync := rfl
@[simp] theorem setSkip_dec : (setSkip v s).dec = s.dec := rfl
@[simp] theorem setSkip_rst : (setSkip v s).rst = s.rst := rfl
@[simp] theorem setSkip_host : (setSkip v s).host = s.host := rfl
@[simp] theorem setSkip_rxIn : (setSkip v s).rxIn = s.rxIn := rfl
@[simp] theorem setSkip_drawn : (setSkip v s).drawn = s.drawn := rfl
@[simp] theorem setSkip_wire : (setSkip v s).wire = s.wire := rfl
@[simp] theorem setSkip_portLog : (setSkip v s).portLog = s.portLog := rfl
@[simp] theorem setSkip_hostErrors : (setSkip v s).hostErrors = s.hostErrors := rfl
@[simp] theorem setSkip_ctx : (setSkip v s).ctx = { s.ctx with skip := v } := rfl

end

section
variable (s : State)

@[simp] theorem raiseInvalidArgument_cfg : (raiseInvalidArgument s).cfg = s.cfg := rfl
@[simp] theorem raiseInvalidArgument_q : (raiseInvalidArgument s).q = s.q := rfl
@[simp] theorem raiseInvalidArgument_ctx : (raiseInvalidArgument s).ctx = s.ctx := rfl
@[simp] theorem raiseInvalidArgument_fault : (raiseInvalidArgument s).fault = s.fault := rfl
@[simp] theorem raiseInvalidArgument_ch : (raiseInvalidArgument s).ch = s.ch := rfl
@[simp] theorem raiseInvalidArgument_ctl : (raiseInvalidArgument s).ctl = s.ctl := rfl
@[simp] theorem raiseInvalidArgument_sync : (raiseInvalidArgument s).sync = s.sync := rfl
@[simp] theorem raiseInvalidArgument_dec : (raiseInvalidArgument s).dec = s.dec := rfl
@[simp] theorem raiseInvalidArgument_rst : (raiseInvalidArgument s).rst = s.rst := rfl
@[simp] theorem raiseInvalidArgument_host : (raiseInvalidArgument s).host = s.host := rfl
@[simp] theorem raiseInvalidArgument_rxIn : (raiseInvalidArgument s).rxIn = s.rxIn := rfl
@[simp] theorem raiseInvalidArgument_drawn : (raiseInvalidArgument s).drawn = s.drawn := rfl
@[simp] theorem raiseInvalidArgument_wire : (raiseInvalidArgument s).wire = s.wire := rfl
@[simp] theorem raiseInvalidArgument_portLog : (raiseInvalidArgument s).portLog = s.portLog := rfl
@[simp] theorem raiseInvalidArgument_hostErrors : (raiseInvalidArgument s).hostErrors = s.hostErrors ++ [.invalidArgument] := rfl

end

/-! ### The environment's answers -/

/-- The next byte lined up is the answer. -/
theorem drawByte_cons {s : State} {b : Byte} {bs : List Byte} (h : s.rxIn = b :: bs) : drawByte s = (b, s.setRxIn bs) := by
  simp [drawByte, h]

/-- With nothing lined up the answer is a free draw. -/
theorem drawByte_nil {s : State} (h : s.rxIn = []) :
    drawByte s = (Config.rxByte s.drawn, s.setDrawn (s.drawn + 1)) := by
  simp [drawByte, h]

/-- A draw changes only the environment's own fields. -/
theorem drawByte_eq (s : State) : (drawByte s).2 = { s with rxIn := (drawByte s).2.rxIn, drawn := (drawByte s).2.drawn } := by
  cases h : s.rxIn with
  | nil => simp [drawByte_nil h, State.setDrawn]
  | cons b bs => simp [drawByte_cons h, State.setRxIn]

/-- Two lined-up bytes are the answer to a word exchange, high byte first. -/
theorem drawWord_cons {s : State} {b0 b1 : Byte} {bs : List Byte} (h : s.rxIn = b0 :: b1 :: bs) :
    drawWord s = (wordOfBytes b0 b1, s.setRxIn bs) := by
  simp only [drawWord, drawByte_cons h, drawByte_cons (s := s.setRxIn (b1 :: bs)) rfl]
  rfl

section
variable (s : State)

@[simp] theorem drawByte_cfg : (drawByte s).2.cfg = s.cfg := by rw [drawByte_eq]
@[simp] theorem drawByte_q : (drawByte s).2.q = s.q := by rw [drawByte_eq]
@[simp] theorem drawByte_ctx : (drawByte s).2.ctx = s.ctx := by rw [drawByte_eq]
@[simp] theorem drawByte_fault : (drawByte s).2.fault = s.fault := by rw [drawByte_eq]
@[simp] theorem drawByte_ch : (drawByte s).2.ch = s.ch := by rw [drawByte_eq]
@[simp] theorem drawByte_ctl : (drawByte s).2.ctl = s.ctl := by rw [drawByte_eq]
@[simp] theorem drawByte_sync : (drawByte s).2.sync = s.sync := by rw [drawByte_eq]
@[simp] theorem drawByte_dec : (drawByte s).2.dec = s.dec := by rw [drawByte_eq]
@[simp] theorem drawByte_rst : (drawByte s).2.rst = s.rst := by rw [drawByte_eq]
@[simp] theorem drawByte_host : (drawByte s).2.host = s.host := by rw [drawByte_eq]
@[simp] theorem drawByte_wire : (drawByte s).2.wire = s.wire := by rw [drawByte_eq]
@[simp] theorem drawByte_portLog : (drawByte s).2.portLog = s.portLog := by rw [drawByte_eq]
@[simp] theorem drawByte_hostErrors : (drawByte s).2.hostErrors = s.hostErrors := by rw [drawByte_eq]

@[simp] theorem drawWord_cfg : (drawWord s).2.cfg = s.cfg := by simp [drawWord]
@[simp] theorem drawWord_q : (drawWord s).2.q = s.q := by simp [drawWord]
@[simp] theorem drawWord_ctx : (drawWord s).2.ctx = s.ctx := by simp [drawWord]
@[simp] theorem drawWord_fault : (drawWord s).2.fault = s.fault := by simp [drawWord]
@[simp] theorem drawWord_ch : (drawWord s).2.ch = s.ch := by simp [drawWord]
@[simp] theorem drawWord_ctl : (drawWord s).2.ctl = s.ctl := by simp [drawWord]
@[simp] theorem drawWord_sync : (drawWord s).2.sync = s.sync := by simp [drawWord]
@[simp] theorem drawWord_dec : (drawWord s).2.dec = s.dec := by simp [drawWord]
@[simp] theorem drawWord_rst : (drawWord s).2.rst = s.rst := by simp [drawWord]
@[simp] theorem drawWord_host : (drawWord s).2.host = s.host := by simp [drawWord]
@[simp] theorem drawWord_wire : (drawWord s).2.wire = s.wire := by simp [drawWord]
@[simp] theorem drawWord_portLog : (drawWord s).2.portLog = s.portLog := by simp [drawWord]
@[simp] theorem drawWord_hostErrors : (drawWord s).2.hostErrors = s.hostErrors := by simp [drawWord]

end

/-! ### The request port -/

/-- A ready port runs the request (spec/60_exceptions.md R225). -/
theorem acceptRequest_ready {s : State} (r : Request) (run : State → Result) (h : s.ready) : acceptRequest r run s = run s := by
  simp [acceptRequest, h.1, h.2]

/-- With a fault recorded the answer is FAULT (R223, R225). -/
theorem acceptRequest_halted {s : State} (r : Request) (run : State → Result) (hp : portReady s = true) (hf : s.fault ≠ .none) :
    acceptRequest r run s = .next (respond r .fault s) := by
  simp [acceptRequest, hp, hf]

/-- A BUSY controller holds the request (spec/30_encoding.md R79). -/
theorem acceptRequest_busy {s : State} (r : Request) (run : State → Result) (hp : portReady s = false) :
    acceptRequest r run s = .next s := by
  simp [acceptRequest, hp]

/-- The three ways a presented request can go. -/
theorem acceptRequest_cases {s : State} {r : Request} {run : State → Result} {o : Result} (h : acceptRequest r run s = o) :
    (portReady s = false ∧ o = .next s) ∨ (portReady s = true ∧ s.fault ≠ .none ∧ o = .next (respond r .fault s)) ∨
      (s.ready ∧ run s = o) := by
  cases hp : portReady s
  · exact .inl ⟨rfl, by rw [← h, acceptRequest_busy r run hp]⟩
  · by_cases hf : s.fault = .none
    · exact .inr (.inr ⟨⟨hp, hf⟩, by rw [← h, acceptRequest_ready r run ⟨hp, hf⟩]⟩)
    · exact .inr (.inl ⟨rfl, hf, by rw [← h, acceptRequest_halted r run hp hf]⟩)

/-- The port is not ready exactly when the controller is BUSY. -/
theorem portReady_eq_false {s : State} : portReady s = false ↔ ∃ op ph, s.ctl = .busy op ph := by
  cases h : s.ctl <;> simp [portReady, h]

/-! ### One word exchange -/

/-- With an empty queue a word exchange sends TX_IDLE. -/
theorem transactWord_empty {s : State} (w : Word) (h : s.q.count = 0) :
    transactWord w s = .next (exchangeTwo Config.idleSyncByte 0#8 w s) := by
  simp [transactWord, h]

/-- With a queued byte a word exchange sends TX_DATA with the oldest one. -/
theorem transactWord_queued {s : State} (w : Word) (hg : Good s.cfg.capacity s.q) (hc : 0 < s.q.count) :
    ∃ d q', transactWord w s = .next (exchangeTwo Config.dataSyncByte d w (s.setQ q')) ∧
      popByte s.cfg.capacity s.q = .ok (d, q') ∧ Good s.cfg.capacity q' ∧ s.queued = d :: q'.bytes s.cfg.capacity ∧
      q'.count = s.q.count - 1 ∧ q'.buf = s.q.buf ∧ q'.tail = s.q.tail ∧ d = Memory.read s.q.buf s.q.head ∧
      q'.head = (s.q.head + 1) % s.cfg.capacity := by
  obtain ⟨d, q', h1, h2, h3, h4, h5, h6, h7, h8⟩ := popByte_spec hg hc
  exact ⟨d, q', by simp [transactWord, hc, h1], h1, h2, h3, h4, h5, h6, h7, h8⟩

/-- A word exchange of a machine whose queue is good always completes (spec/20_memory.md R64). -/
theorem transactWord_exchanged {s : State} (w : Word) (hg : Good s.cfg.capacity s.q) :
    ∃ u, transactWord w s = .next u ∧ s.Exchanged w u ∧ Good s.cfg.capacity u.q := by
  rcases Nat.eq_zero_or_pos s.q.count with hc | hc
  · exact ⟨_, transactWord_empty w hc, .inl ⟨hc, rfl⟩, hg⟩
  · obtain ⟨d, q', h1, -, h2, h3, h4, h5, h6, -, h8⟩ := transactWord_queued w hg hc
    exact ⟨_, h1, .inr ⟨d, q', h3, h5, h6, h8, by omega, rfl⟩, h2⟩

/-- What a word exchange leaves alone. -/
theorem Exchanged.frame {s u : State} {w : Word} (h : s.Exchanged w u) :
    u = { s with q := u.q, ch := u.ch, wire := u.wire } := by
  rcases h with ⟨-, rfl⟩ | ⟨d, q', -, -, -, -, -, rfl⟩ <;> rfl

/-! ### A BUSY controller's exchange -/

/-- In a phase that awaits a word, receiving one is the exchange and then the phase's updates (spec/43_decoder.md R179). -/
theorem receiveWord_busy {s : State} {op : BusyOp} {ph : Phase} (w : Word) (h : s.awaitsWord op ph) :
    receiveWord w s = mapNext (transactWord w s) (wordPhase op ph w) := by
  obtain ⟨hc, hn⟩ := h
  cases ph <;> simp_all [receiveWord]

/-- A phase that awaits a word has a two-byte frame due. -/
theorem frameDue_busy {s : State} {op : BusyOp} {ph : Phase} (h : s.awaitsWord op ph) :
    frameDue s = if 0 < s.q.count then some (.data (Memory.read s.q.buf s.q.head)) else some .idle := by
  obtain ⟨hc, hn⟩ := h
  cases ph <;> simp_all [frameDue]

theorem frameDue_skR {s : State} {op : BusyOp} (h : s.ctl = .busy op .skR) : frameDue s = some .resync := by
  simp [frameDue, h]

theorem frameDue_ready {s : State} (h : portReady s = true) : frameDue s = none := by
  cases hc : s.ctl <;> simp_all [frameDue, portReady]

/-- The row of a received word means that the word is received. -/
theorem exec_decodeRx (w : Word) (s : State) : exec (decodeRx w) s = receiveWord w s := by
  by_cases h0 : w = 0#16
  · subst h0; rfl
  by_cases h1 : w = Config.startWord
  · subst h1; rfl
  by_cases h2 : w = Config.startWordCc
  · subst h2; rfl
  by_cases h3 : w = Config.outOfSyncWord
  · subst h3; rfl
  have : decodeRx w = .rxData w := by simp only [decodeRx, classify, h0, h1, h2, h3, if_false]
  rw [this]; rfl

end Sys2Proof.Laws
end

