-- ==== Sys2Proof/Laws/PerInstr.lean ====
section
/-! SUPPORT. EncodedLength: for every instruction, its words are as long as its interface says, and a request's header states that
length (spec/30_encoding.md R71, R75, R78). -/

namespace Sys2Proof.Laws.EncodedLength

open Sys2Proof Sys2Proof.Machine Sys2Proof.Laws

/-- A request starts with a header, and has as many beats as that header says (R78); a frame is one or two bytes (R71); a received
word is a word; a pseudo-operation out of range has no words at all, and nothing else is without (spec/45_host_commands.md R200). -/
def Statement (i : Instr) : Prop :=
  i.wellFormed = true →
    match encode i with
    | .request beats => ∃ h t, beats = h :: t ∧ beats.length = requestLength h
    | .tx bytes => bytes.length = 1 ∨ bytes.length = 2
    | .rx _ => True
    | .unissued => i.isPseudo = true

theorem payload_length (op : BitVec 4) {p : List Byte} (hop : op = 3#4 ∨ op = 9#4) (hp : p.length ≤ Config.standard.maxPayload) :
    ∃ h t, payloadRequest op p = h :: t ∧ (payloadRequest op p).length = requestLength h := by
  refine ⟨_, _, rfl, ?_⟩
  rw [length_payloadRequest, requestLength_headerOf, if_pos hop, lengthByte_toNat hp]

theorem bare_length (op : BitVec 4) (imm : Byte) (hop : ¬ (op = 3#4 ∨ op = 9#4)) :
    ∃ h t, [headerOf op imm] = h :: t ∧ [headerOf op imm].length = requestLength h :=
  ⟨_, _, rfl, by rw [requestLength_headerOf, if_neg hop]; rfl⟩

theorem reserved_length (op : BitVec 4) (r : BitVec 12) (hop : ¬ (op = 3#4 ∨ op = 9#4)) :
    ∃ h t, [reservedHeader op r] = h :: t ∧ [reservedHeader op r].length = requestLength h := by
  refine ⟨_, _, rfl, ?_⟩
  simp only [requestLength, opField_reservedHeader, hop, and_false, if_false, List.length_cons, List.length_nil]

theorem enq (b : Byte) : Statement (.enq b) := fun _ => bare_length _ _ (by decide)

theorem deq : Statement (.deq) := fun _ => bare_length _ _ (by decide)

theorem enqcmd (p : List Byte) : Statement (.enqcmd p) := fun h => payload_length _ (by decide) (by simpa [Instr.wellFormed] using h)

theorem cap : Statement (.cap) := fun _ => bare_length _ _ (by decide)

theorem size : Statement (.size) := fun _ => bare_length _ _ (by decide)

theorem empty : Statement (.empty) := fun _ => bare_length _ _ (by decide)

theorem transact : Statement (.transact) := fun _ => bare_length _ _ (by decide)

theorem resync : Statement (.resync) := fun _ => bare_length _ _ (by decide)

theorem send (p : List Byte) : Statement (.send p) := fun h => payload_length _ (by decide) (by simpa [Instr.wellFormed] using h)

theorem seek : Statement (.seek) := fun _ => bare_length _ _ (by decide)

theorem poll : Statement (.poll) := fun _ => bare_length _ _ (by decide)

theorem reserved0 (r : BitVec 12) : Statement (.reserved0 r) := fun _ => reserved_length _ r (by decide)

theorem reservedC (r : BitVec 12) : Statement (.reservedC r) := fun _ => reserved_length _ r (by decide)

theorem reservedD (r : BitVec 12) : Statement (.reservedD r) := fun _ => reserved_length _ r (by decide)

theorem reservedE (r : BitVec 12) : Statement (.reservedE r) := fun _ => reserved_length _ r (by decide)

theorem reservedF (r : BitVec 12) : Statement (.reservedF r) := fun _ => reserved_length _ r (by decide)

theorem servo (s1 s2 : Int) : Statement (.servo s1 s2) := by
  intro _
  simp only [encode]
  by_cases h : servoInRange s1 s2 = true
  · rw [if_pos h]; exact payload_length _ (by decide) (by simp [servoBytes, Config.standard])
  · rw [if_neg h]; rfl

theorem exposure (v : Int) : Statement (.exposure v) := by
  intro _
  simp only [encode]
  by_cases h : exposureInRange v = true
  · rw [if_pos h]; exact payload_length _ (by decide) (by simp [exposureBytes, Config.standard])
  · rw [if_neg h]; rfl

theorem led (r g b : Int) : Statement (.led r g b) := by
  intro _
  simp only [encode]
  by_cases h : ledInRange r g b = true
  · rw [if_pos h]; exact payload_length _ (by decide) (by simp [ledBytes, Config.standard])
  · rw [if_neg h]; rfl

theorem txData (d : Byte) : Statement (.txData d) := fun _ => .inr rfl

theorem txIdle : Statement (.txIdle) := fun _ => .inr rfl

theorem txResync : Statement (.txResync) := fun _ => .inl rfl

theorem rxStart : Statement (.rxStart) := fun _ => trivial

theorem rxStartCc : Statement (.rxStartCc) := fun _ => trivial

theorem rxOos : Statement (.rxOos) := fun _ => trivial

theorem rxZero : Statement (.rxZero) := fun _ => trivial

theorem rxData (w : Word) : Statement (.rxData w) := fun _ => trivial

end Sys2Proof.Laws.EncodedLength
end

