-- ==== Sys2Proof/Laws/Step.lean ====
section
/-! SUPPORT. What an instruction and a step can do, said once: the updates of a phase, the effects of a request at a ready port, and
the shape of a step. -/

namespace Sys2Proof.Laws

open Sys2Proof.Machine

theorem queued_length (s : State) : s.queued.length = s.q.count := length_bytes _ _

theorem queued_eq_nil {s : State} : s.queued = [] ↔ s.q.count = 0 := by
  rw [← queued_length, List.length_eq_zero_iff]

theorem good_drawWord {s : State} (hi : s.Inv) : Good (drawWord s).2.cfg.capacity (drawWord s).2.q := by
  simpa using Good.of_inv hi

/-! ### The updates of a phase -/

/-- A phase's updates touch neither the queue nor the exchange history. -/
theorem wordPhase_wire (op : BusyOp) (ph : Phase) (w : Word) (s : State) :
    (wordPhase op ph w s).wire = s.wire ∧ (wordPhase op ph w s).q = s.q := by
  cases ph <;> simp only [wordPhase]
  case skX =>
    simp only [seekWord]
    split
    · cases op <;> exact ⟨rfl, rfl⟩
    · cases op <;> exact ⟨rfl, rfl⟩
    · exact ⟨rfl, rfl⟩
    · exact ⟨rfl, rfl⟩
  case dChk => simp only [checksumWord]; split <;> exact ⟨rfl, rfl⟩
  case dH => simp only [heightWord]; split <;> exact ⟨rfl, rfl⟩
  case dTrail => simp only [trailingWord]; split <;> exact ⟨rfl, rfl⟩
  all_goals simp [angleWord]

/-- What a phase's updates leave alone. -/
theorem wordPhase_frame (op : BusyOp) (ph : Phase) (w : Word) (s : State) :
    (wordPhase op ph w s).cfg = s.cfg ∧ (wordPhase op ph w s).fault = s.fault ∧ (wordPhase op ph w s).rst = s.rst ∧
    (wordPhase op ph w s).host = s.host ∧ (wordPhase op ph w s).rxIn = s.rxIn ∧ (wordPhase op ph w s).drawn = s.drawn ∧
    (wordPhase op ph w s).hostErrors = s.hostErrors ∧ (wordPhase op ph w s).ch = s.ch ∧
    (ph ∉ [.skX, .dChk, .dTrail] → (wordPhase op ph w s).ctx = s.ctx) ∧
    (ph ≠ .dChk → (wordPhase op ph w s).ctx.skip = s.ctx.skip) ∧
    (ph ≠ .skX → (wordPhase op ph w s).sync = s.sync) ∧ (ph = .skX → (wordPhase op ph w s).dec = s.dec) := by
  cases ph <;> simp only [wordPhase]
  case skX =>
    simp only [seekWord]
    split
    · cases op <;> simp [seekNoData, finishOp]
    · cases op <;> simp [seekFound, finishOp]
    · simp
    · simp
  case dChk => simp only [checksumWord]; split <;> simp [finishPoll, finishOp]
  case dH => simp only [heightWord]; split <;> simp
  case dTrail => simp only [trailingWord]; split <;> simp [finishPoll, finishOp]
  all_goals simp [angleWord]

/-- Only a start marker at checksum position sets the skip flag, and it ends the call. -/
theorem wordPhase_skip {op : BusyOp} {ph : Phase} {w : Word} {s : State} (h : (wordPhase op ph w s).ctx.skip ≠ s.ctx.skip) :
    ph = .dChk ∧ (w = Config.startWord ∨ w = Config.startWordCc) ∧ (wordPhase op ph w s).ctl = .idle := by
  by_cases hp : ph = .dChk
  · subst hp
    refine ⟨rfl, ?_⟩
    simp only [wordPhase, checksumWord] at h ⊢
    by_cases h0 : w = 0#16
    · subst h0; exact absurd rfl h
    by_cases h1 : w = Config.startWord
    · subst h1; exact ⟨.inl rfl, rfl⟩
    by_cases h2 : w = Config.startWordCc
    · subst h2; exact ⟨.inr rfl, rfl⟩
    by_cases h3 : w = Config.outOfSyncWord
    · subst h3; exact absurd rfl h
    have : classify w = .data := by simp only [classify, h0, h1, h2, h3, if_false]
    rw [this] at h
    exact absurd rfl h
  · exact absurd ((wordPhase_frame op ph w s).2.2.2.2.2.2.2.2.2.1 hp) h

/-- A phase of `op` either answers its request and returns to IDLE, or goes on in another phase of `op` with nothing answered. -/
theorem wordPhase_ctl {op : BusyOp} {ph : Phase} (w : Word) {s : State} (h : s.awaitsWord op ph)
    (hp : op = .seek → ph = .skX) :
    (∃ v, (wordPhase op ph w s).ctl = .idle ∧ (wordPhase op ph w s).portLog = s.portLog ++ [(op.request, .ok v)] ∧
      (∀ c, valueFits c (opField op.request.header) v = true) ∧ ∀ b, v ≠ .byte b) ∨
    (∃ ph', (wordPhase op ph w s).ctl = .busy op ph' ∧ (wordPhase op ph w s).portLog = s.portLog ∧
      (op = .seek → ph' = .skX ∨ ph' = .skR)) := by
  have fin : ∀ (os : List DetectedObject) c, valueFits c (opField BusyOp.poll.request.header) (.objects os) = true := by
    intro os c; rfl
  have hc := h.1
  cases ph <;> simp only [wordPhase]
  case skR => exact absurd rfl h.2
  case skX =>
    simp only [seekWord]
    split
    · cases op
      · exact .inl ⟨.bit false, rfl, rfl, fun _ => rfl, nofun⟩
      · exact .inl ⟨.objects [], rfl, rfl, fin _, nofun⟩
    · cases op
      · exact .inl ⟨.bit true, rfl, rfl, fun _ => rfl, nofun⟩
      · exact .inr ⟨.dChk, rfl, rfl, nofun⟩
    · exact .inr ⟨.skR, rfl, rfl, fun _ => .inr rfl⟩
    · exact .inr ⟨.skX, rfl, rfl, fun _ => .inl rfl⟩
  all_goals
    have hop : op = .poll := by cases op <;> simp_all
    subst hop
  case dChk =>
    simp only [checksumWord]
    split
    · exact .inl ⟨_, rfl, rfl, fin _, nofun⟩
    · exact .inl ⟨_, rfl, rfl, fin _, nofun⟩
    · exact .inl ⟨_, rfl, rfl, fin _, nofun⟩
    · exact .inr ⟨_, rfl, rfl, nofun⟩
    · exact .inr ⟨_, rfl, rfl, nofun⟩
  case dH =>
    simp only [heightWord]
    split <;> exact .inr ⟨_, rfl, rfl, nofun⟩
  case dTrail =>
    simp only [trailingWord]
    split
    · exact .inr ⟨_, rfl, rfl, nofun⟩
    · exact .inr ⟨_, rfl, rfl, nofun⟩
    · exact .inl ⟨_, rfl, rfl, fin _, nofun⟩
    · exact .inl ⟨_, rfl, rfl, fin _, nofun⟩
    · exact .inl ⟨_, rfl, rfl, fin _, nofun⟩
  all_goals exact .inr ⟨_, rfl, rfl, nofun⟩

/-! ### An instruction at a ready port -/

/-- Every effect an instruction can have when the port is ready and no fault is recorded. -/
inductive Effect (i : Instr) (s : State) : State → Prop
  /-- A row of the wire: no exchange is due. -/
  | nothing : Effect i s s
  /-- A pseudo-operation out of range. -/
  | invalid : Effect i s (raiseInvalidArgument s)
  /-- An illegal request. -/
  | illegal (r : Request) (hi : illegalHeader r.header = true) : Effect i s (respond r .illegal s)
  /-- An answer that takes and adds no byte: the queries, and a command that does not fit. -/
  | answered (r : Request) (v : Value) (hl : illegalHeader r.header = false)
      (hv : valueFits s.cfg.capacity (opField r.header) v = true) (hb : ∀ b, v ≠ .byte b) :
      Effect i s (respond r (.ok v) s)
  /-- A byte or a command that fits. -/
  | queued (r : Request) (v : Value) (q' : Queue) (hl : illegalHeader r.header = false)
      (hv : valueFits s.cfg.capacity (opField r.header) v = true) (hb : ∀ b, v ≠ .byte b) (hn : v ≠ .bit false)
      (hg : Good s.cfg.capacity q') (hq : q'.bytes s.cfg.capacity = s.queued ++ r.offered) :
      Effect i s (respond r (.ok v) (s.setQ q'))
  /-- A DEQ of a non-empty queue. -/
  | dequeued (d : Byte) (q' : Queue) (hd : i = .deq) (hg : Good s.cfg.capacity q')
      (hq : s.queued = d :: q'.bytes s.cfg.capacity) :
      Effect i s (respond (bareRequest 0x2#4) (.ok (.byte d)) (s.setQ q'))
  /-- A DEQ of an empty queue. -/
  | underflow (hd : i = .deq) (hc : s.q.count = 0) : Effect i s (raiseUnderflow (bareRequest 0x2#4) s)
  /-- TRANSACT. -/
  | transacted (u : State) (hu : (drawWord s).2.Exchanged (drawWord s).1 u) (hg : Good s.cfg.capacity u.q) :
      Effect i s (respond (bareRequest 0x7#4) (.ok (.word (drawWord s).1)) u)
  /-- RESYNC. -/
  | resynced : Effect i s (respond (bareRequest 0x8#4) (.ok .none) (exchangeOne (drawByte s).1 (drawByte s).2))
  /-- SEEK is accepted. -/
  | seeking (hs : i = .seek) : Effect i s (startSeek .seek s)
  /-- POLL is accepted. -/
  | polling (hp : i = .poll) : Effect i s (startPoll s)

theorem illegalHeader_headerOf (op : BitVec 4) (imm : Byte) :
    illegalHeader (headerOf op imm) =
      (decide (op ∈ [0x0#4, 0xC#4, 0xD#4, 0xE#4, 0xF#4]) || (!(decide (op ∈ [0x1#4, 0x3#4, 0x9#4])) && imm != 0#8)) := by
  simp [illegalHeader]

/-! The shape of each operation's answer (spec/30_encoding.md R80). -/

theorem fits_enq (c : Nat) (imm : Byte) (b : Bool) : valueFits c (opField (headerOf 0x1#4 imm)) (.bit b) = true := by
  rw [opField_headerOf]; rfl
theorem fits_enqcmd (c : Nat) (imm : Byte) (b : Bool) : valueFits c (opField (headerOf 0x3#4 imm)) (.bit b) = true := by
  rw [opField_headerOf]; rfl
theorem fits_cap (c : Nat) (imm : Byte) : valueFits c (opField (headerOf 0x4#4 imm)) (.count c) = true := by
  rw [opField_headerOf]; exact beq_self_eq_true c
theorem fits_size {c n : Nat} (imm : Byte) (h : n ≤ c) : valueFits c (opField (headerOf 0x5#4 imm)) (.count n) = true := by
  rw [opField_headerOf]; exact decide_eq_true h
theorem fits_empty (c : Nat) (imm : Byte) (b : Bool) : valueFits c (opField (headerOf 0x6#4 imm)) (.bit b) = true := by
  rw [opField_headerOf]; rfl
theorem fits_send (c : Nat) (imm : Byte) : valueFits c (opField (headerOf 0x9#4 imm)) .none = true := by
  rw [opField_headerOf]; rfl

/-- SEND at a ready port. -/
theorem sendCommand_effect (i : Instr) (p : List Byte) {s : State} (hg : Good s.cfg.capacity s.q) (hr : s.ready) :
    ∃ t, sendCommand p s = .next t ∧ Effect i s t := by
  simp only [sendCommand, acceptRequest_ready _ _ hr]
  by_cases hf : p.length ≤ freeBytes s.cfg.capacity s.q
  · obtain ⟨q', h1, h2, h3, -⟩ := enqueueAll_fits p hg hf
    rw [h1]
    exact ⟨_, rfl, .queued _ _ q' (by simp [payloadRequestOf, illegalHeader_headerOf]) (fits_send _ _)
      nofun nofun h2 (by rw [h3]; simp [State.queued, Request.offered, payloadRequestOf])⟩
  · rw [enqueueAll_full p hf]
    exact ⟨_, rfl, .answered _ _ (by simp [payloadRequestOf, illegalHeader_headerOf]) (fits_send _ _) nofun⟩

/-- At a ready port an instruction always completes, with one of the effects listed. -/
theorem exec_ready (i : Instr) {s : State} (hg : Good s.cfg.capacity s.q) (hr : s.ready) :
    ∃ t, exec i s = .next t ∧ Effect i s t := by
  have hf := frameDue_ready hr.1
  have hw : ∀ w, receiveWord w s = .next s := by
    intro w
    have := hr.1
    cases h : s.ctl <;> simp_all [receiveWord, portReady]
  cases i
  case enq b =>
    simp only [exec, execEnq, acceptRequest_ready _ _ hr]
    split
    · rename_i hc
      obtain ⟨q', h1, h2, h3, -⟩ := pushByte_spec b hg hc
      rw [h1]
      exact ⟨_, rfl, .queued _ _ q' (by simp [illegalHeader_headerOf]) (fits_enq _ _ _) nofun nofun h2
        (by rw [h3]; simp [State.queued, Request.offered])⟩
    · exact ⟨_, rfl, .answered _ _ (by simp [illegalHeader_headerOf]) (fits_enq _ _ _) nofun⟩
  case deq =>
    simp only [exec, execDeq, acceptRequest_ready _ _ hr]
    split
    · rename_i hc
      exact ⟨_, rfl, .underflow rfl hc⟩
    · rename_i hc
      obtain ⟨d, q', h1, h2, h3, -⟩ := popByte_spec hg (Nat.pos_of_ne_zero hc)
      rw [h1]
      exact ⟨_, rfl, .dequeued d q' rfl h2 h3⟩
  case enqcmd p =>
    simp only [exec, execEnqcmd, acceptRequest_ready _ _ hr]
    by_cases hp : p.length ≤ freeBytes s.cfg.capacity s.q
    · obtain ⟨q', h1, h2, h3, -⟩ := enqueueAll_fits p hg hp
      rw [h1]
      exact ⟨_, rfl, .queued _ _ q' (by simp [payloadRequestOf, illegalHeader_headerOf]) (fits_enqcmd _ _ _)
        nofun nofun h2 (by rw [h3]; simp [State.queued, Request.offered, payloadRequestOf])⟩
    · rw [enqueueAll_full p hp]
      exact ⟨_, rfl, .answered _ _ (by simp [payloadRequestOf, illegalHeader_headerOf]) (fits_enqcmd _ _ _)
        nofun⟩
  case cap =>
    simp only [exec, execCap, acceptRequest_ready _ _ hr]
    exact ⟨_, rfl, .answered _ _ rfl (fits_cap _ _) nofun⟩
  case size =>
    simp only [exec, execSize, acceptRequest_ready _ _ hr]
    exact ⟨_, rfl, .answered _ _ rfl (fits_size _ hg.inRange.count_le) nofun⟩
  case empty =>
    simp only [exec, execEmpty, acceptRequest_ready _ _ hr]
    exact ⟨_, rfl, .answered _ _ rfl (fits_empty _ _ _) nofun⟩
  case transact =>
    simp only [exec, execTransact, acceptRequest_ready _ _ hr]
    obtain ⟨u, h1, h2, h3⟩ := transactWord_exchanged (drawWord s).1 (s := (drawWord s).2) (by simpa using hg)
    rw [h1, mapNext_next]
    exact ⟨_, rfl, .transacted u h2 (by simpa using h3)⟩
  case resync =>
    simp only [exec, execResync, acceptRequest_ready _ _ hr]
    exact ⟨_, rfl, .resynced⟩
  case send p => exact sendCommand_effect _ p hg hr
  case seek =>
    simp only [exec, execSeek, acceptRequest_ready _ _ hr]
    exact ⟨_, rfl, .seeking rfl⟩
  case poll =>
    simp only [exec, execPoll, acceptRequest_ready _ _ hr]
    exact ⟨_, rfl, .polling rfl⟩
  case servo a b =>
    simp only [exec, execServo]
    split
    · exact sendCommand_effect _ _ hg hr
    · exact ⟨_, rfl, .invalid⟩
  case exposure a =>
    simp only [exec, execExposure]
    split
    · exact sendCommand_effect _ _ hg hr
    · exact ⟨_, rfl, .invalid⟩
  case led a b c =>
    simp only [exec, execLed]
    split
    · exact sendCommand_effect _ _ hg hr
    · exact ⟨_, rfl, .invalid⟩
  case txData d => exact ⟨s, by simp [exec, execTxData, hf], .nothing⟩
  case txIdle => exact ⟨s, by simp [exec, execTxIdle, hf], .nothing⟩
  case txResync => exact ⟨s, by simp [exec, execTxResync, hf], .nothing⟩
  case rxStart => exact ⟨s, hw _, .nothing⟩
  case rxStartCc => exact ⟨s, hw _, .nothing⟩
  case rxOos => exact ⟨s, hw _, .nothing⟩
  case rxZero => exact ⟨s, hw _, .nothing⟩
  case rxData w => exact ⟨s, hw _, .nothing⟩
  all_goals
    simp only [exec, execReserved0, execReservedC, execReservedD, execReservedE, execReservedF, answerIllegal,
      acceptRequest_ready _ _ hr]
    exact ⟨_, rfl, .illegal _ (by simp [illegalHeader, reservedRequest])⟩

/-- With a fault recorded an instruction is answered FAULT, or changes only the host's errors, or nothing. -/
theorem exec_halted (i : Instr) {s : State} (hp : portReady s = true) (hf : s.fault ≠ .none) :
    ∃ t, exec i s = .next t ∧ (t = s ∨ t = raiseInvalidArgument s ∨ ∃ r, t = respond r .fault s) := by
  have hd := frameDue_ready hp
  have hw : ∀ w, receiveWord w s = .next s := by
    intro w
    cases h : s.ctl <;> simp_all [receiveWord, portReady]
  have ha : ∀ r run, ∃ t, acceptRequest r run s = .next t ∧
      (t = s ∨ t = raiseInvalidArgument s ∨ ∃ r, t = respond r .fault s) :=
    fun r run => ⟨_, acceptRequest_halted r run hp hf, .inr (.inr ⟨r, rfl⟩)⟩
  cases i
  case servo a b =>
    simp only [exec, execServo]
    split
    · exact ha _ _
    · exact ⟨_, rfl, .inr (.inl rfl)⟩
  case exposure a =>
    simp only [exec, execExposure]
    split
    · exact ha _ _
    · exact ⟨_, rfl, .inr (.inl rfl)⟩
  case led a b c =>
    simp only [exec, execLed]
    split
    · exact ha _ _
    · exact ⟨_, rfl, .inr (.inl rfl)⟩
  case txData d => exact ⟨s, by simp [exec, execTxData, hd], .inl rfl⟩
  case txIdle => exact ⟨s, by simp [exec, execTxIdle, hd], .inl rfl⟩
  case txResync => exact ⟨s, by simp [exec, execTxResync, hd], .inl rfl⟩
  case rxStart => exact ⟨s, hw _, .inl rfl⟩
  case rxStartCc => exact ⟨s, hw _, .inl rfl⟩
  case rxOos => exact ⟨s, hw _, .inl rfl⟩
  case rxZero => exact ⟨s, hw _, .inl rfl⟩
  case rxData w => exact ⟨s, hw _, .inl rfl⟩
  all_goals
    simp only [exec, execEnq, execDeq, execEnqcmd, execCap, execSize, execEmpty, execTransact, execResync, execSend, sendCommand,
      execSeek, execPoll, execReserved0, execReservedC, execReservedD, execReservedE, execReservedF, answerIllegal]
    exact ha _ _

/-! ### The shape of a step -/

/-- A step at a ready port. -/
theorem step_ready {s : State} (hr : s.rst = false) (hp : portReady s = true) :
    step s =
      match fetchRequest s.host with
      | .nothing => .next s
      | .run i rest => exec i (s.setHost rest)
      | .illegal h rest => answerIllegal { header := h, payload := [] } (s.setHost rest) := by
  simp only [step, nextAction, hr, frameDue_ready hp]
  cases fetchRequest s.host <;> rfl

/-- The step of a controller that awaits a word receives the environment's next word, whichever name it goes by. -/
theorem step_busy {s : State} {op : BusyOp} {ph : Phase} (hr : s.rst = false) (h : s.awaitsWord op ph) :
    step s = receiveWord (drawWord s).1 (drawWord s).2 := by
  have key : ∀ f, frameDue s = some f → f ≠ .resync →
      exec (exchangeInstr f s).1 (exchangeInstr f s).2 = receiveWord (drawWord s).1 (drawWord s).2 := by
    intro f hf hn
    match hx : s.rxIn with
    | [] => cases f <;> simp_all [exchangeInstr, TxFrame.instr, exec, execTxData, execTxIdle]
    | [_] => cases f <;> simp_all [exchangeInstr, TxFrame.instr, exec, execTxData, execTxIdle]
    | _ :: _ :: _ => cases f <;> simp_all [exchangeInstr, exec_decodeRx]
  have hf := frameDue_busy h
  by_cases hq : 0 < s.q.count
  · rw [if_pos hq] at hf
    simpa only [step, nextAction, hr, hf, Bool.false_eq_true, if_false] using key _ hf nofun
  · rw [if_neg hq] at hf
    simpa only [step, nextAction, hr, hf, Bool.false_eq_true, if_false] using key _ hf nofun

/-- The step of phase SK_R. -/
theorem step_skR {s : State} {op : BusyOp} (hr : s.rst = false) (h : s.ctl = .busy op .skR) :
    step s = .next ((exchangeOne (drawByte s).1 (drawByte s).2).setCtl (.busy op .skX)) := by
  have hf := frameDue_skR h
  simp only [step, nextAction, hr, hf, exchangeInstr, Bool.false_eq_true, if_false, exec, execTxResync, if_true, receiveByte,
    drawByte_ctl, h]

/-- Receiving a word in a state whose queue is good: the exchange, then the phase's updates. -/
theorem receiveWord_spec {s : State} (hg : Good s.cfg.capacity s.q) {op : BusyOp} {ph : Phase} (h : s.awaitsWord op ph)
    (w : Word) : ∃ u, s.Exchanged w u ∧ receiveWord w s = .next (wordPhase op ph w u) ∧ Good s.cfg.capacity u.q := by
  obtain ⟨u, h1, h2, h3⟩ := transactWord_exchanged w hg
  exact ⟨u, h2, by rw [receiveWord_busy w h, h1, mapNext_next], h3⟩

/-- A header rejected for its reserved bits or an unused byte is illegal (R81). -/
theorem decodeHeader_error {h : Beat} {bs : List Beat} {e : DecodeError} (hd : decodeHeader h bs = .error e) :
    illegalHeader h = true ∨ e = .incomplete h := by
  have hne : ∀ k : BitVec 4, (opField h).toNat ≠ k.toNat → opField h ≠ k := fun k hk he => hk (by rw [he])
  have h1 := hne 0x1#4
  have h3 := hne 0x3#4
  have h9 := hne 0x9#4
  by_cases hr : rsvField h = 0#4
  · simp only [decodeHeader, decodeImm, decodeBare, decodePayload, hr, if_true] at hd
    split at hd <;> rename_i ho
    case h_4 | h_10 =>
      split at hd
      · cases hd
      · exact .inr (by simpa using hd.symm)
    all_goals
      left
      by_cases hi : immField h = 0#8
      · simp_all
      · simp only [illegalHeader, hr, Bool.or_eq_true, Bool.and_eq_true]
        simp_all
  · exact .inl (by simp [illegalHeader, hr])

/-- What the port finds as an illegal header of a defined operation is one. -/
theorem fetchRequest_illegal {items rest : List HostItem} {h : Beat} (hf : fetchRequest items = .illegal h rest) :
    items = .beat h :: rest ∧ illegalHeader h = true := by
  cases items with
  | nil => simp [fetchRequest] at hf
  | cons it items =>
    cases it with
    | call c => simp [fetchRequest] at hf
    | beat h' =>
      simp only [fetchRequest] at hf
      split at hf
      · cases hf
      · rename_i he
        simp only [Fetched.illegal.injEq] at hf
        obtain ⟨rfl, rfl⟩ := hf
        exact ⟨rfl, (decodeHeader_error he).resolve_right nofun⟩
      · rename_i he
        simp only [Fetched.illegal.injEq] at hf
        obtain ⟨rfl, rfl⟩ := hf
        exact ⟨rfl, (decodeHeader_error he).resolve_right nofun⟩
      · cases hf

/-- The header of a request without operand is the only one that decodes to it. -/
theorem decodeRequest_bare {h : Beat} {bs left : List Beat} {i : Instr} (hd : decodeRequest (h :: bs) = .ok (i, left)) :
    (i = .deq → h = 0x2000#16) ∧ (i = .seek → h = 0xA000#16) ∧ (i = .poll → h = 0xB000#16) := by
  have he : ∀ n : Nat, (opField h).toNat = n → rsvField h = 0#4 → immField h = 0#8 → h = headerOf (BitVec.ofNat 4 n) 0#8 := by
    intro n hn hr hi
    rw [← header_eta h hr, hi, ← hn, BitVec.ofNat_toNat, BitVec.setWidth_eq]
  simp only [decodeRequest, decodeHeader, decodeImm, decodeBare, decodePayload] at hd
  split at hd <;> rename_i ho
  all_goals
    repeat (first | split at hd | fail)
  all_goals first
    | (cases hd; done)
    | (simp only [Except.ok.injEq, Prod.mk.injEq] at hd
       obtain ⟨rfl, -⟩ := hd
       refine ⟨?_, ?_, ?_⟩
       all_goals first
         | (intro hi; cases hi; done)
         | (intro _; rw [he _ ho ‹_› ‹_›]; rfl))

/-- The beat in front of a fetched DEQ, SEEK or POLL is its header, and nothing else is consumed. -/
theorem fetchRequest_bare {items rest : List HostItem} {i : Instr} (hf : fetchRequest items = .run i rest) :
    (i = .deq → items = .beat 0x2000#16 :: rest) ∧ (i = .seek → items = .beat 0xA000#16 :: rest) ∧
    (i = .poll → items = .beat 0xB000#16 :: rest) := by
  cases items with
  | nil => simp [fetchRequest] at hf
  | cons it items =>
    cases it with
    | call c =>
      simp only [fetchRequest, Fetched.run.injEq] at hf
      obtain ⟨rfl, -⟩ := hf
      cases c <;> exact ⟨nofun, nofun, nofun⟩
    | beat h =>
      simp only [fetchRequest] at hf
      split at hf
      · rename_i hd
        simp only [Fetched.run.injEq] at hf
        obtain ⟨rfl, rfl⟩ := hf
        obtain ⟨h1, h2, h3⟩ := decodeRequest_bare hd
        refine ⟨fun e => ?_, fun e => ?_, fun e => ?_⟩
        · rw [h1 e]; rfl
        · rw [h2 e]; rfl
        · rw [h3 e]; rfl
      all_goals cases hf

/-- Every way a step can go from a state that meets the invariant. -/
theorem step_cases {s : State} (hi : s.Inv) :
    (s.rst = true ∧ step s = .next (resetBlock s)) ∨
    (s.rst = false ∧ portReady s = true ∧ step s = .next s) ∨
    (s.rst = false ∧ portReady s = true ∧ ∃ h rest, s.host = .beat h :: rest ∧
      step s = answerIllegal { header := h, payload := [] } (s.setHost rest) ∧ illegalHeader h = true) ∨
    (s.rst = false ∧ portReady s = true ∧ ∃ i rest, fetchRequest s.host = .run i rest ∧ step s = exec i (s.setHost rest)) ∨
    (s.rst = false ∧ ∃ op, s.ctl = .busy op .skR ∧
      step s = .next ((exchangeOne (drawByte s).1 (drawByte s).2).setCtl (.busy op .skX))) ∨
    (s.rst = false ∧ ∃ op ph u, s.awaitsWord op ph ∧ (drawWord s).2.Exchanged (drawWord s).1 u ∧ Good s.cfg.capacity u.q ∧
      step s = .next (wordPhase op ph (drawWord s).1 u)) := by
  cases hr : s.rst
  case true => exact .inl ⟨rfl, by simp [step, nextAction, hr]⟩
  right
  cases hp : portReady s
  case true =>
    have hs := step_ready hr hp
    cases hf : fetchRequest s.host with
    | nothing => exact .inl ⟨rfl, rfl, by rw [hs, hf]⟩
    | run i rest => exact .inr (.inr (.inl ⟨rfl, rfl, i, rest, rfl, by rw [hs, hf]⟩))
    | illegal h rest =>
      obtain ⟨h1, h2⟩ := fetchRequest_illegal hf
      exact .inr (.inl ⟨rfl, rfl, h, rest, h1, by rw [hs, hf], h2⟩)
  case false =>
    obtain ⟨op, ph, hc⟩ := portReady_eq_false.mp hp
    by_cases hph : ph = .skR
    · subst hph
      exact .inr (.inr (.inr (.inl ⟨rfl, op, hc, step_skR hr hc⟩)))
    · have hw : (drawWord s).2.awaitsWord op ph := ⟨by simpa using hc, hph⟩
      obtain ⟨u, h1, h2, h3⟩ := receiveWord_spec (good_drawWord hi) hw (drawWord s).1
      exact .inr (.inr (.inr (.inr ⟨rfl, op, ph, u, ⟨hc, hph⟩, h1, by simpa using h3, by rw [step_busy hr ⟨hc, hph⟩, h2]⟩)))

end Sys2Proof.Laws
end

