-- ==== Sys2Proof/Laws/Requests.lean ====
section
/-! SUPPORT. Requests from their beats: what the port fetches from a header and the payload its length asks for, and that the
instruction fetched is answered as that request. -/

namespace Sys2Proof.Laws

open Sys2Proof.Machine

/-- A payload byte is the low byte of its beat. -/
theorem payload_of_beats (p : List Byte) : (p.map payloadBeat).map (fun b => b.extractLsb' 0 8) = p :=
  map_payloadByte_payloadBeat p

/-- The beats in front of what the host has lined up. -/
theorem portBeats_map (bs : List Beat) (items : List HostItem) :
    portBeats (bs.map HostItem.beat ++ items) = bs ++ portBeats items := by
  induction bs with
  | nil => rfl
  | cons b bs ih => simp [portBeats, ih]

theorem lengthByte_of_length {p : List Byte} {imm : Byte} (h : p.length = imm.toNat) : lengthByte p = imm := by
  simp [lengthByte, h]

/-! ### Decoding a header with the payload its length asks for -/

/-- What decoding a header and its payload can answer: the instruction with exactly these words, or an illegal header of one beat. -/
def ReadsAs (h : Beat) (p : List Byte) (more : List Beat) (r : Except DecodeError (Instr × List Beat)) : Prop :=
  (∃ i, r = .ok (i, more) ∧ i.isPseudo = false ∧ encode i = .request (h :: p.map payloadBeat)) ∨
    (p = [] ∧ (r = .error (.reservedField h) ∨ r = .error (.unusedImm h)))

theorem decodeImm_reads {h : Beat} {mk : Byte → Instr} {op : BitVec 4} (ho : opField h = op) (more : List Beat)
    (he : ∀ b, (mk b).isPseudo = false ∧ encode (mk b) = .request [headerOf op b]) : ReadsAs h [] more (decodeImm h mk more) := by
  by_cases hr : rsvField h = 0#4
  · exact .inl ⟨_, if_pos hr, (he _).1, by rw [(he _).2, ← ho, header_eta h hr]; rfl⟩
  · exact .inr ⟨rfl, .inl (if_neg hr)⟩

theorem decodeBare_reads {h : Beat} {i : Instr} {op : BitVec 4} (ho : opField h = op) (more : List Beat)
    (hp : i.isPseudo = false) (he : encode i = .request [headerOf op 0#8]) : ReadsAs h [] more (decodeBare h i more) := by
  by_cases hr : rsvField h = 0#4
  · by_cases hz : immField h = 0#8
    · exact .inl ⟨i, by simp [decodeBare, hr, hz], hp, by rw [he, ← ho, ← hz, header_eta h hr]; rfl⟩
    · exact .inr ⟨rfl, .inr (by simp [decodeBare, hr, hz])⟩
  · exact .inr ⟨rfl, .inl (if_neg hr)⟩

theorem decodePayload_reads {h : Beat} {mk : List Byte → Instr} {op : BitVec 4} (ho : opField h = op)
    (hop : op = 0x3#4 ∨ op = 0x9#4) {p : List Byte} (hl : requestLength h = p.length + 1) (more : List Beat)
    (he : ∀ p, (mk p).isPseudo = false ∧ encode (mk p) = .request (payloadRequest op p)) :
    ReadsAs h p more (decodePayload h mk (p.map payloadBeat ++ more)) := by
  by_cases hr : rsvField h = 0#4
  · have hlen : p.length = (immField h).toNat := by
      have : requestLength h = 1 + (immField h).toNat := if_pos ⟨hr, by rwa [ho]⟩
      omega
    refine .inl ⟨mk p, ?_, (he p).1, ?_⟩
    · simp [decodePayload, hr, ← hlen, -List.map_map]
    · rw [(he p).2, payloadRequest, lengthByte_of_length hlen, ← ho, header_eta h hr]
  · have : requestLength h = 1 := if_neg fun hn => hr hn.1
    exact .inr ⟨List.length_eq_zero_iff.mp (by omega), .inl (if_neg hr)⟩

theorem reserved_reads {h : Beat} {mk : BitVec 12 → Instr} {op : BitVec 4} (ho : opField h = op) (more : List Beat)
    (he : ∀ r, (mk r).isPseudo = false ∧ encode (mk r) = .request [reservedHeader op r]) :
    ReadsAs h [] more (.ok (mk (restField h), more)) :=
  .inl ⟨_, rfl, (he _).1, by rw [(he _).2, ← ho, reservedHeader_eta]; rfl⟩

theorem decodeRequest_beats (h : Beat) (p : List Byte) (more : List Beat) (hl : requestLength h = p.length + 1) :
    ReadsAs h p more (decodeRequest (h :: (p.map payloadBeat ++ more))) := by
  have ops : ∀ op : BitVec 4, op = 0x0#4 ∨ op = 0x1#4 ∨ op = 0x2#4 ∨ op = 0x3#4 ∨ op = 0x4#4 ∨ op = 0x5#4 ∨ op = 0x6#4 ∨
      op = 0x7#4 ∨ op = 0x8#4 ∨ op = 0x9#4 ∨ op = 0xA#4 ∨ op = 0xB#4 ∨ op = 0xC#4 ∨ op = 0xD#4 ∨ op = 0xE#4 ∨ op = 0xF#4 := by
    decide
  have one : opField h ≠ 0x3#4 → opField h ≠ 0x9#4 → p = [] := fun h3 h9 => by
    have : requestLength h = 1 := if_neg fun hn => hn.2.elim h3 h9
    exact List.length_eq_zero_iff.mp (by omega)
  rcases ops (opField h) with
    ho | ho | ho | ho | ho | ho | ho | ho | ho | ho | ho | ho | ho | ho | ho | ho <;>
    simp only [decodeRequest, decodeHeader, ho, BitVec.toNat_ofNat, Nat.reducePow, Nat.reduceMod]
  case inr.inr.inr.inl => exact decodePayload_reads ho (.inl rfl) hl more fun _ => ⟨rfl, rfl⟩
  case inr.inr.inr.inr.inr.inr.inr.inr.inr.inl => exact decodePayload_reads ho (.inr rfl) hl more fun _ => ⟨rfl, rfl⟩
  all_goals
    obtain rfl : p = [] := one (by rw [ho]; decide) (by rw [ho]; decide)
    first
    | exact decodeBare_reads ho more rfl rfl
    | exact decodeImm_reads ho more fun _ => ⟨rfl, rfl⟩
    | exact reserved_reads ho more fun _ => ⟨rfl, rfl⟩

/-- A header and its payload at the front of what the host has lined up: the port fetches the instruction with these words, or an
illegal header of one beat, and leaves the rest. -/
theorem fetchRequest_beats {h : Beat} {p : List Byte} (rest : List HostItem) (hl : requestLength h = p.length + 1) :
    (∃ i, fetchRequest (.beat h :: (p.map payloadBeat).map HostItem.beat ++ rest) = .run i rest ∧ i.isPseudo = false ∧
      encode i = .request (h :: p.map payloadBeat)) ∨
    (p = [] ∧ fetchRequest (.beat h :: (p.map payloadBeat).map HostItem.beat ++ rest) = .illegal h rest) := by
  simp only [List.cons_append, fetchRequest, portBeats_map]
  rcases decodeRequest_beats h p (portBeats rest) hl with ⟨i, hd, hp, he⟩ | ⟨rfl, hd | hd⟩
  · refine .inl ⟨i, ?_, hp, he⟩
    rw [hd]
    simp only [hl, Nat.add_sub_cancel]
    rw [List.drop_left' (by simp)]
  · exact .inr ⟨rfl, by rw [hd]; rfl⟩
  · exact .inr ⟨rfl, by rw [hd]; rfl⟩

/-! ### Running a request -/

/-- An instruction with the words of a request is that request, presented at the port. -/
theorem exec_request {i : Instr} {h : Beat} {bs : List Beat} (hp : i.isPseudo = false) (he : encode i = .request (h :: bs)) :
    ∃ run, ∀ s, exec i s = acceptRequest { header := h, payload := bs.map payloadByte } run s := by
  cases i <;> simp only [Instr.isPseudo, Bool.true_eq_false] at hp <;>
    simp only [encode, payloadRequest, Words.request.injEq, List.cons.injEq, reduceCtorEq] at he
  all_goals
    obtain ⟨rfl, rfl⟩ := he
    try rw [map_payloadByte_payloadBeat]
    exact ⟨_, fun _ => rfl⟩

/-- At a ready port a request that is no SEEK or POLL is answered in the step that accepts it, once and as that request, and
consumes nothing more. -/
theorem exec_answers {i : Instr} {h : Beat} {bs : List Beat} {s : State} (hp : i.isPseudo = false)
    (he : encode i = .request (h :: bs)) (hs : i ≠ .seek) (hq : i ≠ .poll) (hg : Good s.cfg.capacity s.q) (hr : s.ready) :
    ∃ u a, exec i s = .next (respond { header := h, payload := bs.map payloadByte } a u) ∧ u.portLog = s.portLog ∧
      u.host = s.host ∧ portReady u = true := by
  cases i <;> simp only [Instr.isPseudo, Bool.true_eq_false] at hp <;>
    simp only [encode, payloadRequest, Words.request.injEq, List.cons.injEq, reduceCtorEq] at he <;>
    obtain ⟨rfl, rfl⟩ := he
  case seek => exact absurd rfl hs
  case poll => exact absurd rfl hq
  case enq b =>
    simp only [exec, execEnq, acceptRequest_ready _ _ hr]
    split
    · rename_i hc
      obtain ⟨q', h1, -⟩ := pushByte_spec b hg hc
      rw [h1]
      exact ⟨s.setQ q', _, rfl, rfl, rfl, hr.1⟩
    · exact ⟨s, _, rfl, rfl, rfl, hr.1⟩
  case deq =>
    simp only [exec, execDeq, acceptRequest_ready _ _ hr]
    split
    · exact ⟨(s.setFault .underflow).setCtl .halt, _, rfl, rfl, rfl, rfl⟩
    · rename_i hc
      obtain ⟨d, q', h1, -⟩ := popByte_spec hg (Nat.pos_of_ne_zero hc)
      rw [h1]
      exact ⟨s.setQ q', _, rfl, rfl, rfl, hr.1⟩
  case enqcmd p =>
    rw [map_payloadByte_payloadBeat]
    simp only [exec, execEnqcmd, acceptRequest_ready _ _ hr]
    by_cases hf : p.length ≤ freeBytes s.cfg.capacity s.q
    · obtain ⟨q', h1, -⟩ := enqueueAll_fits p hg hf
      rw [h1]
      exact ⟨s.setQ q', _, rfl, rfl, rfl, hr.1⟩
    · rw [enqueueAll_full p hf]
      exact ⟨s, _, rfl, rfl, rfl, hr.1⟩
  case send p =>
    rw [map_payloadByte_payloadBeat]
    simp only [exec, execSend, sendCommand, acceptRequest_ready _ _ hr]
    by_cases hf : p.length ≤ freeBytes s.cfg.capacity s.q
    · obtain ⟨q', h1, -⟩ := enqueueAll_fits p hg hf
      rw [h1]
      exact ⟨s.setQ q', _, rfl, rfl, rfl, hr.1⟩
    · rw [enqueueAll_full p hf]
      exact ⟨s.setQ s.q, _, rfl, rfl, rfl, hr.1⟩
  case transact =>
    simp only [exec, execTransact, acceptRequest_ready _ _ hr]
    obtain ⟨u, h1, h2, -⟩ := transactWord_exchanged (drawWord s).1 (s := (drawWord s).2) (by simpa using hg)
    have hf := Exchanged.frame h2
    rw [h1, mapNext_next]
    exact ⟨u, _, rfl, by rw [hf]; simp, by rw [hf]; simp, by rw [hf]; simpa [portReady] using hr.1⟩
  case resync =>
    simp only [exec, execResync, acceptRequest_ready _ _ hr]
    exact ⟨exchangeOne (drawByte s).1 (drawByte s).2, _, rfl, by simp, by simp, by simpa [portReady] using hr.1⟩
  all_goals
    simp only [exec, execCap, execSize, execEmpty, execReserved0, execReservedC, execReservedD, execReservedE, execReservedF,
      answerIllegal, acceptRequest_ready _ _ hr]
    exact ⟨s, _, rfl, rfl, rfl, hr.1⟩

end Sys2Proof.Laws
end

