-- ==== Sys2Proof/Tests/Slice0.lean ====
section
/-! SUPPORT. Tests of single steps and of the decoder, with the expected values of spec/95_test_vectors.md, and for every statement
with hypotheses a named witness that meets them. -/

namespace Sys2Proof.Tests

open Sys2Proof Sys2Proof.Machine

/-! ### Small states -/

/-- Idle, with the given bytes queued from index 0 on. -/
def idle (capacity : Nat) (bytes : List Byte) : State :=
  { State.reset with cfg := { capacity := capacity }, q := queueOf capacity bytes }

/-- In phase `ph` of `op`, with the given bytes queued and the given answers lined up. -/
def busy (op : BusyOp) (ph : Phase) (bytes answers : List Byte) : State :=
  { idle 4 bytes with ctl := .busy op ph, rxIn := answers }

/-- A seek whose previous word is `prev`. -/
def seeking (op : BusyOp) (prev : Word) (answers : List Byte) : State :=
  { busy op .skX [] answers with sync := { prev := prev, cur := prev } }

/-- Halted by an underflow. -/
def halted : State := { idle 4 [] with fault := .underflow, ctl := .halt }

/-- A queue of four that has wrapped: it holds 0x33 at index 2 and 0x44 at index 3 (V-F6). -/
def wrapped : State :=
  { idle 4 [] with q := { buf := [(0, 0x11#8), (1, 0x22#8), (2, 0x33#8), (3, 0x44#8)], head := 2, tail := 0, count := 2 } }

/-- 59 bytes queued at CAPACITY 64 (W5b). -/
def nearlyFull : State :=
  { idle 64 [] with q := { buf := [], head := 0, tail := 59, count := 59 } }

/-- With the given beats presented at the port. -/
def presenting (s : State) (beats : List Beat) : State := { s with host := beats.map HostItem.beat }

/-- What a next state shows, if the outcome is one. -/
def after {α : Type} (o : Result) (f : State → α) : Option α := (nextState o).map f

/-- The last answer at the port. -/
def answer (s : State) : Option Response := (s.portLog.getLast?).map Prod.snd

/-- The bytes sent in the last exchange. -/
def sent (s : State) : Option (List Byte) := (s.wire.getLast?).map Exchange.tx

/-! ### Well-formedness refuses -/

theorem test_wellFormed_payload_limit : (Instr.enqcmd (List.replicate 256 0#8)).wellFormed = false ∧
    (Instr.send (List.replicate 256 0#8)).wellFormed = false ∧ (Instr.enqcmd (List.replicate 255 0#8)).wellFormed = true ∧
    (Instr.send (List.replicate 255 0#8)).wellFormed = true := by
  simp only [Instr.wellFormed, List.length_replicate]
  decide
theorem test_wellFormed_markers_are_no_data : (Instr.rxData 0x0000#16).wellFormed = false ∧
    (Instr.rxData 0xAA55#16).wellFormed = false ∧ (Instr.rxData 0xAA56#16).wellFormed = false ∧
    (Instr.rxData 0x55AA#16).wellFormed = false ∧ (Instr.rxData 0x0001#16).wellFormed = true := by decide

/-! ### Decoding, from words written out field by field (spec/30_encoding.md R71, R73, R75, R76, R81; table 2.1) -/

theorem test_decode_enq : decodeRequest [0b0001#4 ++ 0b0000#4 ++ 0b10010110#8] = .ok (.enq 0x96#8, []) := by decide
theorem test_decode_deq : decodeRequest [0b0010#4 ++ 0b0000#4 ++ 0b00000000#8] = .ok (.deq, []) := by decide
theorem test_decode_enqcmd : decodeRequest [0b0011#4 ++ 0b0000#4 ++ 0b00000010#8, 0x0001#16, 0x00FE#16, 0x5000#16] =
    .ok (.enqcmd [0x01#8, 0xFE#8], [0x5000#16]) := by decide
theorem test_decode_cap : decodeRequest [0b0100#4 ++ 0b0000#4 ++ 0b00000000#8] = .ok (.cap, []) := by decide
theorem test_decode_size : decodeRequest [0b0101#4 ++ 0b0000#4 ++ 0b00000000#8] = .ok (.size, []) := by decide
theorem test_decode_empty : decodeRequest [0b0110#4 ++ 0b0000#4 ++ 0b00000000#8] = .ok (.empty, []) := by decide
theorem test_decode_transact : decodeRequest [0b0111#4 ++ 0b0000#4 ++ 0b00000000#8] = .ok (.transact, []) := by decide
theorem test_decode_resync : decodeRequest [0b1000#4 ++ 0b0000#4 ++ 0b00000000#8] = .ok (.resync, []) := by decide
theorem test_decode_send : decodeRequest [0b1001#4 ++ 0b0000#4 ++ 0b00000011#8, 0x0000#16, 0x00FE#16, 0x0080#16] =
    .ok (.send [0x00#8, 0xFE#8, 0x80#8], []) := by decide
theorem test_decode_seek : decodeRequest [0b1010#4 ++ 0b0000#4 ++ 0b00000000#8] = .ok (.seek, []) := by decide
theorem test_decode_poll : decodeRequest [0b1011#4 ++ 0b0000#4 ++ 0b00000000#8] = .ok (.poll, []) := by decide
theorem test_decode_reserved0 : decodeRequest [0b0000#4 ++ 0b100000000001#12] = .ok (.reserved0 0x801#12, []) := by decide
theorem test_decode_reservedC : decodeRequest [0b1100#4 ++ 0b000000000000#12] = .ok (.reservedC 0x000#12, []) := by decide
theorem test_decode_reservedD : decodeRequest [0b1101#4 ++ 0b000000000000#12] = .ok (.reservedD 0x000#12, []) := by decide
theorem test_decode_reservedE : decodeRequest [0b1110#4 ++ 0b000000000000#12] = .ok (.reservedE 0x000#12, []) := by decide
theorem test_decode_reservedF : decodeRequest [0b1111#4 ++ 0b111111111111#12] = .ok (.reservedF 0xFFF#12, []) := by decide
theorem test_decode_illegal : decodeRequest [0x1100#16] = .error (.reservedField 0x1100#16) ∧
    decodeRequest [0x40FF#16] = .error (.unusedImm 0x40FF#16) ∧ decodeRequest [0x3105#16] = .error (.reservedField 0x3105#16) ∧
    decodeRequest [0x3001#16] = .error (.incomplete 0x3001#16) ∧ decodeRequest [] = .error .noHeader := by decide
/-- V-H1, V-H2. -/
theorem test_decode_servo : decodeWords (encode (.servo 0 1000)) = .ok (.send [0x00#8, 0xFF#8, 0x00#8, 0x00#8, 0xE8#8, 0x03#8]) ∧
    encode (.servo 500 500) =
      .request [0x9006#16, 0x0000#16, 0x00FF#16, 0x00F4#16, 0x0001#16, 0x00F4#16, 0x0001#16] := by decide
/-- V-H5, V-H7. -/
theorem test_decode_exposure : encode (.exposure 128) = .request [0x9003#16, 0x0000#16, 0x00FE#16, 0x0080#16] ∧
    encode (.exposure 256) = .unissued := by decide
/-- V-H8, V-H9. -/
theorem test_decode_led : encode (.led 255 0 128) =
    .request [0x9005#16, 0x0000#16, 0x00FD#16, 0x00FF#16, 0x0000#16, 0x0080#16] ∧ encode (.led 0 256 0) = .unissued := by decide
theorem test_decode_txData : decodeTx [0b01011011#8, 0b10000001#8] = .ok (.txData 0x81#8) := by decide
theorem test_decode_txIdle : decodeTx [0b01011010#8, 0b00000000#8] = .ok .txIdle ∧
    decodeTx [0b01011010#8, 0b00000001#8] = .error .notAFrame := by decide
theorem test_decode_txResync : decodeTx [0b01011010#8] = .ok .txResync ∧ decodeTx [0b01011011#8] = .error .notAFrame := by decide
theorem test_decode_rxStart : decodeRx (0b10101010#8 ++ 0b01010101#8) = .rxStart := by decide
theorem test_decode_rxStartCc : decodeRx (0b10101010#8 ++ 0b01010110#8) = .rxStartCc := by decide
theorem test_decode_rxOos : decodeRx (0b01010101#8 ++ 0b10101010#8) = .rxOos := by decide
theorem test_decode_rxZero : decodeRx (0b00000000#8 ++ 0b00000000#8) = .rxZero := by decide
theorem test_decode_rxData : decodeRx (wordOfBytes 0x12#8 0x34#8) = .rxData 0x1234#16 := by decide
/-- Rows of spec/opcode_table.json, numbered as it numbers them. -/
theorem test_decode_tableWords : decodeTableWord 16 0x1011 = some (.enq 0x11#8) ∧
    decodeTableWord 16 0x3002 = some (.enqcmd [0x00#8, 0x00#8]) ∧ decodeTableWord 8 0x5A = some .txResync ∧
    decodeTableWord 16 0x5B77 = some (.txData 0x77#8) ∧ decodeTableWord 16 0x5A00 = some .txIdle ∧
    decodeTableWord 16 0xAA55 = some .rxStart ∧ decodeTableWord 16 0x55AA = some .rxOos ∧
    decodeTableWord 16 0x1234 = some (.rxData 0x1234#16) ∧ decodeTableWord 8 0x5B = none := by decide

/-! ### The queue (V-F1 to V-F9, W5) -/

/-- V-F1 and rule R102's example. -/
theorem test_enq : after (exec (.enq 0x11#8) State.reset) (fun t => (t.queued, t.q.tail, answer t)) =
    some ([0x11#8], 1, some (.ok (.bit true))) := by decide
/-- V-F5: a full queue rejects. -/
theorem test_enq_full : after (exec (.enq 0x06#8) (idle 4 [0x01#8, 0x02#8, 0x03#8, 0x04#8])) (fun t => (t.queued, answer t)) =
    some ([0x01#8, 0x02#8, 0x03#8, 0x04#8], some (.ok (.bit false))) := by decide
/-- P2, row 11: the head wraps. -/
theorem test_deq : after (exec .deq { wrapped with q := { wrapped.q with head := 3 } }) (fun t => (t.q.head, answer t)) =
    some (0, some (.ok (.byte 0x44#8))) := by decide
/-- V-F3, V-X1. -/
theorem test_deq_underflow : after (exec .deq State.reset) (fun t => (t.fault, t.ctl, answer t)) =
    some (.underflow, .halt, some .fault) := by decide
/-- W5c: Free = 5. -/
theorem test_enqcmd_rejected : after (exec (.enqcmd [0x00#8, 0xFF#8, 0xF4#8, 0x01#8, 0xF4#8, 0x01#8]) nearlyFull)
    (fun t => (t.q, answer t)) = some (nearlyFull.q, some (.ok (.bit false))) := by decide
/-- The tail wraps in the middle of a command (V-F6, R106). -/
theorem test_enqcmd : after (exec (.enqcmd [0x55#8, 0x66#8]) wrapped) (fun t => (t.queued, t.q.tail, answer t)) =
    some ([0x33#8, 0x44#8, 0x55#8, 0x66#8], 2, some (.ok (.bit true))) := by decide
theorem test_cap : after (exec .cap State.reset) answer = some (some (.ok (.count 64))) := by decide
theorem test_size : after (exec .size (idle 4 [0x11#8, 0x22#8])) answer = some (some (.ok (.count 2))) := by decide
theorem test_empty : after (exec .empty State.reset) answer = some (some (.ok (.bit true))) ∧
    after (exec .empty (idle 1 [0x11#8])) answer = some (some (.ok (.bit false))) := by decide

/-! ### The channel (V-C1 to V-C6) -/

/-- V-C2. -/
theorem test_transact : after (exec .transact { idle 4 [0x00#8, 0xFF#8] with rxIn := [0x12#8, 0x34#8] })
    (fun t => (t.queued, sent t, answer t)) = some ([0xFF#8], some [0x5B#8, 0x00#8], some (.ok (.word 0x1234#16))) := by decide
/-- V-C1: the marker is a plain word. -/
theorem test_transact_idle : after (exec .transact { State.reset with rxIn := [0xAA#8, 0x55#8] })
    (fun t => (t.ctx, sent t, answer t)) = some (FrameCtx.reset, some [0x5A#8, 0x00#8], some (.ok (.word 0xAA55#16))) := by decide
/-- V-C3. -/
theorem test_resync : after (exec .resync { idle 4 [0x7E#8] with rxIn := [0x99#8] })
    (fun t => (t.queued, t.rxIn, sent t, answer t)) = some ([0x7E#8], [], some [0x5A#8], some (.ok .none)) := by decide
/-- V-C4, its first request. -/
theorem test_send : after (exec (.send [0x00#8, 0xFE#8, 0x80#8]) State.reset) (fun t => (t.queued, answer t)) =
    some ([0x00#8, 0xFE#8, 0x80#8], some (.ok .none)) := by decide
/-- W5b. -/
theorem test_send_dropped : after (exec (.send [0x00#8, 0xFF#8, 0xF4#8, 0x01#8, 0xF4#8, 0x01#8]) nearlyFull)
    (fun t => (t.q, answer t)) = some (nearlyFull.q, some (.ok .none)) := by decide

/-- R80's widths: a count at CAPACITY 64 takes 7 bits (spec/10_state.md R24), at 63 six. -/
theorem test_value_widths : (Value.count 0).width { capacity := 64 } = some 7 ∧ (Value.count 0).width { capacity := 63 } = some 6 ∧
    (Value.byte 0#8).width Config.standard = some 8 ∧ (Value.word 0#16).width Config.standard = some 16 ∧
    (Value.objects []).width Config.standard = none := by decide

/-! ### Seeking and decoding -/

theorem test_seek : after (exec .seek State.reset) (fun t => (t.ctl, t.sync.prev, t.portLog)) =
    some (.busy .seek .skX, 0xFFFF#16, []) := by decide
theorem test_poll : after (exec .poll State.reset) (fun t => t.ctl) = some (.busy .poll .skX) := by decide
/-- V-D13: skip is cleared on entry. -/
theorem test_poll_skip : after (exec .poll { State.reset with ctx := { bt := .normal, skip := true } })
    (fun t => (t.ctl, t.ctx.skip)) = some (.busy .poll .dChk, false) := by decide
/-- V-S2, its second word. -/
theorem test_rxStart_seek : after (exec .rxStart { seeking .seek 0xAA55#16 [] with ctx := { bt := .colorCode, skip := false } })
    (fun t => (t.ctl, t.ctx.bt, answer t)) = some (.idle, .normal, some (.ok (.bit true))) := by decide
/-- V-D7 with 0xAA55: the next frame's start at checksum position. -/
theorem test_rxStart_checksum : after (exec .rxStart (busy .poll .dChk [] [])) (fun t => (t.ctl, t.ctx, answer t)) =
    some (.idle, { bt := .normal, skip := true }, some (.ok (.objects []))) := by decide
/-- V-S3, its second word. -/
theorem test_rxStartCc_seek : after (exec .rxStartCc (seeking .seek 0xAA55#16 [])) (fun t => (t.ctl, t.ctx.bt, answer t)) =
    some (.idle, .colorCode, some (.ok (.bit true))) := by decide
/-- V-S5: 0xAA56 as the first word ends nothing. -/
theorem test_rxStartCc_first : after (exec .rxStartCc (seeking .seek 0xFFFF#16 [])) (fun t => (t.ctl, t.sync.prev)) =
    some (.busy .seek .skX, 0xAA56#16) := by decide
/-- V-S4: one resync is next. -/
theorem test_rxOos_seek : after (exec .rxOos (seeking .seek 0x1234#16 [])) (fun t => (t.ctl, t.sync.prev)) =
    some (.busy .seek .skR, 0x55AA#16) := by decide
/-- V-D11: 0x55AA as the trailing word ends the frame. -/
theorem test_rxOos_trailing : after (exec .rxOos (busy .poll .dTrail [] [])) (fun t => (t.ctl, answer t)) =
    some (.idle, some (.ok (.objects []))) := by decide
/-- V-S1 and V-S12: two zeros end a seek, one does not. -/
theorem test_rxZero_seek : after (exec .rxZero (seeking .seek 0x0000#16 [])) (fun t => (t.ctl, answer t)) =
      some (.idle, some (.ok (.bit false))) ∧
    after (exec .rxZero (seeking .seek 0xFFFF#16 [])) (fun t => t.ctl) = some (.busy .seek .skX) := by decide
/-- V-D12: 0x0000 at a field position is data. -/
theorem test_rxZero_field : after (exec .rxZero (busy .poll .dSig [] [])) (fun t => (t.ctl, t.dec.sig)) =
    some (.busy .poll .dX, 0x0000#16) := by decide
/-- W3a: the height word completes the record of sum 101. -/
theorem test_rxData_height : after (exec (.rxData 0x0028#16) { busy .poll .dH [] [] with
      dec := { DecRegs.reset with chk := 0x0065#16, sig := 0x0001#16, x := 0x000A#16, y := 0x0014#16, w := 0x001E#16 } })
    (fun t => (t.ctl, t.dec.objs)) =
    some (.busy .poll .dTrail, [DetectedObject.mk 0x0001#16 0x000A#16 0x0014#16 0x001E#16 0x0028#16 0x0000#16]) := by decide
/-- V-D4 and W3b: the angle is summed; a wrong checksum drops the record. -/
theorem test_rxData_angle : after (exec (.rxData 0x005A#16) { busy .poll .dAng [] [] with
      ctx := { bt := .colorCode, skip := false }
      dec := { DecRegs.reset with
        chk := 0x0198#16, sig := 0x000A#16, x := 0x00A0#16, y := 0x0064#16, w := 0x0020#16, h := 0x0010#16 } })
    (fun t => t.dec.objs.length) = some 1 ∧
    after (exec (.rxData 0x0028#16) { busy .poll .dH [] [] with
      dec := { DecRegs.reset with chk := 0x0066#16, sig := 0x0001#16, x := 0x000A#16, y := 0x0014#16, w := 0x001E#16 } })
    (fun t => t.dec.objs.length) = some 0 := by decide
/-- V-C5, its first exchange: the oldest byte goes out, and the word received is 0x55AA. -/
theorem test_txData : after (exec (.txData 0x00#8) (busy .seek .skX [0x00#8, 0xFE#8, 0x80#8] [0x55#8, 0xAA#8]))
    (fun t => (t.queued, sent t, t.ctl)) = some ([0xFE#8, 0x80#8], some [0x5B#8, 0x00#8], .busy .seek .skR) := by decide
/-- W2a, its second exchange. -/
theorem test_txIdle : after (exec .txIdle (seeking .seek 0x0000#16 [0x00#8, 0x00#8])) (fun t => (sent t, t.ctl, answer t)) =
    some (some [0x5A#8, 0x00#8], .idle, some (.ok (.bit false))) := by decide
/-- V-C5, its second exchange: the queue is not drained. -/
theorem test_txResync : after (exec .txResync (busy .seek .skR [0xFE#8, 0x80#8] [0x77#8])) (fun t => (t.queued, sent t, t.ctl)) =
    some ([0xFE#8, 0x80#8], some [0x5A#8], .busy .seek .skX) := by decide

/-! ### Reserved codes, the host's commands, reset, the step -/

/-- V-E1. -/
theorem test_reserved_illegal : after (exec (.reserved0 0#12) State.reset) answer = some (some .illegal) ∧
    after (exec (.reservedC 0#12) State.reset) answer = some (some .illegal) ∧
    after (exec (.reservedD 0#12) State.reset) answer = some (some .illegal) ∧
    after (exec (.reservedE 0#12) State.reset) answer = some (some .illegal) ∧
    after (exec (.reservedF 0#12) State.reset) answer = some (some .illegal) := by decide
/-- V-X2, V-X3. -/
theorem test_halted_fault : after (exec (.reservedF 0#12) halted) answer = some (some .fault) ∧
    after (exec .poll halted) (fun t => (answer t, t.wire, t.ctl)) = some (some .fault, [], .halt) := by decide
/-- V-H2, V-H4. -/
theorem test_servo : after (exec (.servo 0 1000) State.reset) State.queued =
      some [0x00#8, 0xFF#8, 0x00#8, 0x00#8, 0xE8#8, 0x03#8] ∧
    after (exec (.servo 0 (-1)) State.reset) (fun t => (t.queued, t.portLog, t.hostErrors)) =
      some ([], [], [.invalidArgument]) := by decide
/-- V-H6, V-H7. -/
theorem test_exposure : after (exec (.exposure 255) State.reset) State.queued = some [0x00#8, 0xFE#8, 0xFF#8] ∧
    after (exec (.exposure 256) State.reset) (fun t => (t.portLog, t.hostErrors)) = some ([], [.invalidArgument]) := by decide
/-- V-H8, V-H9. -/
theorem test_led : after (exec (.led 255 0 128) State.reset) State.queued = some [0x00#8, 0xFD#8, 0xFF#8, 0x00#8, 0x80#8] ∧
    after (exec (.led 0 256 0) State.reset) (fun t => (t.queued, t.hostErrors)) = some ([], [.invalidArgument]) := by decide
/-- V-X5. -/
theorem test_reset : after (step { idle 4 [0x01#8, 0x02#8] with ctx := { bt := .colorCode, skip := true }, rst := true })
    (fun t => (t.queued, t.ctx, t.fault, t.ctl, t.rst)) = some ([], FrameCtx.reset, .none, .idle, false) := by decide
/-- Table 2.1, last row: an illegal ENQCMD is one beat, and the beat after it is the next header. -/
theorem test_step_illegal : after (step { State.reset with host := [.beat 0x3105#16, .beat 0x5000#16] })
    (fun t => (t.host, answer t)) = some ([.beat 0x5000#16], some .illegal) := by decide
/-- A whole request is consumed at once (P4, request 1). -/
theorem test_step_request : after (step { State.reset with
      host := [.beat 0x9003#16, .beat 0x0000#16, .beat 0x00FE#16, .beat 0x0080#16, .beat 0x0000#16] })
    (fun t => (t.host, t.queued)) = some ([.beat 0x0000#16], [0x00#8, 0xFE#8, 0x80#8]) := by decide
/-- The instruction that the next step runs, if it runs one. -/
def nextInstr (s : State) : Option Instr :=
  match nextAction s with
  | .run i _ => some i
  | _ => none

/-- V-F3 through the host's placing of an instruction, and rows of the wire. -/
theorem test_step_fetchWord : after (step (State.reset.withFetchWord 16 0x2000)) answer = some (some .fault) ∧
    nextInstr (State.reset.withFetchWord 16 0x5B77) = some (.txData 0x77#8) ∧
    nextInstr (State.reset.withFetchWord 16 0x5A00) = some .txIdle ∧
    nextInstr (State.reset.withFetchWord 8 0x5A) = some .txResync ∧
    after (step (State.reset.withFetchWord 16 0xAA55)) (fun t => t.sync.prev) = some 0xAA55#16 := by decide

/-! ### The invariant of a concrete state -/

/-- The invariant as a computation. -/
def invCheck (s : State) : Bool :=
  decide (0 < s.cfg.capacity) && decide (s.q.head < s.cfg.capacity) && decide (s.q.tail < s.cfg.capacity) &&
  decide (s.q.count ≤ s.cfg.capacity) && decide (s.q.tail = (s.q.head + s.q.count) % s.cfg.capacity) && Memory.wf s.q.buf &&
  s.q.buf.all (fun c => decide (c.1 < s.cfg.capacity)) && decide (s.ctl = .halt ↔ s.fault ≠ .none) &&
  (match s.ctl with
    | .busy .seek ph => decide (ph = .skX ∨ ph = .skR)
    | .busy .poll _ => !s.ctx.skip
    | _ => true) &&
  s.wire.all (Exchange.legal s.cfg) && s.portLog.all (responseFits s.cfg.capacity) &&
  decide s.cfg.AsGiven

theorem inv_of_check {s : State} (h : invCheck s = true) : s.Inv := by
  simp only [invCheck, Bool.and_eq_true, decide_eq_true_eq] at h
  obtain ⟨⟨⟨⟨⟨⟨⟨⟨⟨⟨⟨h1, h2⟩, h3⟩, h4⟩, h5⟩, h6⟩, h7⟩, h8⟩, h9⟩, h10⟩, h11⟩, h12⟩ := h
  refine ⟨h1, ⟨h2, h3, h4, h5⟩, h6, h7, h8, fun ph hc => ?_, fun ph hc => ?_, h10, h11, h12⟩
  · rw [hc] at h9; simpa using h9
  · rw [hc] at h9; simpa using h9

theorem idle_inv : (idle 4 [0x01#8, 0x02#8, 0x03#8]).Inv ∧ (idle 4 []).Inv ∧ (idle 4 [0x01#8, 0x02#8, 0x03#8, 0x04#8]).Inv ∧
    wrapped.Inv ∧ nearlyFull.Inv ∧ halted.Inv ∧ State.reset.Inv :=
  ⟨inv_of_check (by decide), inv_of_check (by decide), inv_of_check (by decide), inv_of_check (by decide),
    inv_of_check (by decide), inv_of_check (by decide), inv_of_check (by decide)⟩

/-! ### Witnesses: every statement's hypotheses can be met -/

theorem witness_EveryInstructionDecodesFromItsEncoding :
    (Instr.enqcmd (List.replicate 255 0xFF#8)).wellFormed = true ∧ (Instr.enqcmd []).isPseudo = false ∧
    (Instr.rxData 0xFFFF#16).wellFormed = true ∧ (Instr.rxData 0xFFFF#16).isPseudo = false :=
  ⟨by simp only [Instr.wellFormed, List.length_replicate]; decide, rfl, by decide, rfl⟩

/-- L = 0, and L equal to the beats that are there. -/
theorem witness_LegalHeadersSelectTheirOperation :
    ((0x10FF#16).toNat / 256 % 16 = 0 ∧ (0x10FF#16).toNat / 4096 = 0x1) ∧
    ((0x3000#16).toNat / 4096 = 0x3 ∧ (0x3000#16).toNat % 256 ≤ ([] : List Beat).length) ∧
    ((0x9002#16).toNat / 256 % 16 = 0 ∧ (0x9002#16).toNat / 4096 = 0x9 ∧
      (0x9002#16).toNat % 256 ≤ [0x0000#16, 0x00FF#16].length) ∧
    ∀ op ∈ [0x2000#16, 0x4000#16, 0x5000#16, 0x6000#16, 0x7000#16, 0x8000#16, 0xA000#16, 0xB000#16],
      op.toNat / 256 % 16 = 0 ∧ op.toNat % 256 = 0 ∧ op.toNat / 4096 ∈ [0x2, 0x4, 0x5, 0x6, 0x7, 0x8, 0xA, 0xB] := by simp

theorem witness_RequestLengthFollowsFromTheHeader :
    decodeRequest [0x9001#16, 0x007F#16, 0x2000#16] = .ok (.send [0x7F#8], [0x2000#16]) ∧
    decodeRequest [0x3000#16, 0x2000#16] = .ok (.enqcmd [], [0x2000#16]) ∧
    decodeRequest [0xF3FF#16, 0x2000#16] = .ok (.reservedF 0x3FF#12, [0x2000#16]) := by decide

theorem witness_ReceivedWordsAreClassified :
    (0xAA57#16 : Word) ≠ 0x0000#16 ∧ (0xAA57#16 : Word) ≠ 0xAA55#16 ∧ (0xAA57#16 : Word) ≠ 0xAA56#16 ∧
    (0xAA57#16 : Word) ≠ 0x55AA#16 := by decide

theorem witness_StepRunsTheNextRequest :
    (idle 4 []).rst = false ∧ portReady (idle 4 []) = true ∧ portReady halted = true ∧
    ((Instr.send [0x7F#8]).wellFormed = true ∧ (Instr.send [0x7F#8]).isPseudo = false ∧
      encode (.send [0x7F#8]) = .request [0x9001#16, 0x007F#16] ∧
      { idle 4 [] with host := [.beat 0x9001#16, .beat 0x007F#16, .beat 0x5000#16] }.host =
        [0x9001#16, 0x007F#16].map HostItem.beat ++ [.beat 0x5000#16]) ∧
    { idle 4 [] with host := [.call (.servo 0 1000)] }.host = .call (.servo 0 1000) :: [] ∧
    { idle 4 [] with host := [.call (.exposure 256)] }.host = .call (.exposure 256) :: [] ∧
    { idle 4 [] with host := [.call (.led 0 0 255)] }.host = .call (.led 0 0 255) :: [] := by decide

theorem witness_StepRunsTheNextExchange :
    (busy .seek .skR [] []).rst = false ∧ (busy .seek .skR [] []).ctl = .busy .seek .skR ∧
    (busy .poll .dTrail [] [0xAA#8, 0x55#8]).ctl = .busy .poll .dTrail ∧
    (busy .poll .dTrail [] [0xAA#8, 0x55#8]).rxIn = 0xAA#8 :: 0x55#8 :: [] ∧
    ((busy .poll .dX [] [0xAA#8]).rxIn.length < 2 ∧ (busy .poll .dX [] [0xAA#8]).q.count = 0) ∧
    ((busy .seek .skX [0x01#8] []).rxIn.length < 2 ∧ 0 < (busy .seek .skX [0x01#8] []).q.count) := by decide

theorem witness_ResetInputResetsTheBlock : { busy .seek .skX [0x01#8] [] with rst := true }.rst = true := by decide
theorem witness_ResetInputKeepsThePorts : { halted with rst := true }.rst = true := by decide

theorem witness_NothingPresentedChangesNothing :
    (idle 4 []).rst = false ∧ portReady (idle 4 []) = true ∧ (idle 4 []).host = [] ∧
    ((0x3001#16).toNat / 256 % 16 = 0 ∧ (0x3001#16).toNat / 4096 = 0x3 ∧ ([] : List Beat).length < (0x3001#16).toNat % 256 ∧
      { idle 4 [] with host := [.beat 0x3001#16] }.host = [0x3001#16].map HostItem.beat) ∧
    ((0x90FF#16).toNat / 4096 = 0x9 ∧ [0x0001#16].length < (0x90FF#16).toNat % 256) := by decide

theorem witness_IllegalHeadersAreAnsweredIllegal :
    (idle 4 []).rst = false ∧ (idle 4 []).ready ∧ { idle 4 [] with host := [.beat 0x1100#16] }.host = .beat 0x1100#16 :: [] ∧
    (0xFFFF#16).toNat / 4096 ∈ [0x0, 0xC, 0xD, 0xE, 0xF] ∧ (0x1100#16).toNat / 256 % 16 ≠ 0 ∧
    ((0x4001#16).toNat / 4096 ∉ [0x1, 0x3, 0x9] ∧ (0x4001#16).toNat % 256 ≠ 0) := by decide

/-- One slot free, and none. -/
theorem witness_EnqAppendsItsByteOrChangesNothing :
    (idle 4 [0x01#8, 0x02#8, 0x03#8]).Inv ∧ (idle 4 [0x01#8, 0x02#8, 0x03#8, 0x04#8]).Inv ∧
    ((idle 4 [0x01#8, 0x02#8, 0x03#8]).ready ∧ (idle 4 [0x01#8, 0x02#8, 0x03#8]).q.count < 4) ∧
    ((idle 4 [0x01#8, 0x02#8, 0x03#8, 0x04#8]).ready ∧ (idle 4 [0x01#8, 0x02#8, 0x03#8, 0x04#8]).q.count = 4) :=
  ⟨idle_inv.1, idle_inv.2.2.1, by decide, by decide⟩

theorem witness_DeqRemovesTheOldestByteOrHalts :
    (idle 1 [0x01#8]).Inv ∧ ((idle 1 [0x01#8]).ready ∧ 0 < (idle 1 [0x01#8]).q.count) ∧
    (idle 4 []).Inv ∧ ((idle 4 []).ready ∧ (idle 4 []).q.count = 0) :=
  ⟨inv_of_check (by decide), by decide, idle_inv.2.1, by decide⟩

/-- A command that fits exactly, one of a byte too many, the empty one, and one longer than the queue. -/
theorem witness_WholeCommandsAreAllOrNothing :
    wrapped.Inv ∧ wrapped.ready ∧ [0x55#8, 0x66#8].length ≤ wrapped.cfg.capacity - wrapped.q.count ∧
    wrapped.cfg.capacity - wrapped.q.count < [0x55#8, 0x66#8, 0x77#8].length ∧
    ([] : List Byte).length ≤ wrapped.cfg.capacity - wrapped.q.count ∧
    (wrapped.cfg.capacity - wrapped.q.count < (List.replicate 255 0x00#8).length ∧ (List.replicate 255 0x00#8).length ≤ 255) :=
  ⟨idle_inv.2.2.2.1, by decide, by decide, by decide, by decide, by simp only [List.length_replicate]; decide⟩

theorem witness_QueueQueriesOnlyAnswer : (idle 4 []).ready ∧ wrapped.ready := by decide

theorem witness_AnswersAreTakenInOrder :
    (busy .seek .skX [] [0xAA#8, 0x55#8]).rxIn = 0xAA#8 :: 0x55#8 :: [] ∧ (busy .seek .skR [] [0x01#8]).rxIn = 0x01#8 :: [] ∧
    (busy .poll .dX [] [0xAA#8]).rxIn = [0xAA#8] ∧ (idle 4 []).rxIn = [] := by decide

theorem witness_TransactAnswersTheReceivedWord : wrapped.Inv ∧ wrapped.ready ∧ (idle 4 []).Inv ∧ (idle 4 []).ready :=
  ⟨idle_inv.2.2.2.1, by decide, idle_inv.2.1, by decide⟩
theorem witness_ResyncSendsOneIdleByte : wrapped.ready := by decide
theorem witness_SeekStartsWithNoPreviousWord : wrapped.ready := by decide
theorem witness_PollSkipsOrSeeks :
    ({ wrapped with ctx := { bt := .colorCode, skip := true } }.ready ∧
      { wrapped with ctx := { bt := .colorCode, skip := true } }.ctx.skip = true) ∧
    (wrapped.ready ∧ wrapped.ctx.skip = false) := by decide
theorem witness_ReservedCodesAreAnsweredIllegal : wrapped.ready := by decide

theorem witness_HaltedBlockAnswersFault :
    (portReady halted = true ∧ halted.fault ≠ .none) ∧ encode (.send [0x01#8]) = .request (0x9001#16 :: [0x0001#16]) ∧
    (Instr.send [0x01#8]).isPseudo = false ∧ encode (.reservedF 0#12) = .request (0xF000#16 :: []) ∧
    ({ halted with host := [.beat 0x2001#16] }.host = .beat 0x2001#16 :: [] ∧ (0x2001#16).toNat / 4096 ∉ [0x1, 0x3, 0x9] ∧
      (0x2001#16).toNat % 256 ≠ 0) ∧
    (halted.Inv ∧ halted.rst = false ∧ ∃ t, step { halted with host := [.beat 0x2000#16] } = .next t) :=
  ⟨by decide, by decide, by decide, by decide, by decide, idle_inv.2.2.2.2.2.1, rfl, _, rfl⟩
theorem witness_OnlyResetLeavesHalt : halted.Inv ∧ halted.ctl = .halt ∧ halted.rst = false ∧ ∃ t, step halted = .next t :=
  ⟨idle_inv.2.2.2.2.2.1, rfl, rfl, _, rfl⟩
theorem witness_BusyPortHoldsRequests :
    (busy .poll .dSig [] []).ctl = .busy .poll .dSig ∧ encode .deq = .request [0x2000#16] := by decide

/-- Room for the command, and a byte too little (W5b). -/
theorem witness_ServoSendsSixBytesOrRaises :
    ((0 : Int) ≤ 0 ∧ (0 : Int) ≤ 1000 ∧ (0 : Int) ≤ 1000 ∧ (1000 : Int) ≤ 1000) ∧
    ¬ ((0 : Int) ≤ 1001 ∧ (1001 : Int) ≤ 1000 ∧ (0 : Int) ≤ 0 ∧ (0 : Int) ≤ 1000) ∧
    ¬ ((0 : Int) ≤ 0 ∧ (0 : Int) ≤ 1000 ∧ (0 : Int) ≤ -1 ∧ (-1 : Int) ≤ 1000) ∧
    (State.reset.ready ∧ 6 ≤ State.reset.cfg.capacity - State.reset.q.count) ∧
    (nearlyFull.ready ∧ nearlyFull.cfg.capacity - nearlyFull.q.count < 6) ∧ State.reset.Inv ∧ nearlyFull.Inv :=
  ⟨by decide, by decide, by decide, by decide, by decide, idle_inv.2.2.2.2.2.2, idle_inv.2.2.2.2.1⟩
theorem witness_ExposureSendsThreeBytesOrRaises :
    ((0 : Int) ≤ 255 ∧ (255 : Int) ≤ 255) ∧ ((0 : Int) ≤ 0 ∧ (0 : Int) ≤ 255) ∧ ¬ ((0 : Int) ≤ 256 ∧ (256 : Int) ≤ 255) ∧
    ¬ ((0 : Int) ≤ -1 ∧ (-1 : Int) ≤ 255) ∧ ((idle 4 []).ready ∧ 3 ≤ (idle 4 []).cfg.capacity - (idle 4 []).q.count) ∧
    (wrapped.ready ∧ wrapped.cfg.capacity - wrapped.q.count < 3) ∧ (idle 4 []).Inv ∧ wrapped.Inv :=
  ⟨by decide, by decide, by decide, by decide, by decide, by decide, idle_inv.2.1, idle_inv.2.2.2.1⟩
theorem witness_LedSendsFiveBytesOrRaises :
    ((0 : Int) ≤ 255 ∧ (255 : Int) ≤ 255 ∧ (0 : Int) ≤ 0 ∧ (0 : Int) ≤ 255 ∧ (0 : Int) ≤ 128 ∧ (128 : Int) ≤ 255) ∧
    ¬ ((0 : Int) ≤ 0 ∧ (0 : Int) ≤ 255 ∧ (0 : Int) ≤ 256 ∧ (256 : Int) ≤ 255 ∧ (0 : Int) ≤ 0 ∧ (0 : Int) ≤ 255) ∧
    (nearlyFull.ready ∧ 5 ≤ nearlyFull.cfg.capacity - nearlyFull.q.count) ∧
    (wrapped.ready ∧ wrapped.cfg.capacity - wrapped.q.count < 5) ∧ nearlyFull.Inv ∧ wrapped.Inv :=
  ⟨by decide, by decide, by decide, by decide, idle_inv.2.2.2.2.1, idle_inv.2.2.2.1⟩
theorem witness_ServoValuesAreSplitLowByteFirst :
    ((0 : Int) ≤ 65535 ∧ (65535 : Int) ≤ 65535) ∧ ((0 : Int) ≤ 1000 ∧ (1000 : Int) ≤ 1000) := by decide

/-- At seek position with each previous word that the table names, and none. -/
theorem witness_SeekPositionFollowsItsTable :
    (∀ prev ∈ [0x0000#16, 0xAA55#16, 0xFFFF#16], (seeking .seek prev []).Inv ∧ (seeking .seek prev []).ctl = .busy .seek .skX ∧
      (seeking .seek prev []).sync.prev = prev) ∧
    (seeking .poll 0xAA55#16 []).Inv ∧ (seeking .poll 0xAA55#16 []).ctl = .busy .poll .skX ∧
    (0xAA57#16 : Word) ∉ [0x0000#16, 0xAA55#16, 0xAA56#16, 0x55AA#16] := by
  refine ⟨?_, inv_of_check (by decide), rfl, by decide⟩
  intro prev h
  simp only [List.mem_cons, List.not_mem_nil, or_false] at h
  rcases h with rfl | rfl | rfl <;> exact ⟨inv_of_check (by decide), rfl, rfl⟩

/-- A busy POLL in each phase, with a byte queued, meets the invariant. -/
theorem poll_inv (ph : Phase) : (busy .poll ph [0x01#8] []).Inv := inv_of_check (by cases ph <;> decide)

theorem witness_ChecksumPositionFollowsItsTable :
    (busy .poll .dChk [0x01#8] []).Inv ∧ (busy .poll .dChk [0x01#8] []).ctl = .busy .poll .dChk ∧
    (0x0001#16 : Word) ∉ [0x0000#16, 0xAA55#16, 0xAA56#16, 0x55AA#16] := ⟨poll_inv _, rfl, by decide⟩

theorem witness_FieldPositionsTakeEveryWordAsData :
    (∀ ph ∈ [Phase.dSig, .dX, .dY, .dW, .dH, .dAng], (busy .poll ph [0x01#8] []).Inv ∧
      (busy .poll ph [0x01#8] []).ctl = .busy .poll ph) ∧
    (busy .poll .dH [0x01#8] []).ctx.bt = .normal ∧
    ({ busy .poll .dH [] [] with ctx := { bt := .colorCode, skip := false } }.Inv ∧
      { busy .poll .dH [] [] with ctx := { bt := .colorCode, skip := false } }.ctx.bt = .colorCode) :=
  ⟨fun ph _ => ⟨poll_inv ph, rfl⟩, rfl, inv_of_check (by decide), rfl⟩

theorem witness_RecordIsKeptExactlyWhenItsChecksumIsValid :
    ((busy .poll .dH [0x01#8] []).Inv ∧ (busy .poll .dH [0x01#8] []).ctl = .busy .poll .dH ∧
      (busy .poll .dH [0x01#8] []).ctx.bt = .normal) ∧
    ((busy .poll .dAng [0x01#8] []).Inv ∧ (busy .poll .dAng [0x01#8] []).ctl = .busy .poll .dAng) :=
  ⟨⟨poll_inv _, rfl, rfl⟩, poll_inv _, rfl⟩

theorem witness_TrailingPositionContinuesOrEndsTheFrame :
    (busy .poll .dTrail [0x01#8] []).Inv ∧ (busy .poll .dTrail [0x01#8] []).ctl = .busy .poll .dTrail ∧
    (0x55AA#16 : Word) ≠ 0xAA55#16 ∧ (0x55AA#16 : Word) ≠ 0xAA56#16 := ⟨poll_inv _, rfl, by decide⟩

theorem witness_TxDataSendsTheOldestByte :
    (busy .poll .dX [0x01#8] []).Inv ∧ (busy .poll .dX [0x01#8] []).awaitsWord .poll .dX ∧
    0 < (busy .poll .dX [0x01#8] []).q.count := ⟨poll_inv _, by decide, by decide⟩
theorem witness_TxIdleSendsTheIdlePair :
    (seeking .seek 0x0000#16 []).awaitsWord .seek .skX ∧ (seeking .seek 0x0000#16 []).q.count = 0 := by decide
theorem witness_TxResyncShiftsByOneByte : (busy .seek .skR [0x01#8] []).ctl = .busy .seek .skR := by decide

theorem witness_ExchangesNotDueChangeNothing :
    portReady halted = true ∧ (busy .poll .skR [] []).ctl = .busy .poll .skR ∧
    ((busy .poll .dX [0x01#8] []).awaitsWord .poll .dX ∧ 0 < (busy .poll .dX [0x01#8] []).q.count ∧
      (0x02#8 : Byte) ≠ Memory.read (busy .poll .dX [0x01#8] []).q.buf (busy .poll .dX [0x01#8] []).q.head) ∧
    (busy .poll .dX [] []).q.count = 0 := by decide

theorem witness_ReceivedWordFrame :
    (busy .poll .dX [0x01#8] []).Inv ∧ (busy .poll .dX [0x01#8] []).awaitsWord .poll .dX ∧
    ∃ t, exec (decodeRx 0x1234#16) (busy .poll .dX [0x01#8] []) = .next t := ⟨poll_inv _, by decide, _, rfl⟩

theorem witness_EveryStepKeepsTheInvariant : wrapped.Inv ∧ ∃ t, step wrapped = .next t := ⟨idle_inv.2.2.2.1, _, rfl⟩
theorem witness_NoStepStops : (busy .poll .dTrail [0x01#8] []).Inv := poll_inv _

/-- A 2-byte exchange with a byte queued, one without, and a 1-byte one. -/
theorem witness_EveryExchangeFollowsTheArbiter :
    ((busy .poll .dX [0x01#8] [0x00#8, 0x00#8]).Inv ∧
      ∃ t, step (busy .poll .dX [0x01#8] [0x00#8, 0x00#8]) = .next t ∧ sent t = some [0x5B#8, 0x01#8]) ∧
    ((busy .poll .dX [] [0x00#8, 0x00#8]).Inv ∧
      ∃ t, step (busy .poll .dX [] [0x00#8, 0x00#8]) = .next t ∧ sent t = some [0x5A#8, 0x00#8]) ∧
    ((busy .seek .skR [0x01#8] [0x00#8]).Inv ∧
      ∃ t, step (busy .seek .skR [0x01#8] [0x00#8]) = .next t ∧ sent t = some [0x5A#8]) :=
  ⟨⟨inv_of_check (by decide), _, rfl, by decide⟩, ⟨inv_of_check (by decide), _, rfl, by decide⟩,
    ⟨inv_of_check (by decide), _, rfl, by decide⟩⟩

theorem witness_EveryStepKeepsFifoOrder :
    { wrapped with host := [.beat 0x1055#16] }.Inv ∧ { wrapped with host := [.beat 0x1055#16] }.rst = false ∧
    ∃ t, step { wrapped with host := [.beat 0x1055#16] } = .next t ∧ t.queued = [0x33#8, 0x44#8, 0x55#8] :=
  ⟨inv_of_check (by decide), rfl, _, rfl, by decide⟩

theorem witness_OnlyAnEmptyDeqFaults :
    ({ idle 4 [] with host := [.beat 0x2000#16] }.Inv ∧ { idle 4 [] with host := [.beat 0x2000#16] }.fault = .none ∧
      ∃ t, step { idle 4 [] with host := [.beat 0x2000#16] } = .next t ∧ t.fault ≠ .none) ∧
    ({ halted with rst := true }.Inv ∧ halted.fault ≠ .none ∧ ∃ t, step { halted with rst := true } = .next t ∧ t.fault = .none) :=
  ⟨⟨inv_of_check (by decide), rfl, _, rfl, by decide⟩, inv_of_check (by decide), by decide, _, rfl, rfl⟩

/-- The flag is set, it is cleared, and the block type changes. -/
theorem witness_FrameContextChangesOnlyInSeekOrPoll :
    ((busy .poll .dChk [0x01#8] [0xAA#8, 0x56#8]).Inv ∧
      ∃ t, step (busy .poll .dChk [0x01#8] [0xAA#8, 0x56#8]) = .next t ∧ t.ctx = { bt := .colorCode, skip := true }) ∧
    ({ idle 4 [] with ctx := { bt := .normal, skip := true }, host := [.beat 0xB000#16] }.Inv ∧
      ∃ t, step { idle 4 [] with ctx := { bt := .normal, skip := true }, host := [.beat 0xB000#16] } = .next t ∧
        t.ctx.skip = false) :=
  ⟨⟨inv_of_check (by decide), _, rfl, by decide⟩, inv_of_check (by decide), _, rfl, by decide⟩

/-- A BUSY controller that ends, and at a ready port a request with payload, a POLL, an illegal header, and one in HALT. -/
theorem witness_EveryRequestGetsOneResponse :
    ((busy .poll .dTrail [0x01#8] [0x00#8, 0x00#8]).Inv ∧ (busy .poll .dTrail [0x01#8] [0x00#8, 0x00#8]).rst = false ∧
      (busy .poll .dTrail [0x01#8] [0x00#8, 0x00#8]).ctl = .busy .poll .dTrail ∧
      ∃ t, step (busy .poll .dTrail [0x01#8] [0x00#8, 0x00#8]) = .next t ∧ t.ctl = .idle) ∧
    (presenting (idle 4 []) [0x9001#16, 0x007F#16, 0x5000#16]).Inv ∧ portReady (idle 4 []) = true ∧
    (presenting (idle 4 []) [0x9001#16, 0x007F#16, 0x5000#16]).host =
      .beat 0x9001#16 :: [0x7F#8].map (fun b => HostItem.beat (0x00#8 ++ b)) ++ [.beat 0x5000#16] ∧
    ((0x9001#16).toNat / 256 % 16 = 0 ∧ (0x9001#16).toNat / 4096 = 0x9 ∧ [0x7F#8].length = (0x9001#16).toNat % 256) ∧
    ((presenting (idle 4 []) [0xB000#16]).Inv ∧ (presenting halted [0xB000#16]).Inv ∧ halted.fault ≠ .none ∧
      (0xB000#16).toNat / 4096 ≠ 0x3 ∧ (0xB000#16).toNat / 4096 ≠ 0x9) ∧
    ((0x3105#16).toNat / 256 % 16 ≠ 0 ∧ (presenting (idle 4 []) [0x3105#16]).host =
      .beat 0x3105#16 :: ([] : List Byte).map (fun b => HostItem.beat (0x00#8 ++ b)) ++ []) :=
  ⟨⟨inv_of_check (by decide), rfl, rfl, _, rfl, by decide⟩, inv_of_check (by decide), rfl, by decide, by decide,
    ⟨inv_of_check (by decide), inv_of_check (by decide), by decide, by decide, by decide⟩, by decide⟩

theorem witness_ChecksumIsTheFieldSumModulo65536 : Config.standard.AsGiven ∧ ({ capacity := 1 } : Config).AsGiven := by decide

/-- An answer of each shape, at CAPACITY 64 and, for the counts, at the boundary values 0 and CAPACITY. -/
theorem witness_ResponsesAreEncodedAsTheSpecSays :
    { State.reset with portLog :=
      [({ header := 0x1011#16, payload := [] }, .ok (.bit true)), ({ header := 0x2000#16, payload := [] }, .ok (.byte 0x11#8)),
        ({ header := 0x3000#16, payload := [] }, .ok (.bit true)), ({ header := 0x4000#16, payload := [] }, .ok (.count 64)),
        ({ header := 0x5000#16, payload := [] }, .ok (.count 0)), ({ header := 0x5000#16, payload := [] }, .ok (.count 64)),
        ({ header := 0x6000#16, payload := [] }, .ok (.bit true)), ({ header := 0x7000#16, payload := [] }, .ok (.word 0#16)),
        ({ header := 0x8000#16, payload := [] }, .ok .none), ({ header := 0x9000#16, payload := [] }, .ok .none),
        ({ header := 0xA000#16, payload := [] }, .ok (.bit false)),
        ({ header := 0xB000#16, payload := [] }, .ok (.objects []))] }.Inv :=
  inv_of_check (by decide)

/-- V-C5: the environment's bytes 55AA, R, AA55, AA55. -/
theorem witness_SeekRunsItsAlgorithm :
    { idle 4 [0x00#8, 0xFE#8, 0x80#8] with
      host := [.beat 0xA000#16], rxIn := [0x55#8, 0xAA#8, 0x77#8, 0xAA#8, 0x55#8, 0xAA#8, 0x55#8] }.Inv ∧
    (idle 4 [0x00#8, 0xFE#8, 0x80#8]).ready ∧
    seekBytes 0xFFFF#16 [0x55#8, 0xAA#8, 0x77#8, 0xAA#8, 0x55#8, 0xAA#8, 0x55#8] = some (some .normal, []) ∧
    seekBytes 0xFFFF#16 [0x00#8, 0x00#8, 0x00#8, 0x00#8] = some (none, []) :=
  ⟨inv_of_check (by decide), by decide, by decide, by decide⟩

/-- V-D9 and V-D14: the shortest calls, with the flag set and clear; V-D4 is the run of a record. -/
theorem witness_PollRunsItsAlgorithm :
    { idle 4 [] with host := [.beat 0xB000#16], rxIn := [0x00#8, 0x00#8, 0x00#8, 0x00#8] }.Inv ∧ (idle 4 []).ready ∧
    decodeBytes 1 { bt := .normal, skip := false } [0x00#8, 0x00#8, 0x00#8, 0x00#8] =
      some ([], { bt := .normal, skip := false }, []) ∧
    decodeBytes 1 { bt := .normal, skip := true } [0x00#8, 0x00#8] = some ([], { bt := .normal, skip := false }, []) ∧
    decodeBytes 1 { bt := .normal, skip := false } ([0xAA55#16, 0xAA56#16, 0x0198#16, 0x000A#16, 0x00A0#16, 0x0064#16, 0x0020#16,
        0x0010#16, 0x005A#16, 0x0000#16].flatMap wordBytes) =
      some ([DetectedObject.mk 0x000A#16 0x00A0#16 0x0064#16 0x0020#16 0x0010#16 0x005A#16],
        { bt := .colorCode, skip := false }, []) :=
  ⟨inv_of_check (by decide), by decide, by decide, by decide, by decide⟩

theorem witness_SeekExchangesAreAccounted :
    (seeking .poll 0xFFFF#16 [0x00#8, 0x00#8, 0x55#8, 0xAA#8, 0x77#8, 0x00#8, 0x00#8, 0x00#8, 0x00#8]).Inv ∧
    (seeking .poll 0xFFFF#16 []).rst = false ∧ (seeking .poll 0xFFFF#16 []).ctl = .busy .poll .skX ∧
    (seeking .poll 0xFFFF#16 []).sync.prev = 0xFFFF#16 ∧
    seekBytes 0xFFFF#16 [0x00#8, 0x00#8, 0x55#8, 0xAA#8, 0x77#8, 0x00#8, 0x00#8, 0x00#8, 0x00#8] = some (none, []) :=
  ⟨inv_of_check (by decide), rfl, rfl, rfl, by decide⟩

/-- The three records of W4. -/
def w4 : List (WireRecord × BlockType) :=
  [({ chk := 0x0065#16, obj := DetectedObject.mk 0x0001#16 0x000A#16 0x0014#16 0x001E#16 0x0028#16 0#16 }, .normal),
   ({ chk := 0x00AD#16, obj := DetectedObject.mk 0x0002#16 0x0064#16 0x0032#16 0x000A#16 0x000A#16 0#16 }, .normal),
   ({ chk := 0x0152#16, obj := DetectedObject.mk 0x0003#16 0x00C8#16 0x0064#16 0x0014#16 0x000F#16 0#16 }, .normal)]

/-- W4: the frame's records can be delivered, the stream has its start, and the two valid objects are the ones expected. -/
theorem witness_PollDeliversTheValidRecordsOfAFrame :
    { idle 4 [] with host := [.beat 0xB000#16] }.Inv ∧ (idle 4 []).ready ∧ (idle 4 []).ctx.skip = false ∧
    (∀ p ∈ w4, p.1.deliverable) ∧
    seekBytes 0xFFFF#16 ([0xAA55#16, 0xAA55#16].flatMap wordBytes ++ [0x01#8, 0x02#8]) =
      some (some .normal, [0x01#8, 0x02#8]) ∧
    validObjects .normal w4 = [DetectedObject.mk 0x0001#16 0x000A#16 0x0014#16 0x001E#16 0x0028#16 0#16,
      DetectedObject.mk 0x0003#16 0x00C8#16 0x0064#16 0x0014#16 0x000F#16 0#16] :=
  ⟨inv_of_check (by decide), by decide, rfl, by decide, by decide, by decide⟩

theorem witness_NoDataPollsAreIdempotent :
    { idle 4 [] with host := List.replicate 2 (.beat 0xB000#16), rxIn := List.replicate 8 0x00#8 }.Inv ∧ (idle 4 []).ready ∧
    (idle 4 []).ctx.skip = false ∧
    { idle 4 [] with host := List.replicate 2 (.beat 0xB000#16) }.host = List.replicate 2 (.beat 0xB000#16) ++ [] ∧
    ({ idle 4 [] with ctx := { bt := .colorCode, skip := true }, host := [.beat 0xB000#16], rxIn := [0x00#8, 0x00#8] }.Inv ∧
      { idle 4 [] with ctx := { bt := .colorCode, skip := true } }.ctx.skip = true) :=
  ⟨inv_of_check (by decide), by decide, rfl, rfl, inv_of_check (by decide), rfl⟩

end Sys2Proof.Tests
end

section
/-! PROOFS. Every step keeps the invariant (O42). The invariant is two conditions on two parts of the state: on what is stored and
observed (`Sound`), and on the controller (`Coherent`). Each operation has one rule for the part it touches. -/

namespace Sys2Proof.Proofs

open Sys2Proof.Machine Sys2Proof.Laws

/-! ### The two parts of the invariant -/

/-- The part of the invariant about the parameters, the queue and what was observed at the two ports. -/
structure Sound (c : Config) (q : Queue) (wire : List Exchange) (log : List (Request × Response)) : Prop where
  queue_good : Good c.capacity q
  wire_legal : wire.all (Exchange.legal c) = true
  responses_fit : log.all (responseFits c.capacity) = true
  config_asGiven : c.AsGiven

/-- The part of the invariant about the controller: its state, the Frame Context and the recorded fault. -/
structure Coherent (ctx : FrameCtx) (fault : FaultCause) (ctl : Ctl) : Prop where
  halt_iff_fault : ctl = .halt ↔ fault ≠ .none
  phase_ofOp : ∀ ph, ctl = .busy .seek ph → ph = .skX ∨ ph = .skR
  skip_clear : ∀ ph, ctl = .busy .poll ph → ctx.skip = false

/-- The invariant is its two parts. -/
theorem inv_iff {s : State} : s.Inv ↔ Sound s.cfg s.q s.wire s.portLog ∧ Coherent s.ctx s.fault s.ctl :=
  ⟨fun h => ⟨⟨.of_inv h, h.wire_legal, h.responses_fit, h.config_asGiven⟩, h.halt_iff_fault, h.phase_ofOp, h.skip_clear⟩,
    fun ⟨hs, hc⟩ => ⟨hs.queue_good.pos, hs.queue_good.inRange, hs.queue_good.wf, hs.queue_good.inside, hc.halt_iff_fault,
      hc.phase_ofOp, hc.skip_clear, hs.wire_legal, hs.responses_fit, hs.config_asGiven⟩⟩

section
variable {c : Config} {q q' : Queue} {wire : List Exchange} {log : List (Request × Response)}

/-- Any other good queue is as sound. -/
theorem Sound.replaceQueue (h : Sound c q wire log) (hg : Good c.capacity q') : Sound c q' wire log :=
  { h with queue_good := hg }

/-- One more legal event keeps the history legal. -/
theorem Sound.addEvent (h : Sound c q wire log) {e : Exchange} (he : Exchange.legal c e = true) : Sound c q (wire ++ [e]) log :=
  { h with wire_legal := by simp [h.wire_legal, he] }

/-- One more fitting answer keeps the log of the request port fitting. -/
theorem Sound.addAnswer (h : Sound c q wire log) {r : Request} {a : Response} (ha : responseFits c.capacity (r, a) = true) :
    Sound c q wire (log ++ [(r, a)]) :=
  { h with responses_fit := by simp [h.responses_fit, ha] }

end

theorem coherent_idle (ctx : FrameCtx) : Coherent ctx .none .idle := ⟨by simp, nofun, nofun⟩

theorem coherent_halt (ctx : FrameCtx) : Coherent ctx .underflow .halt := ⟨by simp, nofun, nofun⟩

/-- A BUSY controller is coherent when a seek is in a phase of its own and a poll has the skip flag clear (R173, R179). -/
theorem coherent_busy {ctx : FrameCtx} {fault : FaultCause} {op : BusyOp} {ph : Phase} (hf : fault = .none)
    (hseek : op = .seek → ph = .skX ∨ ph = .skR) (hpoll : op = .poll → ctx.skip = false) : Coherent ctx fault (.busy op ph) := by
  subst hf
  refine ⟨by simp, ?_, ?_⟩ <;> rintro _ ⟨⟩
  · exact hseek rfl
  · exact hpoll rfl

/-- While BUSY no fault is recorded. -/
theorem fault_eq_none_of_busy {s : State} (hi : s.Inv) {op : BusyOp} {ph : Phase} (hc : s.ctl = .busy op ph) : s.fault = .none := by
  by_contra hf
  have hh := hi.halt_iff_fault.mpr hf
  simp [hc] at hh

/-! ### The invariant under the shared operations -/

/-- What the host has lined up is no matter of the invariant. -/
theorem inv_setHost {s : State} (hi : s.Inv) (items : List HostItem) : (s.setHost items).Inv :=
  (inv_iff.mp hi).elim fun hs hc => inv_iff.mpr ⟨hs, hc⟩

theorem inv_raiseInvalidArgument {s : State} (hi : s.Inv) : (raiseInvalidArgument s).Inv :=
  (inv_iff.mp hi).elim fun hs hc => inv_iff.mpr ⟨hs, hc⟩

/-- A draw changes only the environment's own fields. -/
theorem inv_drawByte {s : State} (hi : s.Inv) : (drawByte s).2.Inv := by
  obtain ⟨hs, hc⟩ := inv_iff.mp hi
  rw [drawByte_eq]
  exact inv_iff.mpr ⟨hs, hc⟩

theorem inv_drawWord {s : State} (hi : s.Inv) : (drawWord s).2.Inv := inv_drawByte (inv_drawByte hi)

theorem inv_respond {s : State} (hi : s.Inv) {r : Request} {a : Response} (ha : responseFits s.cfg.capacity (r, a) = true) :
    (respond r a s).Inv := by
  obtain ⟨hs, hc⟩ := inv_iff.mp hi
  exact inv_iff.mpr ⟨hs.addAnswer ha, hc⟩

/-- An OK answer of a legal request, with a value of its operation's shape, fits (R80). -/
theorem inv_respond_ok {s : State} (hi : s.Inv) {r : Request} {v : Value} (hl : illegalHeader r.header = false)
    (hv : valueFits s.cfg.capacity (opField r.header) v = true) : (respond r (.ok v) s).Inv :=
  inv_respond hi (by simp [responseFits, hl, hv])

theorem inv_setQ {s : State} (hi : s.Inv) {q' : Queue} (hg : Good s.cfg.capacity q') : (s.setQ q').Inv := by
  obtain ⟨hs, hc⟩ := inv_iff.mp hi
  exact inv_iff.mpr ⟨hs.replaceQueue hg, hc⟩

/-- A word exchange sends TX_DATA or TX_IDLE (R71). -/
theorem inv_exchanged {s u : State} {w : Word} (hi : s.Inv) (hu : s.Exchanged w u) (hg : Good s.cfg.capacity u.q) : u.Inv := by
  obtain ⟨hs, hc⟩ := inv_iff.mp hi
  rcases hu with ⟨-, rfl⟩ | ⟨d, q', -, -, -, -, -, rfl⟩
  · exact inv_iff.mpr ⟨hs.addEvent (legal_word hs.config_asGiven (.inr ⟨rfl, rfl⟩)), hc⟩
  · exact inv_iff.mpr ⟨(hs.replaceQueue hg).addEvent (legal_word hs.config_asGiven (.inl rfl)), hc⟩

/-- A resync exchange sends TX_RESYNC (R71). -/
theorem inv_exchangeOne {s : State} (hi : s.Inv) (b : Byte) : (exchangeOne b s).Inv := by
  obtain ⟨hs, hc⟩ := inv_iff.mp hi
  exact inv_iff.mpr ⟨hs.addEvent (legal_resync hs.config_asGiven b), hc⟩

/-- Reset keeps what was observed and brings everything else to a state of the invariant (R250). -/
theorem inv_resetBlock {s : State} (hi : s.Inv) : (resetBlock s).Inv := by
  obtain ⟨hs, -⟩ := inv_iff.mp hi
  exact inv_iff.mpr ⟨hs.replaceQueue (good_reset hi.capacity_pos), coherent_idle _⟩

theorem inv_raiseUnderflow {s : State} (hi : s.Inv) (r : Request) : (raiseUnderflow r s).Inv := by
  obtain ⟨hs, -⟩ := inv_iff.mp hi
  exact inv_iff.mpr ⟨hs.addAnswer rfl, coherent_halt _⟩

/-! ### The invariant under requests -/

theorem inv_startSeek {s : State} (hi : s.Inv) (hf : s.fault = .none) {op : BusyOp} (hskip : op = .poll → s.ctx.skip = false) :
    (startSeek op s).Inv := by
  obtain ⟨hs, -⟩ := inv_iff.mp hi
  exact inv_iff.mpr ⟨hs, coherent_busy hf (fun _ => .inl rfl) hskip⟩

/-- POLL clears the skip flag before its first word, so a BUSY poll never has it set (R173). -/
theorem inv_startPoll {s : State} (hi : s.Inv) (hf : s.fault = .none) : (startPoll s).Inv := by
  obtain ⟨hs, hc⟩ := inv_iff.mp hi
  unfold startPoll
  split
  case isTrue => exact inv_iff.mpr ⟨hs, coherent_busy hf nofun fun _ => rfl⟩
  case isFalse hskip =>
    have hd : (s.setDec { s.dec with objs := [] }).Inv := inv_iff.mpr ⟨hs, hc⟩
    exact inv_startSeek hd hf fun _ => by simpa using hskip

/-- Each effect of an instruction at a ready port keeps the invariant. -/
theorem effect_keeps_inv {i : Instr} {s t : State} (he : Effect i s t) (hi : s.Inv) (hf : s.fault = .none) : t.Inv := by
  cases he with
  | nothing => exact hi
  | invalid => exact inv_raiseInvalidArgument hi
  | illegal r hr => exact inv_respond hi hr
  | answered r v hl hv hb => exact inv_respond_ok hi hl hv
  | queued r v q' hl hv hb hn hg hq => exact inv_respond_ok (inv_setQ hi hg) hl hv
  | dequeued d q' hd hg hq => exact inv_respond_ok (inv_setQ hi hg) rfl rfl
  | underflow hd hc => exact inv_raiseUnderflow hi _
  | transacted u hu hg => exact inv_respond_ok (inv_exchanged (inv_drawWord hi) hu (by simpa using hg)) rfl rfl
  | resynced => exact inv_respond_ok (inv_exchangeOne (inv_drawByte hi) _) rfl rfl
  | seeking hs => exact inv_startSeek hi hf nofun
  | polling hp => exact inv_startPoll hi hf

/-- An instruction at a port that is not BUSY keeps the invariant, with or without a fault recorded. -/
theorem exec_keeps_inv {i : Instr} {s t : State} (hi : s.Inv) (hp : portReady s = true) (h : exec i s = .next t) : t.Inv := by
  by_cases hf : s.fault = .none
  · obtain ⟨u, hu, he⟩ := exec_ready i (.of_inv hi) ⟨hp, hf⟩
    obtain rfl : u = t := by simpa [hu] using h
    exact effect_keeps_inv he hi hf
  · obtain ⟨u, hu, he⟩ := exec_halted i hp hf
    obtain rfl : u = t := by simpa [hu] using h
    rcases he with rfl | rfl | ⟨r, rfl⟩
    · exact hi
    · exact inv_raiseInvalidArgument hi
    · exact inv_respond hi rfl

/-- The answer to an illegal request keeps the invariant: ILLEGAL, or FAULT while a fault is recorded (R224, R225). -/
theorem answerIllegal_keeps_inv {r : Request} {s t : State} (hi : s.Inv) (h : answerIllegal r s = .next t)
    (hr : illegalHeader r.header = true) : t.Inv := by
  rcases acceptRequest_cases h with ⟨-, ht⟩ | ⟨-, -, ht⟩ | ⟨-, ht⟩ <;> cases ht
  · exact hi
  · exact inv_respond hi rfl
  · exact inv_respond hi hr

/-! ### The invariant under a BUSY controller's steps -/

/-- In phase SK_R the 1-byte exchange leads back to SK_X of the same operation (R179). -/
theorem inv_afterResync {s : State} (hi : s.Inv) {op : BusyOp} (hc : s.ctl = .busy op .skR) (b : Byte) :
    ((exchangeOne b s).setCtl (.busy op .skX)).Inv := by
  obtain ⟨hs, -⟩ := inv_iff.mp (inv_exchangeOne hi b)
  have hf := fault_eq_none_of_busy hi hc
  have hskip : op = .poll → s.ctx.skip = false := fun hop => hi.skip_clear .skR (hop ▸ hc)
  exact inv_iff.mpr ⟨hs, coherent_busy hf (fun _ => .inl rfl) hskip⟩

/-- A phase of a poll that goes on leaves the skip flag clear: only the end of a call sets it (R174). -/
theorem wordPhase_skip_clear {s : State} (hi : s.Inv) {ph ph' : Phase} {w : Word} (hc : s.ctl = .busy .poll ph)
    (hgo : (wordPhase .poll ph w s).ctl = .busy .poll ph') : (wordPhase .poll ph w s).ctx.skip = false := by
  by_contra hset
  have hchanged : (wordPhase .poll ph w s).ctx.skip ≠ s.ctx.skip := by rwa [hi.skip_clear ph hc]
  obtain ⟨-, -, hidle⟩ := wordPhase_skip hchanged
  simp [hgo] at hidle

/-- The header of SEEK and of POLL is legal. -/
theorem busyOp_legal (op : BusyOp) : illegalHeader op.request.header = false := by cases op <;> rfl

/-- The updates of a phase after a word keep the invariant (R179). -/
theorem inv_wordPhase {s : State} (hi : s.Inv) {op : BusyOp} {ph : Phase} (h : s.awaitsWord op ph) (w : Word) :
    (wordPhase op ph w s).Inv := by
  obtain ⟨hc, hph⟩ := h
  obtain ⟨hs, -⟩ := inv_iff.mp hi
  obtain ⟨hwire, hq⟩ := wordPhase_wire op ph w s
  obtain ⟨hcfg, hfault, -⟩ := wordPhase_frame op ph w s
  have hseek : op = .seek → ph = .skX := fun hop => (hi.phase_ofOp ph (hop ▸ hc)).resolve_right hph
  rw [inv_iff, hcfg, hq, hwire, hfault, fault_eq_none_of_busy hi hc]
  rcases wordPhase_ctl w ⟨hc, hph⟩ hseek with ⟨v, hctl, hlog, hv, -⟩ | ⟨ph', hctl, hlog, hph'⟩
  · rw [hctl, hlog]
    exact ⟨hs.addAnswer (by simp [responseFits, busyOp_legal, hv]), coherent_idle _⟩
  · have hskip : op = .poll → (wordPhase op ph w s).ctx.skip = false := by
      rintro rfl
      exact wordPhase_skip_clear hi hc hctl
    rw [hctl, hlog]
    exact ⟨hs, coherent_busy rfl hph' hskip⟩

/-- A word exchange leaves the controller where it is. -/
theorem awaitsWord_of_exchanged {s u : State} {w : Word} {op : BusyOp} {ph : Phase} (hu : s.Exchanged w u) (h : s.awaitsWord op ph) :
    u.awaitsWord op ph := by
  rw [Exchanged.frame hu]
  exact h

/-! ### Every step -/

/-- Settles O42, by the cases of a step: reset, nothing to do, an illegal header, an instruction at the port, a resync exchange, a
word exchange with the updates of its phase. -/
theorem everyStepKeepsTheInvariant : Obligations.EveryStepKeepsTheInvariant := by
  intro s t hi h
  rcases step_cases hi with ⟨-, hs⟩ | ⟨-, -, hs⟩ | ⟨-, -, hd, rest, -, hs, hill⟩ | ⟨-, hp, i, rest, -, hs⟩ | ⟨-, op, hc, hs⟩ |
    ⟨-, op, ph, u, hw, hu, hg, hs⟩ <;> rw [hs] at h
  · cases h
    exact inv_resetBlock hi
  · cases h
    exact hi
  · exact answerIllegal_keeps_inv (inv_setHost hi rest) h hill
  · exact exec_keeps_inv (inv_setHost hi rest) hp h
  · cases h
    exact inv_afterResync (inv_drawByte hi) (by simpa using hc) _
  · cases h
    have hdrawn : (drawWord s).2.awaitsWord op ph := ⟨by simpa using hw.1, hw.2⟩
    have hinv : u.Inv := inv_exchanged (inv_drawWord hi) hu (by simpa using hg)
    exact inv_wordPhase hinv (awaitsWord_of_exchanged hu hdrawn) _

end Sys2Proof.Proofs
end

section
/-! PROOFS. What a step does to the state's registers (O14, O41, O46, O47). A received word is one exchange and the updates of its
phase; of the other steps that are no reset only a DEQ of an empty queue writes the recorded fault, and only a POLL that finds the
skip flag set writes the Frame Context. -/

namespace Sys2Proof.Proofs

open Sys2Proof.Machine Sys2Proof.Laws

/-! ### The reset state -/

/-- Settles O14: the reset queue is good, nothing was observed yet, and the controller is IDLE with no fault. -/
theorem resetStateMeetsTheInvariant : Obligations.ResetStateMeetsTheInvariant :=
  inv_iff.mpr ⟨⟨good_reset (by decide), rfl, rfl, standard_asGiven⟩, coherent_idle _⟩

/-! ### A received word -/

/-- A word exchange stores nothing and leaves the tail (R101, R130). -/
theorem exchanged_buf_tail {s u : State} {w : Word} (h : s.Exchanged w u) : u.q.buf = s.q.buf ∧ u.q.tail = s.q.tail := by
  rcases h with ⟨-, rfl⟩ | ⟨d, q', -, hbuf, htail, -, -, rfl⟩
  · exact ⟨rfl, rfl⟩
  · exact ⟨hbuf, htail⟩

/-- A word received where one is awaited is one exchange, then the updates of the phase (R60, R179). -/
theorem exec_decodeRx_next {s t : State} {op : BusyOp} {ph : Phase} {w : Word} (hi : s.Inv) (hw : s.awaitsWord op ph)
    (h : exec (decodeRx w) s = .next t) : ∃ u, s.Exchanged w u ∧ t = wordPhase op ph w u := by
  obtain ⟨u, hu, hrecv, -⟩ := receiveWord_spec (.of_inv hi) hw w
  rw [exec_decodeRx, hrecv] at h
  cases h
  exact ⟨u, hu, rfl⟩

/-- Settles O41: the exchange changes the queue, the scratch buffers and the history, and the phase leaves the rest as stated. -/
theorem receivedWordFrame : Obligations.ReceivedWordFrame := by
  intro s t op ph w hi hw h
  obtain ⟨u, hu, rfl⟩ := exec_decodeRx_next hi hw h
  obtain ⟨hbuf, htail⟩ := exchanged_buf_tail hu
  obtain ⟨hcfg, hfault, hrst, hhost, hrxIn, hdrawn, herr, -, hctx, hskip, hsync, hdec⟩ := wordPhase_frame op ph w u
  obtain ⟨-, hq⟩ := wordPhase_wire op ph w u
  rw [hcfg, hfault, hrst, hhost, hrxIn, hdrawn, herr, hq, hbuf, htail]
  rw [Exchanged.frame hu] at hctx hskip hsync hdec ⊢
  exact ⟨rfl, rfl, rfl, rfl, rfl, rfl, rfl, rfl, fun _ => rfl, hctx, hskip, hsync, hdec⟩

/-! ### The Frame Context and the fault in one step -/

/-- A POLL accepted with the skip flag set clears it and goes to checksum position (R173). -/
theorem startPoll_of_skip {s : State} (h : s.ctx.skip = true) :
    startPoll s = (setSkip false (s.setDec { s.dec with objs := [] })).setCtl (.busy .poll .dChk) := if_pos h

/-- A POLL accepted with the skip flag clear begins a seek (R173). -/
theorem startPoll_of_not_skip {s : State} (h : ¬ s.ctx.skip = true) :
    startPoll s = startSeek .poll (s.setDec { s.dec with objs := [] }) := if_neg h

/-- At a ready port only a DEQ of an empty queue writes the recorded fault, and only a POLL that finds the skip flag set writes the
Frame Context. -/
theorem effect_ctx_fault {i : Instr} {s t : State} (he : Effect i s t) :
    (t.ctx = s.ctx ∧ t.fault = s.fault) ∨
    (i = .deq ∧ s.q.count = 0 ∧ t = raiseUnderflow (bareRequest 0x2#4) s) ∨
    (i = .poll ∧ t = (setSkip false (s.setDec { s.dec with objs := [] })).setCtl (.busy .poll .dChk)) := by
  cases he with
  | underflow hd hc => exact .inr (.inl ⟨hd, hc, rfl⟩)
  | polling hp =>
    by_cases hskip : s.ctx.skip = true
    · exact .inr (.inr ⟨hp, startPoll_of_skip hskip⟩)
    · rw [startPoll_of_not_skip hskip]
      exact .inl ⟨rfl, rfl⟩
  | transacted u hu hg =>
    rw [Exchanged.frame hu]
    exact .inl ⟨by simp, by simp⟩
  | resynced => exact .inl ⟨by simp, by simp⟩
  | nothing | invalid | illegal | answered | queued | dequeued | seeking => exact .inl ⟨rfl, rfl⟩

/-- The answer to an illegal request leaves the Frame Context and the fault (R224). -/
theorem answerIllegal_ctx_fault {r : Request} {s t : State} (h : answerIllegal r s = .next t) :
    t.ctx = s.ctx ∧ t.fault = s.fault := by
  rcases acceptRequest_cases h with ⟨-, ht⟩ | ⟨-, -, ht⟩ | ⟨-, ht⟩ <;> cases ht <;> exact ⟨rfl, rfl⟩

/-- An instruction at a port that is not BUSY leaves the Frame Context and the fault, or has one of its effects at a ready port. -/
theorem exec_ctx_fault {i : Instr} {s t : State} (hi : s.Inv) (hp : portReady s = true) (h : exec i s = .next t) :
    (t.ctx = s.ctx ∧ t.fault = s.fault) ∨ Effect i s t := by
  by_cases hf : s.fault = .none
  · obtain ⟨u, hu, he⟩ := exec_ready i (.of_inv hi) ⟨hp, hf⟩
    obtain rfl : u = t := by simpa [hu] using h
    exact .inr he
  · obtain ⟨u, hu, he⟩ := exec_halted i hp hf
    obtain rfl : u = t := by simpa [hu] using h
    rcases he with rfl | rfl | ⟨r, rfl⟩ <;> exact .inl ⟨rfl, rfl⟩

/-- What a step that is no reset does to the Frame Context and the fault: nothing; a DEQ of an empty queue records UNDERFLOW (R222);
a POLL clears the skip flag (R173); a received word updates the Frame Context as its phase says (R179). -/
theorem step_ctx_fault {s t : State} (hi : s.Inv) (hr : s.rst = false) (h : step s = .next t) :
    (t.ctx = s.ctx ∧ t.fault = s.fault) ∨
    (t.ctx = s.ctx ∧ s.q.count = 0 ∧ s.host = .beat 0x2000#16 :: t.host ∧ t.fault = .underflow ∧ t.ctl = .halt) ∨
    (t.ctx = { s.ctx with skip := false } ∧ t.fault = s.fault ∧ portReady s = true ∧ s.host = .beat 0xB000#16 :: t.host ∧
      t.ctl = .busy .poll .dChk) ∨
    (∃ op ph u, s.awaitsWord op ph ∧ u.ctx = s.ctx ∧ t.fault = s.fault ∧ t = wordPhase op ph (drawWord s).1 u) := by
  rcases step_cases hi with ⟨hr', -⟩ | ⟨-, -, hs⟩ | ⟨-, -, hd, rest, -, hs, -⟩ | ⟨-, hp, i, rest, hfetch, hs⟩ | ⟨-, op, -, hs⟩ |
    ⟨-, op, ph, u, hw, hu, -, hs⟩
  · simp [hr] at hr'
  all_goals rw [hs] at h
  · cases h
    exact .inl ⟨rfl, rfl⟩
  · exact .inl (answerIllegal_ctx_fault (s := s.setHost rest) h)
  · obtain ⟨hdeq, -, hpoll⟩ := fetchRequest_bare hfetch
    rcases exec_ctx_fault (inv_setHost hi rest) hp h with hsame | he
    · exact .inl hsame
    rcases effect_ctx_fault he with hsame | ⟨rfl, hc, rfl⟩ | ⟨rfl, rfl⟩
    · exact .inl hsame
    · exact .inr (.inl ⟨rfl, hc, hdeq rfl, rfl, rfl⟩)
    · exact .inr (.inr (.inl ⟨rfl, rfl, hp, hpoll rfl, rfl⟩))
  · cases h
    exact .inl ⟨by simp, by simp⟩
  · cases h
    obtain ⟨-, hfault, -⟩ := wordPhase_frame op ph (drawWord s).1 u
    have hframe := Exchanged.frame hu
    exact .inr (.inr (.inr ⟨op, ph, u, hw, by rw [hframe]; simp, by rw [hfault, hframe]; simp, rfl⟩))

/-- Settles O46, by what a step that is no reset does to the fault; a reset leaves none recorded. -/
theorem onlyAnEmptyDeqFaults : Obligations.OnlyAnEmptyDeqFaults := by
  refine ⟨rfl, fun s t hi h => ?_⟩
  cases hr : s.rst with
  | true =>
    obtain rfl : resetBlock s = t := by simpa [step, nextAction, hr] using h
    exact ⟨fun _ hset => absurd rfl hset, fun _ _ => rfl⟩
  | false =>
    rcases step_ctx_fault hi hr h with ⟨-, hsame⟩ | ⟨-, hc, hhost, hfault, hctl⟩ | ⟨-, hsame, -⟩ | ⟨op, ph, u, -, -, hsame, -⟩
    case inr.inl => exact ⟨fun _ _ => ⟨hc, hhost, hfault, hctl⟩, fun _ hclear => by simp [hfault] at hclear⟩
    all_goals
      rw [hsame]
      exact ⟨fun hnone hset => absurd hnone hset, fun hset hnone => absurd hnone hset⟩

/-- Only a POLL reaches checksum position, and with the skip flag clear (R173, R179). -/
theorem poll_of_checksum {s : State} (hi : s.Inv) {op : BusyOp} (hc : s.ctl = .busy op .dChk) : op = .poll ∧ s.ctx.skip = false := by
  cases op with
  | seek => rcases hi.phase_ofOp _ hc with h | h <;> cases h
  | poll => exact ⟨rfl, hi.skip_clear _ hc⟩

/-- Settles O47, by what a step that is no reset does to the Frame Context. -/
theorem frameContextChangesOnlyInSeekOrPoll : Obligations.FrameContextChangesOnlyInSeekOrPoll := by
  intro s t hi hr h
  rcases step_ctx_fault hi hr h with ⟨hctx, -⟩ | ⟨hctx, -⟩ | ⟨hctx, -, hp, hhost, hctl⟩ | ⟨op, ph, u, ⟨hc, -⟩, hu, -, rfl⟩
  case inl | inr.inl =>
    rw [hctx]
    exact ⟨fun hset hclear => by simp [hclear] at hset, fun hclear hset => by simp [hset] at hclear, fun hbt => absurd rfl hbt⟩
  case inr.inr.inl => exact ⟨by simp [hctx], fun _ _ => ⟨hp, hhost, hctl⟩, by simp [hctx]⟩
  case inr.inr.inr =>
    refine ⟨fun hset hclear => ?_, fun hclear hset => ?_, fun hbt => ⟨op, ph, hc, ?_⟩⟩
    · obtain ⟨rfl, hword, hidle⟩ := wordPhase_skip (by rw [hset, hu, hclear]; decide)
      obtain ⟨rfl, -⟩ := poll_of_checksum hi hc
      exact ⟨hc, hidle, hword⟩
    · obtain ⟨rfl, -⟩ := wordPhase_skip (by rw [hclear, hu, hset]; decide)
      obtain ⟨-, hskip⟩ := poll_of_checksum hi hc
      simp [hskip] at hset
    · by_contra hph
      obtain ⟨-, -, -, -, -, -, -, -, hkeep, -⟩ := wordPhase_frame op ph (drawWord s).1 u
      exact hbt (by rw [hkeep hph, hu])

end Sys2Proof.Proofs
end

section
/-! PROOFS. The encodings of objects and responses (O50). The width of an answer's value follows from its shape, and the invariant
fixes that shape for the answers of each operation. -/

namespace Sys2Proof.Proofs

open Sys2Proof Sys2Proof.Machine Sys2Proof.Laws

/-! ### The bits of an object -/

/-- A field above the low word is read from what stands above that word. -/
theorem extract_above_word {n : Nat} (k : Nat) (a : BitVec n) (b : Word) :
    (a ++ b).extractLsb' (k + 16) 16 = a.extractLsb' k 16 := by
  rw [BitVec.extractLsb'_append_eq_of_le (Nat.le_add_left 16 k), Nat.add_sub_cancel]

/-- The six words of a packed object (R33). -/
theorem pack_words (o : DetectedObject) :
    o.pack.extractLsb' 80 16 = o.signature ∧ o.pack.extractLsb' 64 16 = o.x ∧ o.pack.extractLsb' 48 16 = o.y ∧
    o.pack.extractLsb' 32 16 = o.width ∧ o.pack.extractLsb' 16 16 = o.height ∧ o.pack.extractLsb' 0 16 = o.angle := by
  refine ⟨?_, ?_, ?_, ?_, ?_, BitVec.extractLsb'_append_eq_right⟩
  · iterate 5 refine (extract_above_word _ _ _).trans ?_
    exact BitVec.extractLsb'_eq_self
  · iterate 4 refine (extract_above_word _ _ _).trans ?_
    exact BitVec.extractLsb'_append_eq_right
  · iterate 3 refine (extract_above_word _ _ _).trans ?_
    exact BitVec.extractLsb'_append_eq_right
  · iterate 2 refine (extract_above_word _ _ _).trans ?_
    exact BitVec.extractLsb'_append_eq_right
  · exact (extract_above_word 0 _ _).trans BitVec.extractLsb'_append_eq_right

/-! ### The shape of an answer's value, by its operation -/

section
variable {c : Nat} {op : BitVec 4} {v : Value}

theorem bit_of_fits (h : valueFits c op v = true) (hop : op.toNat ∈ [0x1, 0x3, 0x6, 0xA]) : ∃ b, v = .bit b := by
  have hops : op = 0x1#4 ∨ op = 0x3#4 ∨ op = 0x6#4 ∨ op = 0xA#4 := by simpa [← BitVec.toNat_inj] using hop
  cases v with
  | bit b => exact ⟨b, rfl⟩
  | _ => rcases hops with rfl | rfl | rfl | rfl <;> cases h

theorem byte_of_fits (h : valueFits c op v = true) (hop : op.toNat = 0x2) : ∃ b, v = .byte b := by
  obtain rfl : op = 0x2#4 := BitVec.eq_of_toNat_eq hop
  cases v with
  | byte b => exact ⟨b, rfl⟩
  | _ => cases h

theorem count_of_fits (h : valueFits c op v = true) (hop : op.toNat ∈ [0x4, 0x5]) : ∃ n, v = .count n ∧ n ≤ c := by
  have hops : op = 0x4#4 ∨ op = 0x5#4 := by simpa [← BitVec.toNat_inj] using hop
  cases v with
  | count n =>
    rcases hops with rfl | rfl
    · exact ⟨n, rfl, Nat.le_of_eq (eq_of_beq h)⟩
    · exact ⟨n, rfl, of_decide_eq_true h⟩
  | _ => rcases hops with rfl | rfl <;> cases h

theorem word_of_fits (h : valueFits c op v = true) (hop : op.toNat = 0x7) : ∃ w, v = .word w := by
  obtain rfl : op = 0x7#4 := BitVec.eq_of_toNat_eq hop
  cases v with
  | word w => exact ⟨w, rfl⟩
  | _ => cases h

theorem none_of_fits (h : valueFits c op v = true) (hop : op.toNat ∈ [0x8, 0x9]) : v = .none := by
  have hops : op = 0x8#4 ∨ op = 0x9#4 := by simpa [← BitVec.toNat_inj] using hop
  cases v with
  | none => rfl
  | _ => rcases hops with rfl | rfl <;> cases h

theorem objects_of_fits (h : valueFits c op v = true) (hop : op.toNat = 0xB) : ∃ os, v = .objects os := by
  obtain rfl : op = 0xB#4 := BitVec.eq_of_toNat_eq hop
  cases v with
  | objects os => exact ⟨os, rfl⟩
  | _ => cases h

end

/-- In a state of the invariant an OK answer's value has the shape of its request's operation (R80). -/
theorem value_fits_of_answered {s : State} (hi : s.Inv) {r : Request} {v : Value} (h : (r, Response.ok v) ∈ s.portLog) :
    valueFits s.cfg.capacity (opField r.header) v = true := by
  have hfit := List.all_eq_true.mp hi.responses_fit _ h
  simp only [responseFits, Bool.and_eq_true] at hfit
  exact hfit.2

/-! ### The width of a count -/

/-- The width of a count is the least that holds 0 to CAPACITY (R80). -/
theorem count_width {c : Config} {n : Nat} (h : n ≤ c.capacity) :
    ∃ k, (Value.count n).width c = some k ∧ n < 2 ^ k ∧ ∀ m, c.capacity + 1 ≤ 2 ^ m ↔ k ≤ m :=
  ⟨bitsFor (c.capacity + 1), rfl, by have := bitsFor_le_iff.mp (Nat.le_refl (bitsFor (c.capacity + 1))); omega,
    fun _ => bitsFor_le_iff.symm⟩

/-- Settles O50, part by part: objects, status codes, the width of a value by its shape, and the frame of a POLL. -/
theorem responsesAreEncodedAsTheSpecSays : Obligations.ResponsesAreEncodedAsTheSpecSays := by
  refine ⟨pack_words, fun _ => rfl, rfl, rfl, fun r => by cases r <;> simp [Response.status], fun s r v hi h => ?_, fun os => ?_⟩
  · have hv := value_fits_of_answered hi h
    rw [← opField_toNat]
    refine ⟨fun hop => ?_, fun hop => ?_, fun hop => ?_, fun hop => ?_, fun hop => ?_, fun hop => ?_⟩
    · obtain ⟨b, rfl⟩ := bit_of_fits hv hop
      rfl
    · obtain ⟨b, rfl⟩ := byte_of_fits hv hop
      exact congrArg some (byteWidth_eq hi.config_asGiven)
    · obtain ⟨n, rfl, hn⟩ := count_of_fits hv hop
      obtain ⟨k, hwidth, hlt, hleast⟩ := count_width hn
      exact ⟨n, k, rfl, hwidth, hlt, hleast⟩
    · obtain ⟨w, rfl⟩ := word_of_fits hv hop
      exact congrArg some (wordWidth_eq hi.config_asGiven)
    · obtain rfl := none_of_fits hv hop
      rfl
    · obtain ⟨os, rfl⟩ := objects_of_fits hv hop
      exact ⟨os, rfl, rfl⟩
  · exact ⟨rfl, List.length_map _, fun k o ho => by simp [pollFrame, ho]⟩

end Sys2Proof.Proofs
end

section
/-! PROOFS. Received words and the answers of the environment (O6, O8, O19): how a word is put together and classified, in which
order the answers are taken, and which row names the exchange of a BUSY controller. -/

namespace Sys2Proof.Proofs

open Sys2Proof Sys2Proof.Machine Sys2Proof.Laws

/-! ### Words -/

/-- A word is its two bytes, the first one high (R54, R72). -/
theorem wordOfBytes_toNat (b0 b1 : Byte) : (wordOfBytes b0 b1).toNat = b0.toNat * 256 + b1.toNat := by
  rw [wordOfBytes, BitVec.toNat_append, ← Nat.shiftLeft_add_eq_or_of_lt b1.isLt, Nat.shiftLeft_eq]

/-- A word that is none of the four marked values is DATA (R73). -/
theorem classify_eq_data {w : Word} (hzero : w ≠ 0#16) (hstart : w ≠ Config.startWord) (hcc : w ≠ Config.startWordCc)
    (hoos : w ≠ Config.outOfSyncWord) : classify w = .data := by
  rw [classify, if_neg hzero, if_neg hstart, if_neg hcc, if_neg hoos]

/-- Settles O6: the assembly as a number, the four marked values by evaluation, and every other word as DATA. -/
theorem receivedWordsAreClassified : Obligations.ReceivedWordsAreClassified := by
  refine ⟨wordOfBytes_toNat, rfl, rfl, rfl, rfl, fun w hzero hstart hcc hoos => ?_⟩
  rw [decodeRx, classify_eq_data hzero hstart hcc hoos]

/-! ### Draws -/

/-- With one byte lined up, a word is that byte and a free draw (log 1). -/
theorem drawWord_single {s : State} {b : Byte} (h : s.rxIn = [b]) :
    drawWord s = (wordOfBytes b (Config.rxByte s.drawn), (s.setRxIn []).setDrawn (s.drawn + 1)) := by
  simp [drawWord, drawByte_cons h, drawByte_nil (s := s.setRxIn []) rfl]

/-- With nothing lined up, a word is two free draws in a row (log 1). -/
theorem drawWord_nil {s : State} (h : s.rxIn = []) :
    drawWord s = (wordOfBytes (Config.rxByte s.drawn) (Config.rxByte (s.drawn + 1)), s.setDrawn (s.drawn + 2)) := by
  have h1 : (s.setDrawn (s.drawn + 1)).rxIn = [] := h
  simp only [drawWord, drawByte_nil h, drawByte_nil h1]
  rfl

/-- Settles O19, by the number of bytes lined up. -/
theorem answersAreTakenInOrder : Obligations.AnswersAreTakenInOrder := fun _ =>
  ⟨fun _ _ _ h => drawWord_cons h, fun _ h => drawWord_single h, fun _ _ h => drawByte_cons h,
    fun h => ⟨drawWord_nil h, drawByte_nil h⟩⟩

/-! ### The rows of a BUSY controller's exchange -/

/-- In phase SK_R the frame due is TX_RESYNC, and its row is the resync exchange (R132, R179). -/
theorem exec_txResync_skR {s : State} {op : BusyOp} (h : s.ctl = .busy op .skR) :
    exec .txResync s = .next ((exchangeOne (drawByte s).1 (drawByte s).2).setCtl (.busy op .skX)) := by
  simp [exec, execTxResync, frameDue_skR h, receiveByte, h]

/-- With an empty queue the row of TX_IDLE receives the environment's next word (R71, R134). -/
theorem exec_txIdle_awaits {s : State} {op : BusyOp} {ph : Phase} (h : s.awaitsWord op ph) (hc : s.q.count = 0) :
    exec .txIdle s = receiveWord (drawWord s).1 (drawWord s).2 := by
  simp [exec, execTxIdle, frameDue_busy h, hc]

/-- With a byte queued the row of TX_DATA with the oldest one receives the environment's next word (R71, R134). -/
theorem exec_txData_awaits {s : State} {op : BusyOp} {ph : Phase} (h : s.awaitsWord op ph) (hc : 0 < s.q.count) :
    exec (.txData (Memory.read s.q.buf s.q.head)) s = receiveWord (drawWord s).1 (drawWord s).2 := by
  simp [exec, execTxData, frameDue_busy h, hc]

/-- Settles O8: the step and each row that names it make the same exchange. -/
theorem stepRunsTheNextExchange : Obligations.StepRunsTheNextExchange := by
  refine fun s op ph hr hc => ⟨fun hskR => ?_, fun hne => ⟨fun b0 b1 bs hrx => ?_, fun _ hempty => ?_, fun _ hqueued => ?_⟩⟩
  · subst hskR
    rw [step_skR hr hc, exec_txResync_skR hc]
  all_goals rw [step_busy hr ⟨hc, hne⟩]
  · rw [drawWord_cons hrx, exec_decodeRx]
    rfl
  · rw [exec_txIdle_awaits ⟨hc, hne⟩ hempty]
  · rw [exec_txData_awaits ⟨hc, hne⟩ hqueued]

end Sys2Proof.Proofs
end

section
/-! PROOFS. What passes through the queue in one step (O43, O44, O45). Every step that is no reset completes, and either makes one
exchange, as the arbiter chooses it, or none; the bytes that enter and leave the queue are accounted for by that exchange and by
the answer given (`Traffic`). The three statements are read off this one account. -/

namespace Sys2Proof.Proofs

open Sys2Proof.Machine Sys2Proof.Laws

/-! ### One exchange -/

/-- An exchange as the arbiter chooses it, for the bytes queued before and after (R60, R134): the idle pair on an empty queue, the
data byte and the oldest queued byte, or one resync byte. -/
def Arbitrated (before after : List Byte) (e : Exchange) : Prop :=
  e.rx.length = e.n ∧
    ((e.n = 2 ∧ before = [] ∧ e.tx = [0x5A#8, 0x00#8] ∧ after = []) ∨
     (e.n = 2 ∧ ∃ d, before = d :: after ∧ e.tx = [0x5B#8, d]) ∨
     (e.n = 1 ∧ e.tx = [0x5A#8] ∧ after = before))

/-- An exchange takes out of the queue, at the front, exactly the byte it sends (R62). -/
theorem Arbitrated.queue_eq {before after : List Byte} {e : Exchange} (h : Arbitrated before after e) :
    before = e.sentByte ++ after := by
  obtain ⟨-, ⟨-, rfl, htx, rfl⟩ | ⟨-, d, rfl, htx⟩ | ⟨-, htx, rfl⟩⟩ := h <;> rw [Exchange.sentByte, htx] <;> rfl

/-- A word exchange adds one event, and the arbiter chose it (R130, R134). -/
theorem exchanged_arbitrated {s u : State} {w : Word} (h : s.Exchanged w u) :
    ∃ e, u.wire = s.wire ++ [e] ∧ Arbitrated s.queued u.queued e := by
  rcases h with ⟨hc, rfl⟩ | ⟨d, q', hq, -, -, -, -, rfl⟩
  · have hnil := queued_eq_nil.mpr hc
    exact ⟨_, rfl, rfl, .inl ⟨rfl, hnil, rfl, hnil⟩⟩
  · exact ⟨_, rfl, rfl, .inr (.inl ⟨rfl, d, hq, rfl⟩)⟩

/-- A resync exchange adds one event, of one byte, and drains nothing (R132, R134). -/
theorem exchangeOne_arbitrated (s : State) (b : Byte) :
    ∃ e, (exchangeOne b s).wire = s.wire ++ [e] ∧ Arbitrated s.queued (exchangeOne b s).queued e :=
  ⟨_, rfl, rfl, .inr (.inr ⟨rfl, rfl, rfl⟩)⟩

/-! ### The account of a step -/

/-- What passes through the queue from `s` to `t`, with at most one exchange and what was answered. -/
inductive Traffic (s t : State) : Prop
  /-- No exchange: what was accepted entered at the back, and a DEQ's answer left at the front. -/
  | quiet (answers : List (Request × Response)) (accepted : List Byte) (hwire : t.wire = s.wire)
      (hlog : t.portLog = s.portLog ++ answers) (hqueue : s.queued ++ accepted = answers.flatMap dequeuedByte ++ t.queued)
      (haccepted : accepted = [] ∨ ∃ r a, answers = [(r, .ok a)] ∧ a ≠ .bit false ∧ accepted = r.offered)
  /-- One exchange of the arbiter's choice; no answer carries a queued byte. -/
  | exchanged (e : Exchange) (answers : List (Request × Response)) (hwire : t.wire = s.wire ++ [e])
      (harb : Arbitrated s.queued t.queued e) (hlog : t.portLog = s.portLog ++ answers)
      (hanswers : answers.flatMap dequeuedByte = [])

/-- With queue, history and answers unchanged nothing passes. -/
theorem Traffic.silent {s t : State} (hwire : t.wire = s.wire) (hlog : t.portLog = s.portLog) (hqueue : t.queued = s.queued) :
    Traffic s t :=
  .quiet [] [] hwire (by simp [hlog]) (by simp [hqueue]) (.inl rfl)

/-- An answer alone that carries no queued byte passes nothing through the queue. -/
theorem traffic_respond (r : Request) {a : Response} (s : State) (ha : dequeuedByte (r, a) = []) : Traffic s (respond r a s) :=
  .quiet [(r, a)] [] rfl rfl (by simp [ha, State.queued]) (.inl rfl)

/-- The account reads of the first state only its queue, its history and its answers. -/
theorem Traffic.of_same {s s' t : State} (h : Traffic s' t) (hwire : s'.wire = s.wire) (hlog : s'.portLog = s.portLog)
    (hqueue : s'.queued = s.queued) : Traffic s t := by
  cases h with
  | quiet answers accepted hw hl hq ha => exact .quiet answers accepted (hwire ▸ hw) (hlog ▸ hl) (hqueue ▸ hq) ha
  | exchanged e answers hw harb hl ha => exact .exchanged e answers (hwire ▸ hw) (hqueue ▸ harb) (hlog ▸ hl) ha

/-- The value of an answer that is no byte took none out of the queue. -/
theorem dequeuedByte_of_ne_byte {r : Request} {v : Value} (h : ∀ b, v ≠ .byte b) : dequeuedByte (r, .ok v) = [] := by
  cases v with
  | byte b => exact absurd rfl (h b)
  | _ => rfl

theorem queued_drawWord (s : State) : (drawWord s).2.queued = s.queued := by simp [State.queued]

theorem queued_drawByte (s : State) : (drawByte s).2.queued = s.queued := by simp [State.queued]

/-! ### The account of each kind of step -/

theorem startPoll_traffic (s : State) : Traffic s (startPoll s) := by
  by_cases hskip : s.ctx.skip = true
  · rw [startPoll_of_skip hskip]
    exact .silent rfl rfl rfl
  · rw [startPoll_of_not_skip hskip]
    exact .silent rfl rfl rfl

/-- What each effect of an instruction at a ready port passes through the queue. -/
theorem effect_traffic {i : Instr} {s t : State} (he : Effect i s t) : Traffic s t := by
  cases he with
  | nothing | invalid | seeking => exact .silent rfl rfl rfl
  | polling => exact startPoll_traffic s
  | illegal r => exact traffic_respond r s rfl
  | underflow => exact .quiet [(bareRequest 0x2#4, .fault)] [] rfl rfl (List.append_nil _) (.inl rfl)
  | answered r v hl hv hb => exact traffic_respond r s (dequeuedByte_of_ne_byte hb)
  | queued r v q' hl hv hb hn hg hq =>
    refine .quiet [(r, .ok v)] r.offered rfl rfl ?_ (.inr ⟨r, v, rfl, hn, rfl⟩)
    rw [List.flatMap_singleton, dequeuedByte_of_ne_byte hb]
    exact hq.symm
  | dequeued d q' hd hg hq =>
    exact .quiet [(bareRequest 0x2#4, .ok (.byte d))] [] rfl rfl ((List.append_nil _).trans hq) (.inl rfl)
  | transacted u hu =>
    obtain ⟨e, hwire, harb⟩ := exchanged_arbitrated hu
    rw [queued_drawWord] at harb
    refine .exchanged e [(bareRequest 0x7#4, .ok (.word (drawWord s).1))] (by simpa using hwire) harb ?_ rfl
    rw [Exchanged.frame hu]
    simp
  | resynced =>
    obtain ⟨e, hwire, harb⟩ := exchangeOne_arbitrated (drawByte s).2 (drawByte s).1
    rw [queued_drawByte] at harb
    exact .exchanged e [(bareRequest 0x8#4, .ok .none)] (by simpa using hwire) harb (by simp) rfl

/-- An instruction at a port that is not BUSY completes: with one of its effects, or answered FAULT (R225). -/
theorem exec_completes (i : Instr) {s : State} (hi : s.Inv) (hp : portReady s = true) :
    ∃ t, exec i s = .next t ∧ (Effect i s t ∨ ∃ r, t = respond r .fault s) := by
  by_cases hf : s.fault = .none
  · obtain ⟨t, ht, he⟩ := exec_ready i (.of_inv hi) ⟨hp, hf⟩
    exact ⟨t, ht, .inl he⟩
  · obtain ⟨t, ht, rfl | rfl | hr⟩ := exec_halted i hp hf
    · exact ⟨_, ht, .inl .nothing⟩
    · exact ⟨_, ht, .inl .invalid⟩
    · exact ⟨_, ht, .inr hr⟩

theorem exec_traffic (i : Instr) {s : State} (hi : s.Inv) (hp : portReady s = true) :
    ∃ t, exec i s = .next t ∧ Traffic s t := by
  obtain ⟨t, ht, he | ⟨r, rfl⟩⟩ := exec_completes i hi hp
  · exact ⟨t, ht, effect_traffic he⟩
  · exact ⟨_, ht, traffic_respond r s rfl⟩

/-- An illegal request is answered with no byte taken or added (R224, R225). -/
theorem answerIllegal_traffic (r : Request) (s : State) : ∃ t, answerIllegal r s = .next t ∧ Traffic s t := by
  rcases acceptRequest_cases (o := answerIllegal r s) rfl with ⟨-, ht⟩ | ⟨-, -, ht⟩ | ⟨-, ht⟩
  · exact ⟨s, ht, .silent rfl rfl rfl⟩
  · exact ⟨_, ht, traffic_respond r s rfl⟩
  · exact ⟨_, ht.symm, traffic_respond r s rfl⟩

/-- In phase SK_R the one exchange is the resync byte (R132). -/
theorem resync_traffic (s : State) (ctl : Ctl) : Traffic s ((exchangeOne (drawByte s).1 (drawByte s).2).setCtl ctl) := by
  obtain ⟨e, hwire, harb⟩ := exchangeOne_arbitrated (drawByte s).2 (drawByte s).1
  rw [queued_drawByte] at harb
  exact .exchanged e [] (by simpa using hwire) harb (by simp) rfl

/-- A phase that receives a word makes the one exchange of that word; its own answer is no byte (R179). -/
theorem word_traffic {s u : State} {op : BusyOp} {ph : Phase} (hi : s.Inv) (h : s.awaitsWord op ph)
    (hu : (drawWord s).2.Exchanged (drawWord s).1 u) : Traffic s (wordPhase op ph (drawWord s).1 u) := by
  obtain ⟨e, hexchange, harb⟩ := exchanged_arbitrated hu
  obtain ⟨hwire, hq⟩ := wordPhase_wire op ph (drawWord s).1 u
  obtain ⟨hcfg, -⟩ := wordPhase_frame op ph (drawWord s).1 u
  have hqueued : (wordPhase op ph (drawWord s).1 u).queued = u.queued := by simp only [State.queued, hq, hcfg]
  have hlog : u.portLog = s.portLog := by rw [Exchanged.frame hu]; simp
  rw [queued_drawWord, ← hqueued] at harb
  rw [drawWord_wire, ← hwire] at hexchange
  have hseek : op = .seek → ph = .skX := fun hop => (hi.phase_ofOp ph (hop ▸ h.1)).resolve_right h.2
  have hawaits : u.awaitsWord op ph := awaitsWord_of_exchanged hu ⟨by simpa using h.1, h.2⟩
  rcases wordPhase_ctl (drawWord s).1 hawaits hseek with ⟨v, -, hanswer, -, hv⟩ | ⟨ph', -, hnone, -⟩
  · exact .exchanged e [(op.request, .ok v)] hexchange harb (by rw [hanswer, hlog]) (by simp [dequeuedByte_of_ne_byte hv])
  · exact .exchanged e [] hexchange harb (by simp [hnone, hlog]) rfl

/-- A step that is no reset completes, and accounts for every byte that passes through the queue. -/
theorem step_traffic {s : State} (hi : s.Inv) (hr : s.rst = false) : ∃ t, step s = .next t ∧ Traffic s t := by
  rcases step_cases hi with ⟨hr', -⟩ | ⟨-, -, hs⟩ | ⟨-, -, h, rest, -, hs, -⟩ | ⟨-, hp, i, rest, -, hs⟩ | ⟨-, op, -, hs⟩ |
    ⟨-, op, ph, u, hw, hu, -, hs⟩
  · simp [hr] at hr'
  all_goals rw [hs]
  · exact ⟨s, rfl, .silent rfl rfl rfl⟩
  · obtain ⟨t, ht, htraffic⟩ := answerIllegal_traffic { header := h, payload := [] } (s.setHost rest)
    exact ⟨t, ht, htraffic.of_same rfl rfl rfl⟩
  · obtain ⟨t, ht, htraffic⟩ := exec_traffic i (inv_setHost hi rest) hp
    exact ⟨t, ht, htraffic.of_same rfl rfl rfl⟩
  · exact ⟨_, rfl, resync_traffic s _⟩
  · exact ⟨_, rfl, word_traffic hi hw hu⟩

/-- The reset input resets the block, whatever else is due (R250, R251). -/
theorem step_of_rst {s : State} (hr : s.rst = true) : step s = .next (resetBlock s) := by
  simp [step, nextAction, hr]

/-- The step that was taken has the account of `step_traffic`. -/
theorem traffic_of_step {s t : State} (hi : s.Inv) (hr : s.rst = false) (h : step s = .next t) : Traffic s t := by
  obtain ⟨u, hu, htraffic⟩ := step_traffic hi hr
  obtain rfl : u = t := by simpa [hu] using h
  exact htraffic

/-! ### The statements -/

/-- Settles O43: a reset completes, and so does every step with an account of its traffic. -/
theorem noStepStops : Obligations.NoStepStops := by
  intro s hi
  cases hr : s.rst with
  | true => exact ⟨_, step_of_rst hr⟩
  | false =>
    obtain ⟨t, ht, -⟩ := step_traffic hi hr
    exact ⟨t, ht⟩

/-- Settles O44: a reset keeps the history, and every other step's exchange is the arbiter's. -/
theorem everyExchangeFollowsTheArbiter : Obligations.EveryExchangeFollowsTheArbiter := by
  intro s t hi h
  cases hr : s.rst with
  | true =>
    obtain rfl : resetBlock s = t := by simpa [step_of_rst hr] using h
    exact .inl rfl
  | false =>
    cases traffic_of_step hi hr h with
    | quiet answers accepted hwire => exact .inl hwire
    | exchanged e answers hwire harb => exact .inr ⟨e, hwire, harb⟩

/-- Settles O45: what leaves is sent by the step's exchange or carried by its answer, and only an answer without an exchange goes
with bytes accepted. -/
theorem everyStepKeepsFifoOrder : Obligations.EveryStepKeepsFifoOrder := by
  intro s t hi hr h
  cases traffic_of_step hi hr h with
  | quiet answers accepted hwire hlog hqueue haccepted =>
    exact ⟨[], answers, accepted, by simp [hwire], hlog, by simpa using hqueue, haccepted⟩
  | exchanged e answers hwire harb hlog hanswers =>
    exact ⟨[e], answers, [], hwire, hlog, by simpa [hanswers] using harb.queue_eq, .inl rfl⟩

end Sys2Proof.Proofs
end

section
/-! PROOFS. Requests, frames and words read back (O1, O3, O4, O5). A header is read in one of three ways, by its operation: with its
low byte as an operand, with no operand, or with the payload whose length it states. Each way has one rule for legal headers and one
for what is left over. -/

namespace Sys2Proof.Proofs

open Sys2Proof Sys2Proof.Machine Sys2Proof.Laws

/-! ### Legal headers -/

section
variable {h : Beat} {rest : List Beat}

theorem decodeImm_legal (hr : rsvField h = 0#4) (mk : Byte → Instr) : decodeImm h mk rest = .ok (mk (immField h), rest) :=
  if_pos hr

theorem decodeBare_legal (hr : rsvField h = 0#4) (hz : immField h = 0#8) (i : Instr) : decodeBare h i rest = .ok (i, rest) := by
  rw [decodeBare, if_pos hr, if_pos hz]

theorem decodePayload_legal (hr : rsvField h = 0#4) (hl : (immField h).toNat ≤ rest.length) (mk : List Byte → Instr) :
    decodePayload h mk rest =
      .ok (mk ((rest.take (immField h).toNat).map payloadByte), rest.drop (immField h).toNat) := by
  rw [decodePayload, if_pos hr, if_pos hl]

end

/-- Settles O4: the op field selects the way the header is read, and the header is legal for it. -/
theorem legalHeadersSelectTheirOperation : Obligations.LegalHeadersSelectTheirOperation := by
  intro h rest hrsv
  have hr := rsvField_eq_zero.mpr hrsv
  simp only [decodeRequest, decodeHeader, opField_toNat]
  refine ⟨fun hop => ?_, fun hop hl => ?_, fun hop hl => ?_, fun himm => ?_⟩
  · rw [hop]
    exact decodeImm_legal hr _
  · rw [← immField_toNat] at hl ⊢
    rw [hop]
    exact decodePayload_legal hr hl _
  · rw [← immField_toNat] at hl ⊢
    rw [hop]
    exact decodePayload_legal hr hl _
  · have hz := immField_eq_zero.mpr himm
    refine ⟨?_, ?_, ?_, ?_, ?_, ?_, ?_, ?_⟩ <;> intro hop <;> rw [hop] <;> exact decodeBare_legal hr hz _

/-! ### What is left over -/

section
variable {h : Beat} {rest left : List Beat} {i : Instr}

theorem left_of_decodeImm {mk : Byte → Instr} (hd : decodeImm h mk rest = .ok (i, left)) : left = rest := by
  unfold decodeImm at hd
  split at hd <;> cases hd
  rfl

theorem left_of_decodeBare {j : Instr} (hd : decodeBare h j rest = .ok (i, left)) : left = rest := by
  unfold decodeBare at hd
  split at hd
  · split at hd <;> cases hd
    rfl
  · cases hd

theorem length_of_decodePayload {mk : List Byte → Instr} (hd : decodePayload h mk rest = .ok (i, left)) :
    rsvField h = 0#4 ∧ rest.length = (immField h).toNat + left.length := by
  unfold decodePayload at hd
  split at hd
  · split at hd <;> cases hd
    rename_i hr hl
    exact ⟨hr, by rw [List.length_drop]; omega⟩
  · cases hd

/-- A decoded request has consumed as many beats as its header says (R78). -/
theorem length_of_decodeRequest (hd : decodeRequest (h :: rest) = .ok (i, left)) :
    rest.length + 1 = requestLength h + left.length := by
  have one : (opField h).toNat ≠ 3 → (opField h).toNat ≠ 9 → left = rest → rest.length + 1 = requestLength h + left.length := by
    rintro h3 h9 rfl
    rw [requestLength, if_neg (by rintro ⟨-, hop | hop⟩ <;> simp [hop] at h3 h9), Nat.add_comm]
  have payload : opField h = 3#4 ∨ opField h = 9#4 → ∀ mk, decodePayload h mk rest = .ok (i, left) →
      rest.length + 1 = requestLength h + left.length := by
    intro hop mk hp
    obtain ⟨hr, hl⟩ := length_of_decodePayload hp
    rw [requestLength, if_pos ⟨hr, hop⟩]
    omega
  simp only [decodeRequest, decodeHeader] at hd
  split at hd <;> rename_i hop
  case h_2 => exact one (by omega) (by omega) (left_of_decodeImm hd)
  case h_4 => exact payload (.inl (BitVec.eq_of_toNat_eq hop)) _ hd
  case h_10 => exact payload (.inr (BitVec.eq_of_toNat_eq hop)) _ hd
  case h_1 | h_13 | h_14 | h_15 | h_16 =>
    cases hd
    exact one (by omega) (by omega) rfl
  all_goals exact one (by omega) (by omega) (left_of_decodeBare hd)

end

/-- Settles O5, with the request's length as a number of its header. -/
theorem requestLengthFollowsFromTheHeader : Obligations.RequestLengthFollowsFromTheHeader := by
  intro h rest left i hd
  rw [← requestLength_eq]
  exact length_of_decodeRequest hd

/-! ### Encoded instructions -/

section
variable (op : BitVec 4) (more : List Beat)

@[simp] theorem decodeImm_headerOf (mk : Byte → Instr) (b : Byte) : decodeImm (headerOf op b) mk more = .ok (mk b, more) := by
  simp [decodeImm_legal]

@[simp] theorem decodeBare_headerOf (i : Instr) : decodeBare (headerOf op 0#8) i more = .ok (i, more) := by
  simp [decodeBare_legal]

theorem decodePayload_headerOf {p : List Byte} (hp : p.length ≤ Config.standard.maxPayload) (mk : List Byte → Instr) :
    decodePayload (headerOf op (lengthByte p)) mk (p.map payloadBeat ++ more) = .ok (mk p, more) := by
  rw [decodePayload_legal (by simp) (by simp [lengthByte_toNat hp])]
  simp [lengthByte_toNat hp, Function.comp_def]

end

/-- The beats of a well-formed request, with whatever comes after them, are read as that request. -/
theorem decodeRequest_of_encode {i : Instr} {beats : List Beat} (more : List Beat) (hwf : i.wellFormed = true)
    (hp : i.isPseudo = false) (he : encode i = .request beats) : decodeRequest (beats ++ more) = .ok (i, more) := by
  cases i
  case servo | exposure | led => cases hp
  case txData | txIdle | txResync | rxStart | rxStartCc | rxOos | rxZero | rxData => cases he
  all_goals cases he
  case enqcmd p | send p =>
    have hlen : p.length ≤ Config.standard.maxPayload := of_decide_eq_true hwf
    simp [payloadRequest, decodeRequest, decodeHeader, decodePayload_headerOf _ _ hlen]
  all_goals simp [decodeRequest, decodeHeader]

theorem decodeWords_of_request {i : Instr} {beats : List Beat} (hwf : i.wellFormed = true) (hp : i.isPseudo = false)
    (he : encode i = .request beats) : decodeWords (encode i) = .ok i := by
  have hd := decodeRequest_of_encode [] hwf hp he
  rw [List.append_nil] at hd
  rw [he, decodeWords, hd]

theorem decodeTx_bytes (f : TxFrame) : decodeTx f.bytes = .ok f.instr := by
  cases f <;> rfl

/-- Settles O1, by the interface the instruction belongs to. -/
theorem everyInstructionDecodesFromItsEncoding : Obligations.EveryInstructionDecodesFromItsEncoding := by
  intro i hwf hp
  cases i
  case servo | exposure | led => cases hp
  case txData d => exact decodeTx_bytes (.data d)
  case txIdle => exact decodeTx_bytes .idle
  case txResync => exact decodeTx_bytes .resync
  case rxStart | rxStartCc | rxOos | rxZero => rfl
  case rxData w =>
    have hw : classify w = .data := of_decide_eq_true hwf
    simp only [encode, decodeWords, decodeRx, hw]
  all_goals exact decodeWords_of_request hwf hp rfl

/-- Settles O3: each of the examples is a closed fact of the decoder. -/
theorem encodingExamplesDecode : Obligations.EncodingExamplesDecode := by
  refine ⟨?_, ?_, ?_, ?_, ?_, ?_, ?_, ?_, ?_, ?_, ?_, ?_, ?_, ?_, ?_, ?_, ?_, ?_, ?_⟩ <;> decide

end Sys2Proof.Proofs
end

section
/-! PROOFS. The request port (O7, O11, O24, O27): what it fetches of a request whose beats are all there, and of one whose beats are
not, and what it does with a request while the controller is BUSY. -/

namespace Sys2Proof.Proofs

open Sys2Proof Sys2Proof.Machine Sys2Proof.Laws

/-! ### What is fetched -/

theorem encode_ne_request_nil (i : Instr) : encode i ≠ .request [] := by
  intro he
  cases i
  case servo | exposure | led =>
    simp only [encode] at he
    split at he <;> cases he
  all_goals cases he

/-- The beats of a well-formed request in front of what the host has lined up are fetched as that request, and no others with them
(R78). -/
theorem fetchRequest_of_encode {i : Instr} {beats : List Beat} (rest : List HostItem) (hwf : i.wellFormed = true)
    (hp : i.isPseudo = false) (he : encode i = .request beats) :
    fetchRequest (beats.map HostItem.beat ++ rest) = .run i rest := by
  cases beats with
  | nil => exact absurd he (encode_ne_request_nil i)
  | cons h bs =>
    have hd : decodeRequest (h :: (bs ++ portBeats rest)) = .ok (i, portBeats rest) :=
      decodeRequest_of_encode (portBeats rest) hwf hp he
    have hl : requestLength h - 1 = (bs.map HostItem.beat).length := by
      have := length_of_decodeRequest hd
      simp only [List.length_append, List.length_map] at this ⊢
      omega
    simp only [List.map_cons, List.cons_append, fetchRequest, portBeats_map, hd, hl, List.drop_left]

/-- A header that asks for more payload beats than there are is not accepted yet (log 10). -/
theorem fetchRequest_incomplete {h : Beat} {beats : List Beat} (hr : h.toNat / 256 % 16 = 0)
    (hop : h.toNat / 4096 = 0x3 ∨ h.toNat / 4096 = 0x9) (hl : beats.length < h.toNat % 256) :
    fetchRequest ((h :: beats).map HostItem.beat) = .nothing := by
  have hpayload : ∀ mk, decodePayload h mk beats = .error (.incomplete h) := fun mk => by
    rw [decodePayload, if_pos (rsvField_eq_zero.mpr hr), if_neg (by rw [immField_toNat]; omega)]
  have hbeats : portBeats (beats.map HostItem.beat) = beats := by simpa [portBeats] using portBeats_map beats []
  have hd : decodeRequest (h :: beats) = .error (.incomplete h) := by
    rcases hop with hop | hop <;> simp only [decodeRequest, decodeHeader, opField_toNat, hop, hpayload]
  simp only [List.map_cons, fetchRequest, hbeats, hd]

/-- Settles O7, by what is fetched. -/
theorem stepRunsTheNextRequest : Obligations.StepRunsTheNextRequest := by
  intro s rest hr hp
  rw [step_ready hr hp]
  refine ⟨fun i beats hwf hpseudo he hhost => ?_, fun s1 s2 hhost => ?_, fun v hhost => ?_, fun r g b hhost => ?_⟩ <;> rw [hhost]
  · rw [fetchRequest_of_encode rest hwf hpseudo he]
    rfl
  all_goals rfl

/-- Settles O11: nothing is fetched. -/
theorem nothingPresentedChangesNothing : Obligations.NothingPresentedChangesNothing := by
  intro s hr hp
  rw [step_ready hr hp]
  refine ⟨fun hhost => ?_, fun h beats hrsv hop hl hhost => ?_⟩ <;> rw [hhost]
  · rfl
  · rw [fetchRequest_incomplete hrsv hop hl]

/-! ### Reserved codes -/

/-- At a ready port an illegal request is answered ILLEGAL (R224). -/
theorem answerIllegal_ready {s : State} (r : Request) (hs : s.ready) : answerIllegal r s = .next (respond r .illegal s) :=
  acceptRequest_ready r _ hs

/-- Settles O24: each reserved code is an illegal request. -/
theorem reservedCodesAreAnsweredIllegal : Obligations.ReservedCodesAreAnsweredIllegal := fun _ _ hs =>
  ⟨answerIllegal_ready _ hs, answerIllegal_ready _ hs, answerIllegal_ready _ hs, answerIllegal_ready _ hs,
    answerIllegal_ready _ hs⟩

/-! ### The held port -/

/-- A pseudo-operation that issues a request is the SEND of its bytes (R200). -/
theorem pseudo_is_send {i : Instr} {beats : List Beat} (hp : i.isPseudo = true) (he : encode i = .request beats) :
    ∃ p, encode (.send p) = .request beats ∧ ∀ s, exec i s = exec (.send p) s := by
  cases i
  case servo | exposure | led =>
    simp only [encode] at he
    split at he <;> cases he
    exact ⟨_, rfl, fun _ => if_pos ‹_›⟩
  all_goals cases hp

/-- Whatever has the words of a request, a pseudo-operation too, is presented at the port as one (R79). -/
theorem exec_accepts {i : Instr} {beats : List Beat} (he : encode i = .request beats) :
    ∃ r run, ∀ s, exec i s = acceptRequest r run s := by
  cases hp : i.isPseudo with
  | true =>
    obtain ⟨p, -, hsend⟩ := pseudo_is_send hp he
    exact ⟨_, _, hsend⟩
  | false =>
    cases beats with
    | nil => exact absurd he (encode_ne_request_nil i)
    | cons h bs => exact ⟨_, exec_request hp he⟩

/-- Settles O27: the request is presented, and the port is not ready. -/
theorem busyPortHoldsRequests : Obligations.BusyPortHoldsRequests := by
  intro s op ph i beats hc he
  obtain ⟨r, run, hrun⟩ := exec_accepts he
  rw [hrun, acceptRequest_busy r run (portReady_eq_false.mpr ⟨op, ph, hc⟩)]

end Sys2Proof.Proofs
end

section
/-! PROOFS. The exchanges of a BUSY controller, by the frame that goes out (O37, O38, O39, O40). The row of a frame is the controller's
next exchange when that frame is the one due, and nothing otherwise; a word exchange is what goes out, then the updates of the phase. -/

namespace Sys2Proof.Proofs

open Sys2Proof Sys2Proof.Machine Sys2Proof.Laws

/-! ### The frame that is due -/

section
variable {s : State} {op : BusyOp} {ph : Phase}

/-- Receiving a word is the exchange `u`, then the updates of the phase, which touch neither the queue nor the history (R179). -/
theorem receiveWord_next {w : Word} {u : State} (h : s.awaitsWord op ph) (hu : transactWord w s = .next u) :
    ∃ t, receiveWord w s = .next t ∧ t.cfg = u.cfg ∧ t.q = u.q ∧ t.wire = u.wire := by
  obtain ⟨hwire, hq⟩ := wordPhase_wire op ph w u
  exact ⟨_, by rw [receiveWord_busy w h, hu, mapNext_next], (wordPhase_frame op ph w u).1, hq, hwire⟩

theorem awaitsWord_drawWord (h : s.awaitsWord op ph) : (drawWord s).2.awaitsWord op ph := ⟨by simpa using h.1, h.2⟩

end

/-- Settles O37: the exchange pops the oldest byte and sends it. -/
theorem txDataSendsTheOldestByte : Obligations.TxDataSendsTheOldestByte := by
  intro s op ph hi hw hc
  obtain ⟨d, q', hu, -, -, hq, -, hbuf, htail, hd, -⟩ :=
    transactWord_queued (drawWord s).1 (good_drawWord hi) (by simpa using hc)
  obtain ⟨t, ht, hcfg, htq, hwire⟩ := receiveWord_next (awaitsWord_drawWord hw) hu
  simp only [drawWord_q, drawWord_cfg, queued_drawWord, setQ_cfg, setQ_q, setQ_wire, drawWord_wire, exchangeTwo_cfg, exchangeTwo_q,
    exchangeTwo_wire] at hq hbuf htail hd hcfg htq hwire
  have hrow := exec_txData_awaits hw hc
  rw [← hd] at hrow
  refine ⟨d, t, ?_, hrow.trans ht, by rw [hrow, exec_decodeRx], hwire, by rw [htq, hbuf], by rw [htq, htail]⟩
  rw [hq, State.queued, htq, hcfg]

/-- Settles O38: the exchange sends the idle pair. -/
theorem txIdleSendsTheIdlePair : Obligations.TxIdleSendsTheIdlePair := by
  intro s op ph hw hc
  have hu := transactWord_empty (drawWord s).1 (s := (drawWord s).2) (by simpa using hc)
  obtain ⟨t, ht, -, htq, hwire⟩ := receiveWord_next (awaitsWord_drawWord hw) hu
  have hrow := exec_txIdle_awaits hw hc
  rw [exchangeTwo_q, drawWord_q] at htq
  rw [exchangeTwo_wire, drawWord_wire] at hwire
  exact ⟨t, hrow.trans ht, by rw [hrow, exec_decodeRx], htq, hwire⟩

/-- Settles O39, by the row of TX_RESYNC in phase SK_R. -/
theorem txResyncShiftsByOneByte : Obligations.TxResyncShiftsByOneByte := by
  intro s op hc
  rw [exec_txResync_skR hc, ← drawByte_ch s, ← drawByte_wire s]
  rfl

/-! ### Frames and words that are not due -/

section
variable {s : State}

/-- The row of a frame that is not due changes nothing (log 14). -/
theorem exec_frame_not_due (f : TxFrame) (h : frameDue s ≠ some f) : exec f.instr s = .next s := by
  cases f <;> exact if_neg h

/-- A word that no phase awaits changes nothing (log 14). -/
theorem receiveWord_not_awaited (w : Word) (h : ∀ op ph, ¬ s.awaitsWord op ph) : receiveWord w s = .next s := by
  cases hc : s.ctl with
  | idle => simp only [receiveWord, hc]
  | halt => simp only [receiveWord, hc]
  | busy op ph =>
    obtain rfl : ph = .skR := by
      by_contra hph
      exact h op ph ⟨hc, hph⟩
    simp only [receiveWord, hc]

theorem not_awaitsWord_ready (h : portReady s = true) (op : BusyOp) (ph : Phase) : ¬ s.awaitsWord op ph := by
  rintro ⟨hc, -⟩
  rw [portReady_eq_false.mpr ⟨op, ph, hc⟩] at h
  cases h

theorem not_awaitsWord_skR {op : BusyOp} (h : s.ctl = .busy op .skR) (op' : BusyOp) (ph : Phase) : ¬ s.awaitsWord op' ph := by
  rintro ⟨hc, hph⟩
  rw [h] at hc
  cases hc
  exact hph rfl

end

/-- Settles O40, by the frame that is due at the port, in phase SK_R and in the other phases. -/
theorem exchangesNotDueChangeNothing : Obligations.ExchangesNotDueChangeNothing := by
  intro s d w
  rw [exec_decodeRx]
  have hdata := exec_frame_not_due (s := s) (.data d)
  have hidle := exec_frame_not_due (s := s) .idle
  have hresync := exec_frame_not_due (s := s) .resync
  refine ⟨fun hp => ?_, fun op hc => ?_, fun op ph hw => ?_⟩
  · have hdue := frameDue_ready hp
    rw [hdue] at hdata hidle hresync
    exact ⟨hdata nofun, hidle nofun, hresync nofun, receiveWord_not_awaited w (not_awaitsWord_ready hp)⟩
  · have hdue := frameDue_skR hc
    rw [hdue] at hdata hidle
    exact ⟨hdata nofun, hidle nofun, receiveWord_not_awaited w (not_awaitsWord_skR hc)⟩
  · have hdue := frameDue_busy hw
    refine ⟨hresync ?_, fun hc => hidle ?_, fun hc => hdata ?_⟩
    · rw [hdue]
      split <;> nofun
    · rw [hdue, if_pos hc]
      nofun
    · rw [hdue]
      rcases hc with hc | hc
      · simp [hc]
      · split
        · simpa using Ne.symm hc
        · nofun

end Sys2Proof.Proofs
end

section
/-! PROOFS. Requests and their answers (O48). What one step adds to the port's log is read off each kind of step: a request accepted at
a ready port, a pseudo-operation, the exchange of a BUSY controller. -/

namespace Sys2Proof.Proofs

open Sys2Proof Sys2Proof.Machine Sys2Proof.Laws

/-! ### The log of the port in one step -/

/-- From `s` to `t` one answer was given, or none. -/
def AtMostOneAnswer (s t : State) : Prop := t.portLog = s.portLog ∨ ∃ p, t.portLog = s.portLog ++ [p]

theorem atMostOneAnswer_respond {r : Request} {a : Response} {s u : State} (h : u.portLog = s.portLog) :
    AtMostOneAnswer s (respond r a u) :=
  .inr ⟨(r, a), by rw [respond_portLog, h]⟩

theorem startPoll_busy (s : State) :
    (startPoll s).portLog = s.portLog ∧ (startPoll s).host = s.host ∧ ∃ ph, (startPoll s).ctl = .busy .poll ph := by
  by_cases h : s.ctx.skip = true
  · rw [startPoll_of_skip h]
    exact ⟨rfl, rfl, _, rfl⟩
  · rw [startPoll_of_not_skip h]
    exact ⟨rfl, rfl, _, rfl⟩

theorem effect_atMostOneAnswer {i : Instr} {s t : State} (he : Effect i s t) : AtMostOneAnswer s t := by
  cases he with
  | nothing => exact .inl rfl
  | invalid => exact .inl rfl
  | illegal r _ => exact atMostOneAnswer_respond rfl
  | answered r v _ _ _ => exact atMostOneAnswer_respond rfl
  | queued r v q' _ _ _ _ _ _ => exact atMostOneAnswer_respond rfl
  | dequeued d q' _ _ _ => exact atMostOneAnswer_respond rfl
  | underflow _ _ => exact atMostOneAnswer_respond rfl
  | transacted u hu _ => exact atMostOneAnswer_respond (by rw [Exchanged.frame hu]; simp)
  | resynced => exact atMostOneAnswer_respond (by simp)
  | seeking _ => exact .inl rfl
  | polling _ => exact .inl (startPoll_busy s).1

/-- An illegal request at a ready port is answered in its step, ILLEGAL or FAULT (R224, R225). -/
theorem answerIllegal_answers (r : Request) {s : State} (hp : portReady s = true) :
    ∃ a, answerIllegal r s = .next (respond r a s) := by
  by_cases hf : s.fault = .none
  · exact ⟨_, answerIllegal_ready r ⟨hp, hf⟩⟩
  · exact ⟨_, acceptRequest_halted r _ hp hf⟩

/-- An instruction run at a port that is not BUSY gives at most one answer. -/
theorem exec_atMostOneAnswer {i : Instr} {s t : State} (hi : s.Inv) (hp : portReady s = true) (h : exec i s = .next t) :
    AtMostOneAnswer s t := by
  obtain ⟨u, hu, he⟩ := exec_completes i hi hp
  obtain rfl : u = t := by simpa [hu] using h
  rcases he with he | ⟨r, rfl⟩
  · exact effect_atMostOneAnswer he
  · exact atMostOneAnswer_respond rfl

/-! ### The step of a BUSY controller -/

/-- A BUSY controller consumes nothing of the host's, and answers its own request in the step that returns to IDLE and in no other
(R79, R179). -/
theorem busy_answers {s t : State} {op : BusyOp} {ph : Phase} (hi : s.Inv) (hr : s.rst = false) (hc : s.ctl = .busy op ph)
    (h : step s = .next t) :
    t.host = s.host ∧
      ((∃ v, t.ctl = .idle ∧ t.portLog = s.portLog ++ [(op.request, .ok v)]) ∨
       (∃ ph', t.ctl = .busy op ph' ∧ t.portLog = s.portLog)) := by
  by_cases hph : ph = .skR
  · subst hph
    rw [step_skR hr hc] at h
    cases h
    exact ⟨by simp, .inr ⟨.skX, rfl, by simp⟩⟩
  · have hw : (drawWord s).2.awaitsWord op ph := awaitsWord_drawWord ⟨hc, hph⟩
    obtain ⟨u, hu, hstep, -⟩ := receiveWord_spec (good_drawWord hi) hw (drawWord s).1
    rw [step_busy hr ⟨hc, hph⟩, hstep] at h
    cases h
    have hhost : u.host = s.host := by rw [Exchanged.frame hu]; simp
    have hlog : u.portLog = s.portLog := by rw [Exchanged.frame hu]; simp
    obtain ⟨-, -, -, hkeep, -⟩ := wordPhase_frame op ph (drawWord s).1 u
    have hseek : op = .seek → ph = .skX := fun hop => (hi.phase_ofOp ph (hop ▸ hc)).resolve_right hph
    refine ⟨hkeep.trans hhost, ?_⟩
    rcases wordPhase_ctl (drawWord s).1 (awaitsWord_of_exchanged hu hw) hseek with ⟨v, hidle, hanswer, -⟩ | ⟨ph', hctl, hnone, -⟩
    · exact .inl ⟨v, hidle, hlog ▸ hanswer⟩
    · exact .inr ⟨ph', hctl, hlog ▸ hnone⟩

/-! ### A request at a ready port -/

section
variable {s : State} {rest : List HostItem}

theorem exec_seek_ready (hs : s.ready) : exec .seek s = .next (startSeek .seek s) := by
  rw [exec, execSeek, acceptRequest_ready _ _ hs]

theorem exec_poll_ready (hs : s.ready) : exec .poll s = .next (startPoll s) := by
  rw [exec, execPoll, acceptRequest_ready _ _ hs]

theorem step_of_seek (hr : s.rst = false) (hs : s.ready) (hhost : s.host = .beat 0xA000#16 :: rest) :
    step s = .next (startSeek .seek (s.setHost rest)) := by
  rw [step_ready hr hs.1, hhost]
  exact exec_seek_ready (s := s.setHost rest) hs

theorem step_of_poll (hr : s.rst = false) (hs : s.ready) (hhost : s.host = .beat 0xB000#16 :: rest) :
    step s = .next (startPoll (s.setHost rest)) := by
  rw [step_ready hr hs.1, hhost]
  exact exec_poll_ready (s := s.setHost rest) hs

/-- A request that is no SEEK or POLL to be run is answered in the step that accepts it, FAULT in HALT, and consumes nothing more
(R223, R225). -/
theorem exec_answers_once {i : Instr} {h : Beat} {bs : List Beat} (hpseudo : i.isPseudo = false)
    (he : encode i = .request (h :: bs)) (hg : Good s.cfg.capacity s.q) (hp : portReady s = true)
    (hrun : s.fault = .none → i ≠ .seek ∧ i ≠ .poll) :
    ∃ u a, exec i s = .next (respond { header := h, payload := bs.map payloadByte } a u) ∧ u.portLog = s.portLog ∧
      u.host = s.host ∧ portReady u = true := by
  by_cases hf : s.fault = .none
  · exact exec_answers hpseudo he (hrun hf).1 (hrun hf).2 hg ⟨hp, hf⟩
  · obtain ⟨run, hexec⟩ := exec_request hpseudo he
    exact ⟨s, .fault, by rw [hexec, acceptRequest_halted _ _ hp hf], rfl, rfl, hp⟩

variable {h : Beat} {p : List Byte}

/-- The step at a ready port whose request is no SEEK or POLL to be run: the request's own beats are consumed, and it is answered once
as presented (R77, R79). -/
theorem ready_answers (hi : s.Inv) (hr : s.rst = false) (hp : portReady s = true) (hl : requestLength h = p.length + 1)
    (hhost : s.host = .beat h :: (p.map payloadBeat).map HostItem.beat ++ rest)
    (hrun : ¬ (s.fault = .none ∧ (h = 0xA000#16 ∨ h = 0xB000#16))) :
    ∃ u a, step s = .next (respond { header := h, payload := p } a u) ∧ u.portLog = s.portLog ∧ u.host = rest ∧
      portReady u = true := by
  have hstep := step_ready hr hp
  rcases fetchRequest_beats (h := h) (p := p) rest hl with ⟨i, hf, hpseudo, he⟩ | ⟨rfl, hf⟩
  · obtain ⟨-, hseek, hpoll⟩ := fetchRequest_bare hf
    have hne : (s.setHost rest).fault = .none → i ≠ .seek ∧ i ≠ .poll := fun hfault =>
      ⟨fun hop => hrun ⟨hfault, .inl (by simpa using congrArg List.head? (hseek hop))⟩,
        fun hop => hrun ⟨hfault, .inr (by simpa using congrArg List.head? (hpoll hop))⟩⟩
    have hanswer := exec_answers_once hpseudo he (.of_inv (inv_setHost hi rest)) hp hne
    rw [map_payloadByte_payloadBeat] at hanswer
    rwa [hstep, hhost, hf]
  · obtain ⟨a, ha⟩ := answerIllegal_answers { header := h, payload := [] } (s := s.setHost rest) hp
    exact ⟨s.setHost rest, a, by rw [hstep, hhost, hf]; exact ha, rfl, rfl, hp⟩

/-- The step at a ready port with a SEEK or POLL to be run: its one beat is consumed, it makes the controller BUSY, and no answer is
given yet (R78, R179). -/
theorem ready_busy {t : State} (hr : s.rst = false) (hs : s.ready) (hop : h = 0xA000#16 ∨ h = 0xB000#16)
    (hhost : s.host = .beat h :: rest) (hstep : step s = .next t) :
    t.host = rest ∧ t.portLog = s.portLog ∧ ∃ ph, t.ctl = .busy (if h = 0xA000#16 then .seek else .poll) ph := by
  rcases hop with rfl | rfl
  · rw [step_of_seek hr hs hhost] at hstep
    cases hstep
    exact ⟨rfl, rfl, _, rfl⟩
  · rw [step_of_poll hr hs hhost] at hstep
    cases hstep
    obtain ⟨hlog, hkeep, hctl⟩ := startPoll_busy (s.setHost rest)
    exact ⟨hkeep, hlog, hctl⟩

end

/-- A step that is no reset gives at most one answer. -/
theorem step_atMostOneAnswer {s t : State} (hi : s.Inv) (hr : s.rst = false) (h : step s = .next t) : AtMostOneAnswer s t := by
  cases hp : portReady s with
  | false =>
    obtain ⟨op, ph, hc⟩ := portReady_eq_false.mp hp
    obtain ⟨-, ⟨v, -, hlog⟩ | ⟨ph', -, hlog⟩⟩ := busy_answers hi hr hc h
    · exact .inr ⟨_, hlog⟩
    · exact .inl hlog
  | true =>
    rw [step_ready hr hp] at h
    split at h
    · cases h
      exact .inl rfl
    · rename_i i rest _
      exact exec_atMostOneAnswer (s := s.setHost rest) (inv_setHost hi rest) hp h
    · rename_i hd rest _
      obtain ⟨a, ha⟩ := answerIllegal_answers { header := hd, payload := [] } (s := s.setHost rest) hp
      rw [ha] at h
      cases h
      exact atMostOneAnswer_respond rfl

/-- Settles O48: the log in every step, a request at a ready port by whether it makes the controller BUSY, and a BUSY controller. -/
theorem everyRequestGetsOneResponse : Obligations.EveryRequestGetsOneResponse := by
  intro s t hi hr h
  refine ⟨step_atMostOneAnswer hi hr h, fun hd p rest hp hlen hhost => ?_, fun op ph hc => ?_⟩
  · have hl : requestLength hd = p.length + 1 := by
      rw [requestLength_eq, hlen]
      split <;> omega
    replace hhost : s.host = .beat hd :: (p.map payloadBeat).map HostItem.beat ++ rest := by
      rw [List.map_map]
      exact hhost
    by_cases hrun : s.fault = .none ∧ (hd = 0xA000#16 ∨ hd = 0xB000#16)
    · rw [if_pos hrun]
      obtain ⟨hf, hop⟩ := hrun
      have hone : requestLength hd = 1 := by rcases hop with rfl | rfl <;> rfl
      obtain rfl : p = [] := List.length_eq_zero_iff.mp (by omega)
      exact ready_busy hr ⟨hp, hf⟩ hop hhost h
    · rw [if_neg hrun]
      obtain ⟨u, a, hstep, hlog, hkeep, hready⟩ := ready_answers hi hr hp hl hhost hrun
      rw [hstep] at h
      cases h
      exact ⟨hkeep, hready, a, by rw [respond_portLog, hlog]⟩
  · have hbusy := busy_answers hi hr hc h
    cases op <;> exact hbusy

end Sys2Proof.Proofs
end

section
/-! PROOFS. The outbound command queue's requests at a ready port (O15, O16, O17, O18). Each operation has one rule: what it answers,
and which queue the queue's own procedures leave behind; what those do to the queued bytes and to the storage is theirs to say. -/

namespace Sys2Proof.Proofs

open Sys2Proof Sys2Proof.Machine Sys2Proof.Laws

/-! ### What each request does -/

section
variable {s : State} {q' : Queue}

/-- A byte that is pushed is answered 1 (R102). -/
theorem exec_enq_pushed {b : Byte} (hs : s.ready) (hfree : s.q.count < s.cfg.capacity)
    (hpush : pushByte s.cfg.capacity b s.q = .ok q') :
    exec (.enq b) s = .next (respond { header := headerOf 0x1#4 b, payload := [] } (.ok (.bit true)) (s.setQ q')) := by
  rw [exec, execEnq, acceptRequest_ready _ _ hs, if_pos hfree, hpush]

/-- On a full queue a byte is answered 0 (R103). -/
theorem exec_enq_full (b : Byte) (hs : s.ready) (hfull : ¬ s.q.count < s.cfg.capacity) :
    exec (.enq b) s = .next (respond { header := headerOf 0x1#4 b, payload := [] } (.ok (.bit false)) s) := by
  rw [exec, execEnq, acceptRequest_ready _ _ hs, if_neg hfull]

/-- A byte that is popped is the answer (R104). -/
theorem exec_deq_popped {d : Byte} (hs : s.ready) (hqueued : 0 < s.q.count) (hpop : popByte s.cfg.capacity s.q = .ok (d, q')) :
    exec .deq s = .next (respond (bareRequest 0x2#4) (.ok (.byte d)) (s.setQ q')) := by
  rw [exec, execDeq, acceptRequest_ready _ _ hs, if_neg hqueued.ne', hpop]

/-- A DEQ of an empty queue is the fault entry (R222). -/
theorem exec_deq_empty (hs : s.ready) (hempty : s.q.count = 0) : exec .deq s = .next (raiseUnderflow (bareRequest 0x2#4) s) := by
  rw [exec, execDeq, acceptRequest_ready _ _ hs, if_pos hempty]

/-- ENQCMD answers whether the command was taken (R106). -/
theorem exec_enqcmd_enqueued {p : List Byte} {taken : Bool} (hs : s.ready)
    (henq : enqueueAll s.cfg.capacity p s.q = .ok (q', taken)) :
    exec (.enqcmd p) s = .next (respond (payloadRequestOf 0x3#4 p) (.ok (.bit taken)) (s.setQ q')) := by
  rw [exec, execEnqcmd, acceptRequest_ready _ _ hs, henq]

/-- SEND does not say whether the command was taken (R135). -/
theorem exec_send_enqueued {p : List Byte} {taken : Bool} (hs : s.ready)
    (henq : enqueueAll s.cfg.capacity p s.q = .ok (q', taken)) :
    exec (.send p) s = .next (respond (payloadRequestOf 0x9#4 p) (.ok .none) (s.setQ q')) := by
  rw [exec, execSend, sendCommand, acceptRequest_ready _ _ hs, henq]

/-- CAP answers the configuration constant (R108). -/
theorem exec_cap_ready (hs : s.ready) : exec .cap s = .next (respond (bareRequest 0x4#4) (.ok (.count s.cfg.capacity)) s) := by
  rw [exec, execCap, acceptRequest_ready _ _ hs]

/-- SIZE answers the length of the abstract queue (R109). -/
theorem exec_size_ready (hs : s.ready) : exec .size s = .next (respond (bareRequest 0x5#4) (.ok (.count s.queued.length)) s) := by
  rw [exec, execSize, acceptRequest_ready _ _ hs, queued_length]

/-- EMPTY answers whether the abstract queue is empty (R110). -/
theorem exec_empty_ready (hs : s.ready) :
    exec .empty s = .next (respond (bareRequest 0x6#4) (.ok (.bit (decide (s.queued = [])))) s) := by
  rw [exec, execEmpty, acceptRequest_ready _ _ hs, decide_eq_decide.mpr queued_eq_nil, beq_eq_decide]

end

/-! ### The statements -/

/-- Settles O15: a push onto a queue with a slot free, and the refusal of a full one. -/
theorem enqAppendsItsByteOrChangesNothing : Obligations.EnqAppendsItsByteOrChangesNothing := by
  refine fun s b hi hs => ⟨fun hfree => ?_, fun hfull => exec_enq_full b hs hfull.not_lt⟩
  obtain ⟨q', hpush, -, hbytes, hcount, hhead, htail, hbuf⟩ := pushByte_spec b (.of_inv hi) hfree
  have hstored : Memory.read q'.buf s.q.tail = b := by rw [hbuf, read_write_same _ _ hi.memory_wf]
  have hkept : ∀ a, a ≠ s.q.tail → Memory.read q'.buf a = Memory.read s.q.buf a := fun a ha => by
    rw [hbuf, read_write_other _ _ ha]
  exact ⟨q', exec_enq_pushed hs hfree hpush, hbytes, hhead, htail, hcount, hstored, hkept⟩

/-- Settles O16: a pop of a non-empty queue, and the fault entry on an empty one. -/
theorem deqRemovesTheOldestByteOrHalts : Obligations.DeqRemovesTheOldestByteOrHalts := by
  refine fun s hi hs => ⟨fun hqueued => ?_, exec_deq_empty hs⟩
  obtain ⟨d, q', hpop, -, hbytes, hcount, hbuf, htail, -, hhead⟩ := popByte_spec (.of_inv hi) hqueued
  exact ⟨d, q', exec_deq_popped hs hqueued hpop, hbytes, hhead, htail, by omega, hbuf⟩

/-- Settles O17: both operations answer one whole-command enqueue, which takes the payload when it fits and else nothing. -/
theorem wholeCommandsAreAllOrNothing : Obligations.WholeCommandsAreAllOrNothing := by
  refine fun s p hi hs _ => ⟨fun hfits => ?_, fun hlong => ?_⟩
  · obtain ⟨q', henq, -, hbytes, hcount, hhead, htail, hkept⟩ := enqueueAll_fits p (.of_inv hi) hfits
    exact ⟨q', exec_enqcmd_enqueued hs henq, exec_send_enqueued hs henq, hbytes, hhead, hcount, htail, hkept⟩
  · have henq := enqueueAll_full p hlong.not_ge
    exact ⟨exec_enqcmd_enqueued hs henq, exec_send_enqueued hs henq⟩

/-- Settles O18, by the rule of each query. -/
theorem queueQueriesOnlyAnswer : Obligations.QueueQueriesOnlyAnswer := fun _ hs =>
  ⟨exec_cap_ready hs, exec_size_ready hs, exec_empty_ready hs⟩

end Sys2Proof.Proofs
end

section
/-! PROOFS. The transaction channel's requests at a ready port (O20, O21): one rule per operation, what it exchanges and what it
answers. -/

namespace Sys2Proof.Proofs

open Sys2Proof Sys2Proof.Machine Sys2Proof.Laws

section
variable {s : State}

/-- TRANSACT makes the exchange `u` and answers the word it received (spec/41_channel.md R131). -/
theorem exec_transact_exchanged {u : State} (hs : s.ready) (hu : transactWord (drawWord s).1 (drawWord s).2 = .next u) :
    exec .transact s = .next (respond (bareRequest 0x7#4) (.ok (.word (drawWord s).1)) u) := by
  rw [exec, execTransact, acceptRequest_ready _ _ hs, hu, mapNext_next]

/-- RESYNC makes the 1-byte exchange, whose byte is no part of the answer (R133). -/
theorem exec_resync_ready (hs : s.ready) :
    exec .resync s = .next (respond (bareRequest 0x8#4) (.ok .none) (exchangeOne (drawByte s).1 (drawByte s).2)) := by
  rw [exec, execResync, acceptRequest_ready _ _ hs]

theorem Exchanged.portLog_eq {w : Word} {u : State} (h : s.Exchanged w u) : u.portLog = s.portLog := by
  rw [Exchanged.frame h]

end

/-- Settles O20: the atomic dequeue and exchange (R130), whose word is then answered; the log it is added to is the one before. -/
theorem transactAnswersTheReceivedWord : Obligations.TransactAnswersTheReceivedWord := by
  intro s hi hs
  obtain ⟨u, hnext, hexch, -⟩ := transactWord_exchanged (drawWord s).1 (good_drawWord hi)
  have hlog : u.portLog = s.portLog := (Exchanged.portLog_eq hexch).trans (drawWord_portLog s)
  refine ⟨u, hexch, ?_⟩
  rw [exec_transact_exchanged hs hnext, ← hlog]
  rfl

/-- Settles O21: the exchange replaces one scratch byte each way, and a draw keeps the buffers and both logs. -/
theorem resyncSendsOneIdleByte : Obligations.ResyncSendsOneIdleByte := by
  intro s hs
  rw [exec_resync_ready hs, ← drawByte_ch s, ← drawByte_wire s, ← drawByte_portLog s]
  rfl

end Sys2Proof.Proofs
end

section
/-! PROOFS. What a seek does with each received word (O22, O32): the rows of R153 for each word, and the updates of phase SK_X for each
row. -/

namespace Sys2Proof.Proofs

open Sys2Proof Sys2Proof.Machine Sys2Proof.Laws

/-- Settles O22: acceptance writes the previous word and the controller state. -/
theorem seekStartsWithNoPreviousWord : Obligations.SeekStartsWithNoPreviousWord := fun _ hs => exec_seek_ready hs

/-! ### The rows of the transition table, by the word received -/

/-- The row that ends a seek with the result `r` of Seek() (R151): NO_DATA, or DATA with the block type found. -/
def endRow : Option BlockType → SeekRow
  | none => .noData
  | some bt => .found bt

section
variable (prev : Word)

theorem seekRow_zero : seekRow prev 0#16 = if prev = 0#16 then .noData else .roll := by
  simp +decide [seekRow]

theorem seekRow_start :
    seekRow prev Config.startWord = if prev = Config.startWord then .found .normal else .roll := by
  simp +decide [seekRow]

theorem seekRow_startCc :
    seekRow prev Config.startWordCc = if prev = Config.startWord then .found .colorCode else .roll := by
  simp +decide [seekRow]

theorem seekRow_outOfSync : seekRow prev Config.outOfSyncWord = .resync := by
  simp +decide [seekRow]

theorem seekRow_other {w : Word} (hzero : w ≠ 0#16) (hstart : w ≠ Config.startWord) (hcc : w ≠ Config.startWordCc)
    (hoos : w ≠ Config.outOfSyncWord) : seekRow prev w = .roll := by
  simp [seekRow, hzero, hstart, hcc, hoos]

end

/-- Only an out-of-sync word is followed by a resync. -/
theorem outOfSync_of_seekRow {prev w : Word} (h : seekRow prev w = .resync) : w = Config.outOfSyncWord := by
  unfold seekRow at h
  split_ifs at h with _ _ _ hoos
  exact hoos

theorem ne_outOfSync_of_seekRow {prev w : Word} (h : seekRow prev w ≠ .resync) : w ≠ Config.outOfSyncWord := by
  rintro rfl
  exact h (seekRow_outOfSync prev)

theorem endRow_ne_resync (r : Option BlockType) : endRow r ≠ .resync := by cases r <;> nofun

/-- The first word of a seek cannot end it (R154). -/
theorem seekRow_noPreviousWord (w : Word) (r : Option BlockType) : seekRow Config.noPreviousWord w ≠ endRow r := by
  unfold seekRow
  split_ifs with hzero hstart hcc hoos
  · exact absurd hzero.1 (by decide)
  · exact absurd hstart.1 (by decide)
  · exact absurd hcc.1 (by decide)
  · exact (endRow_ne_resync r).symm
  · cases r <;> nofun

/-! ### The updates of phase SK_X, by the row -/

/-- A seek ends with the result `r` (R179). -/
def endSeek (op : BusyOp) : Option BlockType → State → State
  | none => seekNoData op
  | some bt => seekFound op bt

section
variable {s : State} {w : Word} {op : BusyOp}

theorem seekWord_end {r : Option BlockType} (h : seekRow s.sync.prev w = endRow r) :
    seekWord op w s = endSeek op r (s.setSync { s.sync with cur := w }) := by
  cases r <;> simp only [seekWord, h, endRow, endSeek]

theorem seekWord_resync (h : seekRow s.sync.prev w = .resync) :
    seekWord op w s = (s.setSync { prev := w, cur := w }).setCtl (.busy op .skR) := by
  simp only [seekWord, h]

theorem seekWord_roll (hc : s.ctl = .busy op .skX) (h : seekRow s.sync.prev w = .roll) :
    seekWord op w s = { s with sync := { prev := w, cur := w } } := by
  simp only [seekWord, h, ← hc]
  rfl

/-- At seek position a word is one exchange and its row's updates; the exchange keeps the previous word and the phase. -/
theorem receiveWord_seek (hi : s.Inv) (hc : s.ctl = .busy op .skX) (w : Word) :
    ∃ u, s.Exchanged w u ∧ receiveWord w s = .next (seekWord op w u) ∧ u.sync = s.sync ∧ u.ctl = .busy op .skX := by
  obtain ⟨u, hu, hrecv, -⟩ := receiveWord_spec (.of_inv hi) ⟨hc, nofun⟩ w
  have hframe := Exchanged.frame hu
  exact ⟨u, hu, hrecv, by rw [hframe], by rw [hframe, hc]⟩

/-- A word that ends a seek exactly when it follows the word `p`, and else becomes the previous word. -/
theorem receiveWord_seek_ending {p : Word} {r : Option BlockType} (hi : s.Inv) (hc : s.ctl = .busy op .skX)
    (hrow : ∀ prev, seekRow prev w = if prev = p then endRow r else .roll) :
    ∃ u, s.Exchanged w u ∧ receiveWord w s = .next (
      if s.sync.prev = p then endSeek op r (u.setSync { u.sync with cur := w })
      else { u with sync := { prev := w, cur := w } }) := by
  obtain ⟨u, hu, hrecv, hsync, hctl⟩ := receiveWord_seek hi hc w
  refine ⟨u, hu, ?_⟩
  rw [hrecv, ← hsync]
  by_cases hp : u.sync.prev = p
  · rw [if_pos hp, seekWord_end (by rw [hrow, if_pos hp])]
  · rw [if_neg hp, seekWord_roll hctl (by rw [hrow, if_neg hp])]

end

/-- Settles O32: the three words that can end a seek, the out-of-sync word with the resync after it, and every other word. -/
theorem seekPositionFollowsItsTable : Obligations.SeekPositionFollowsItsTable := by
  intro s op hi hc
  refine ⟨?_, ?_, ?_, ?_, fun w hzero hstart hcc hoos => ?_⟩
  · obtain ⟨u, hu, h⟩ := receiveWord_seek_ending (r := none) hi hc seekRow_zero
    exact ⟨u, hu, h.trans (by cases op <;> rfl)⟩
  · obtain ⟨u, hu, h⟩ := receiveWord_seek_ending (r := some .normal) hi hc seekRow_start
    exact ⟨u, hu, h.trans (by cases op <;> rfl)⟩
  · obtain ⟨u, hu, h⟩ := receiveWord_seek_ending (r := some .colorCode) hi hc seekRow_startCc
    exact ⟨u, hu, h.trans (by cases op <;> rfl)⟩
  · obtain ⟨u, hu, hrecv, -⟩ := receiveWord_seek hi hc Config.outOfSyncWord
    rw [seekWord_resync (seekRow_outOfSync _)] at hrecv
    exact ⟨u, _, hu, hrecv, rfl, txResyncShiftsByOneByte _ op rfl⟩
  · obtain ⟨u, hu, hrecv, -, hctl⟩ := receiveWord_seek hi hc w
    rw [seekWord_roll hctl (seekRow_other _ hzero hstart hcc hoos)] at hrecv
    exact ⟨u, hu, hrecv⟩

end Sys2Proof.Proofs
end

section
/-! PROOFS. Whole seeks (O51, O53). `SeekReads` unfolds Seek() into the words it reads, one row of R153 at a time; `BusyRun` accounts
for the steps of a BUSY controller, one exchange a step. A seek of the machine is followed along the words that Seek() reads. -/

namespace Sys2Proof.Proofs

open Sys2Proof Sys2Proof.Machine Sys2Proof.Laws

/-! ### The words that Seek() reads -/

/-- From the previous word `prev` on, Seek() reads the words `ws` off the bytes given, a byte more after each out-of-sync word, and
returns `r` with the bytes `rest` left over (R151, R153). -/
inductive SeekReads (r : Option BlockType) (rest : List Byte) : Word → List Word → List Byte → Prop
  | last {prev w : Word} (hrow : seekRow prev w = endRow r) : SeekReads r rest prev [w] (wordBytes w ++ rest)
  | resync {prev w : Word} {ws : List Word} {bs : List Byte} (b : Byte) (hrow : seekRow prev w = .resync)
      (hmore : SeekReads r rest w ws bs) : SeekReads r rest prev (w :: ws) (wordBytes w ++ b :: bs)
  | roll {prev w : Word} {ws : List Word} {bs : List Byte} (hrow : seekRow prev w = .roll)
      (hmore : SeekReads r rest w ws bs) : SeekReads r rest prev (w :: ws) (wordBytes w ++ bs)

theorem wordBytes_wordOfBytes (b0 b1 : Byte) : wordBytes (wordOfBytes b0 b1) = [b0, b1] := by
  show [hiByte _, loByte _] = _
  simp

/-- Two bytes and the bytes after them are a word read and those bytes. -/
theorem SeekReads.of_bytes {r : Option BlockType} {rest bs : List Byte} {prev : Word} {ws : List Word} {b0 b1 : Byte}
    (h : SeekReads r rest prev ws (wordBytes (wordOfBytes b0 b1) ++ bs)) : SeekReads r rest prev ws (b0 :: b1 :: bs) := by
  rwa [wordBytes_wordOfBytes] at h

/-- Whenever Seek() returns it has read some words, row by row. -/
theorem seekReads_of_seekBytes {r : Option BlockType} {rest : List Byte} (prev : Word) (bs : List Byte)
    (h : seekBytes prev bs = some (r, rest)) : ∃ ws, SeekReads r rest prev ws bs := by
  -- Cases 1, 2 and 6 run out of bytes; 3 to 5 and 7 to 9 are the rows that end a seek, on the last two bytes and before more.
  fun_induction seekBytes prev bs
  case case1 | case2 | case6 => cases h
  case case3 hend | case7 hend =>
    cases h
    exact ⟨_, SeekReads.of_bytes (.last (if_pos hend))⟩
  case case4 hzero hend | case8 hzero hend =>
    cases h
    exact ⟨_, SeekReads.of_bytes (.last ((if_neg hzero).trans (if_pos hend)))⟩
  case case5 hzero hstart hend | case9 hzero hstart hend =>
    cases h
    exact ⟨_, SeekReads.of_bytes (.last ((if_neg hzero).trans ((if_neg hstart).trans (if_pos hend))))⟩
  case case10 b _ hzero hstart hcc hoos ih =>
    obtain ⟨ws, hws⟩ := ih h
    rw [← hoos] at hws
    exact ⟨_, SeekReads.of_bytes
      (.resync b ((if_neg hzero).trans ((if_neg hstart).trans ((if_neg hcc).trans (if_pos hoos)))) hws)⟩
  case case11 hzero hstart hcc hoos ih =>
    obtain ⟨ws, hws⟩ := ih h
    exact ⟨_, SeekReads.of_bytes
      (.roll ((if_neg hzero).trans ((if_neg hstart).trans ((if_neg hcc).trans (if_neg hoos)))) hws)⟩

section
variable {r : Option BlockType} {rest bs : List Byte} {prev : Word} {ws : List Word}

theorem SeekReads.words_ne_nil (h : SeekReads r rest prev ws bs) : ws ≠ [] := by cases h <;> nofun

/-- A seek that starts with no previous word reads at least two words (R154, R157). -/
theorem SeekReads.two_le_length (h : SeekReads r rest Config.noPreviousWord ws bs) : 2 ≤ ws.length := by
  cases h with
  | last hrow => exact absurd hrow (seekRow_noPreviousWord _ r)
  | resync _ _ hmore => exact Nat.succ_le_succ (List.length_pos_iff.mpr hmore.words_ne_nil)
  | roll _ hmore => exact Nat.succ_le_succ (List.length_pos_iff.mpr hmore.words_ne_nil)

/-- The last word of a seek is never the out-of-sync word (R157). -/
theorem SeekReads.getLast?_ne_outOfSync (h : SeekReads r rest prev ws bs) : ws.getLast? ≠ some Config.outOfSyncWord := by
  induction h with
  | last hrow =>
    have hne := ne_outOfSync_of_seekRow (hrow ▸ endRow_ne_resync r)
    simpa using hne
  | resync _ _ hmore ih | roll _ hmore ih => rwa [List.getLast?_cons_of_ne_nil hmore.words_ne_nil]

end

/-! ### The exchanges of a run of words -/

/-- The exchanges `evs` are one of two bytes for each word of `ws`, which received it, and one of one byte directly after each
out-of-sync word (R157). -/
structure Accounted (evs : List Exchange) (ws : List Word) : Prop where
  lengths : evs.map Exchange.n = ws.flatMap (fun w => if w = 0x55AA#16 then [2, 1] else [2])
  received : (evs.filter (fun e => e.n == 2)).map Exchange.rx = ws.map wordBytes

theorem accounted_nil : Accounted [] [] := ⟨rfl, rfl⟩

section
variable {evs : List Exchange} {ws : List Word} {e e' : Exchange} {w : Word}

theorem Accounted.word (h : Accounted evs ws) (hw : w ≠ Config.outOfSyncWord) (hn : e.n = 2) (hrx : e.rx = wordBytes w) :
    Accounted (e :: evs) (w :: ws) where
  lengths := by
    rw [List.map_cons, List.flatMap_cons, if_neg (show ¬w = 0x55AA#16 from hw), hn, h.lengths]
    rfl
  received := by simpa [hn, hrx] using h.received

theorem Accounted.resync (h : Accounted evs ws) (hw : w = Config.outOfSyncWord) (hn : e.n = 2) (hrx : e.rx = wordBytes w)
    (hn' : e'.n = 1) : Accounted (e :: e' :: evs) (w :: ws) where
  lengths := by
    rw [List.map_cons, List.map_cons, List.flatMap_cons, if_pos (show w = 0x55AA#16 from hw), hn, hn', h.lengths]
    rfl
  received := by simpa [hn, hn', hrx] using h.received

end

/-! ### Steps of a BUSY controller -/

/-- From `s` to `t` each step made one exchange, and these are `evs`: the bytes received are the ones lined up, those sent left the
queue in order, and nothing of the host's was consumed. -/
structure BusyRun (s : State) (evs : List Exchange) (t : State) : Prop where
  run : core.run evs.length s = .next t
  wire : t.wire = s.wire ++ evs
  received : s.rxIn = evs.flatMap Exchange.rx ++ t.rxIn
  sent : s.queued = evs.flatMap Exchange.sentByte ++ t.queued
  host : t.host = s.host
  rst : t.rst = s.rst
  inv : t.Inv

theorem run_succ (M : Host.Core) {s t : M.State} (k : Nat) (h : M.step s = .next t) : M.run (k + 1) s = M.run k t := by
  simp only [Host.Core.run, h]

theorem run_add (M : Host.Core) {s t : M.State} {k : Nat} (m : Nat) (h : M.run k s = .next t) :
    M.run (k + m) s = M.run m t := by
  induction k generalizing s with
  | zero =>
    cases h
    rw [Nat.zero_add]
  | succ k ih =>
    cases hs : M.step s with
    | next u =>
      rw [run_succ M k hs] at h
      rw [Nat.add_right_comm, run_succ M (k + m) hs, ih h]
    | fault _ | refused _ => simp [Host.Core.run, hs] at h

section
variable {s t v : State} {evs evs' : List Exchange} {op : BusyOp} {ph : Phase}

theorem BusyRun.trans (h : BusyRun s evs t) (h' : BusyRun t evs' v) : BusyRun s (evs ++ evs') v where
  run := by rw [List.length_append, run_add core _ h.run, h'.run]
  wire := by rw [h'.wire, h.wire, List.append_assoc]
  received := by rw [h.received, h'.received, List.flatMap_append, List.append_assoc]
  sent := by rw [h.sent, h'.sent, List.flatMap_append, List.append_assoc]
  host := h'.host.trans h.host
  rst := h'.rst.trans h.rst
  inv := h'.inv

/-- A word exchange adds one event of two bytes that received the word; the byte it sends left the queue (R130). -/
theorem exchanged_event {w : Word} {u : State} (h : s.Exchanged w u) :
    ∃ e, u.wire = s.wire ++ [e] ∧ e.n = 2 ∧ e.rx = wordBytes w ∧ s.queued = e.sentByte ++ u.queued := by
  rcases h with ⟨-, rfl⟩ | ⟨d, q', hq, -, -, -, -, rfl⟩
  · exact ⟨_, rfl, rfl, rfl, rfl⟩
  · exact ⟨_, rfl, rfl, rfl, hq⟩

/-- In a phase that awaits a word, with its bytes lined up, the step is the exchange that receives it and the updates of the phase. -/
theorem busyRun_word {w : Word} {bs : List Byte} (hi : s.Inv) (hr : s.rst = false) (hw : s.awaitsWord op ph)
    (hx : s.rxIn = wordBytes w ++ bs) :
    ∃ u e, u = { s with q := u.q, ch := u.ch, rxIn := bs, wire := u.wire } ∧ BusyRun s [e] (wordPhase op ph w u) ∧
      (wordPhase op ph w u).rxIn = bs ∧ e.n = 2 ∧ e.rx = wordBytes w := by
  have hdraw : drawWord s = (w, s.setRxIn bs) := by
    rw [drawWord_cons hx]
    exact congrArg (·, _) (wordOfBytes_hi_lo w)
  obtain ⟨u, hu, hrecv, -⟩ := receiveWord_spec (s := s.setRxIn bs) (Good.of_inv (s := s) hi) hw w
  obtain ⟨e, hwire, hn, hrx, hsent⟩ := exchanged_event hu
  obtain ⟨hwire', hq⟩ := wordPhase_wire op ph w u
  obtain ⟨hcfg, -, hrst, hhost, hrxIn, -⟩ := wordPhase_frame op ph w u
  have hframe := Exchanged.frame hu
  have hstep : step s = .next (wordPhase op ph w u) := by rw [step_busy hr hw, hdraw, hrecv]
  have hleft : (wordPhase op ph w u).rxIn = bs := hrxIn.trans (congrArg State.rxIn hframe)
  refine ⟨u, e, hframe, ?_, hleft, hn, hrx⟩
  exact {
    run := run_succ core 0 hstep
    wire := hwire'.trans hwire
    received := by rw [hx, List.flatMap_singleton, hrx, hleft]
    sent := by
      rw [List.flatMap_singleton, State.queued, State.queued, hq, hcfg]
      exact hsent
    host := by
      rw [hhost, hframe]
      rfl
    rst := by
      rw [hrst, hframe]
      rfl
    inv := everyStepKeepsTheInvariant s _ hi hstep }

/-- In phase SK_R, with a byte lined up, the step is the resync exchange that receives it, and the seek goes on (R132, R179). -/
theorem busyRun_resync {b : Byte} {bs : List Byte} (hi : s.Inv) (hr : s.rst = false) (hc : s.ctl = .busy op .skR)
    (hx : s.rxIn = b :: bs) :
    BusyRun s [{ n := 1, tx := [0x5A#8], rx := [b] }] ((exchangeOne b (s.setRxIn bs)).setCtl (.busy op .skX)) := by
  have hstep := step_skR hr hc
  rw [drawByte_cons hx] at hstep
  exact ⟨run_succ core 0 hstep, rfl, hx, rfl, rfl, rfl, everyStepKeepsTheInvariant s _ hi hstep⟩

end

/-! ### The end of a seek -/

/-- In IDLE no fault is recorded. -/
theorem fault_eq_none_of_idle {s : State} (hi : s.Inv) (hc : s.ctl = .idle) : s.fault = .none := by
  by_contra hf
  have hhalt := hi.halt_iff_fault.mpr hf
  simp [hc] at hhalt

/-- Where the controller goes when a seek ends with the result `r`: only a POLL that found a frame goes on (R179). -/
def ctlAfterSeek : BusyOp → Option BlockType → Ctl
  | .poll, some _ => .busy .poll .dChk
  | _, _ => .idle

/-- What is answered when a seek ends with the result `r` (R152, R179). -/
def answersOfSeek : BusyOp → Option BlockType → List (Request × Response)
  | .seek, r => [(BusyOp.seek.request, .ok (.bit r.isSome))]
  | .poll, none => [(BusyOp.poll.request, .ok (.objects []))]
  | .poll, some _ => []

/-- From `s` to `t` a seek ended with the result `r`: the block type is set on DATA only, the skip flag is kept (R158), and so are the
decoder's registers. -/
structure SeekEnded (op : BusyOp) (r : Option BlockType) (s t : State) : Prop where
  ctl : t.ctl = ctlAfterSeek op r
  ctx : t.ctx = { s.ctx with bt := r.getD s.ctx.bt }
  portLog : t.portLog = s.portLog ++ answersOfSeek op r
  dec : t.dec = s.dec

theorem seekEnded_endSeek (op : BusyOp) (r : Option BlockType) (s : State) : SeekEnded op r s (endSeek op r s) := by
  cases op <;> cases r
  · exact ⟨rfl, rfl, rfl, rfl⟩
  · exact ⟨rfl, rfl, rfl, rfl⟩
  · exact ⟨rfl, rfl, rfl, rfl⟩
  · exact ⟨rfl, rfl, (List.append_nil _).symm, rfl⟩

/-- The end of a seek is told by the Frame Context, the answers and the decoder's registers that it started with. -/
theorem SeekEnded.of_same {op : BusyOp} {r : Option BlockType} {s s' t : State} (h : SeekEnded op r s' t)
    (hsame : s'.ctx = s.ctx ∧ s'.portLog = s.portLog ∧ s'.dec = s.dec) : SeekEnded op r s t := by
  obtain ⟨hctx, hlog, hdec⟩ := hsame
  exact ⟨h.ctl, hctx ▸ h.ctx, hlog ▸ h.portLog, hdec ▸ h.dec⟩

/-! ### The machine's seek -/

/-- A seek at seek position makes the exchanges of the words that Seek() reads, and ends with its result. -/
theorem seek_runs {op : BusyOp} {r : Option BlockType} {rest bs : List Byte} {prev : Word} {ws : List Word}
    (h : SeekReads r rest prev ws bs) {s : State} (hi : s.Inv) (hr : s.rst = false) (hc : s.ctl = .busy op .skX)
    (hprev : s.sync.prev = prev) (hx : s.rxIn = bs) :
    ∃ evs t, BusyRun s evs t ∧ t.rxIn = rest ∧ SeekEnded op r s t ∧ Accounted evs ws := by
  induction h generalizing s with
  | @last _ w hrow =>
    obtain ⟨u, e, hu, hrun, hleft, hn, hrx⟩ := busyRun_word hi hr ⟨hc, nofun⟩ hx
    have hend := seekEnded_endSeek op r (u.setSync { u.sync with cur := w })
    rw [← seekWord_end (by rwa [hu, hprev])] at hend
    exact ⟨_, _, hrun, hleft, hend.of_same (by rw [hu]; exact ⟨rfl, rfl, rfl⟩),
      accounted_nil.word (ne_outOfSync_of_seekRow (hrow ▸ endRow_ne_resync r)) hn hrx⟩
  | resync b hrow hmore ih =>
    obtain ⟨u, e, hu, hrun, hleft, hn, hrx⟩ := busyRun_word hi hr ⟨hc, nofun⟩ hx
    rw [wordPhase, seekWord_resync (by rwa [hu, hprev])] at hrun hleft
    have hshift := busyRun_resync hrun.inv (hrun.rst.trans hr) rfl hleft
    obtain ⟨evs, t, hgoes, hrest, hend, hacc⟩ := ih hshift.inv (hshift.rst.trans (hrun.rst.trans hr)) rfl rfl rfl
    exact ⟨_, t, hrun.trans (hshift.trans hgoes), hrest, hend.of_same (by rw [hu]; exact ⟨rfl, rfl, rfl⟩),
      hacc.resync (outOfSync_of_seekRow hrow) hn hrx rfl⟩
  | roll hrow hmore ih =>
    obtain ⟨u, e, hu, hrun, hleft, hn, hrx⟩ := busyRun_word hi hr ⟨hc, nofun⟩ hx
    have hctl : u.ctl = .busy op .skX := by rw [hu, hc]
    rw [wordPhase, seekWord_roll hctl (by rwa [hu, hprev])] at hrun hleft
    obtain ⟨evs, t, hgoes, hrest, hend, hacc⟩ := ih hrun.inv (hrun.rst.trans hr) hctl rfl hleft
    exact ⟨_, t, hrun.trans hgoes, hrest, hend.of_same (by rw [hu]; exact ⟨rfl, rfl, rfl⟩),
      hacc.word (ne_outOfSync_of_seekRow (by rw [hrow]; nofun)) hn hrx⟩

/-- Settles O53: the words are those that Seek() reads. -/
theorem seekExchangesAreAccounted : Obligations.SeekExchangesAreAccounted := by
  intro s op r rest hi hr hc hprev hseek
  obtain ⟨ws, hreads⟩ := seekReads_of_seekBytes _ _ hseek
  obtain ⟨evs, t, hrun, hrest, hend, hacc⟩ := seek_runs hreads hi hr hc hprev rfl
  refine ⟨t, evs, ws, hrun.run, hrun.wire, hrest, ?_, hreads.two_le_length, hreads.getLast?_ne_outOfSync, hacc.lengths,
    hacc.received⟩
  rw [hend.ctl]
  cases op <;> cases r <;> rfl

/-- Settles O51: the step that accepts the SEEK, then the seek from no previous word. -/
theorem seekRunsItsAlgorithm : Obligations.SeekRunsItsAlgorithm := by
  intro s hs r rest hi hready hr hhost hseek
  have hstep := step_of_seek hr hready hhost
  have hstart := everyStepKeepsTheInvariant s _ hi hstep
  obtain ⟨ws, hreads⟩ := seekReads_of_seekBytes _ _ hseek
  obtain ⟨evs, t, hrun, hrest, hend, -⟩ := seek_runs hreads hstart hr rfl rfl rfl
  have hidle : t.ctl = .idle := hend.ctl
  exact ⟨_, t, evs, (run_succ core _ hstep).trans hrun.run, hidle, hrun.host, fault_eq_none_of_idle hrun.inv hidle, hrest,
    hend.ctx, hend.portLog, hrun.wire, hrest ▸ hrun.received, rfl, hrun.sent⟩

end Sys2Proof.Proofs
end

section
/-! PROOFS. What a decoder call does with each received word (O23, O33, O34, O35, O36) and the checksum test (O49): the updates of each
position of a record, by the word received there. -/

namespace Sys2Proof.Proofs

open Sys2Proof Sys2Proof.Machine Sys2Proof.Laws

/-- Settles O23, by the two ways a POLL starts. -/
theorem pollSkipsOrSeeks : Obligations.PollSkipsOrSeeks := by
  intro s hs
  rw [exec_poll_ready hs]
  refine ⟨fun hskip => ?_, fun hskip => ?_⟩
  · rw [startPoll_of_skip hskip]
    rfl
  · rw [startPoll_of_not_skip (by simp [hskip])]
    rfl

/-! ### The checksum test -/

theorem fieldSum_le (o : DetectedObject) : fieldSum o ≤ 393210 := by
  have := o.signature.isLt
  have := o.x.isLt
  have := o.y.isLt
  have := o.width.isLt
  have := o.height.isLt
  have := o.angle.isLt
  unfold fieldSum
  omega

/-- The validator compares the field sum modulo 65536 with the checksum (R170). -/
theorem checksumValid_iff {c : Config} (hc : c.AsGiven) (chk : Word) (o : DetectedObject) :
    checksumValid c.checksumModulus chk o = true ↔ fieldSum o % 65536 = chk.toNat := by
  rw [checksumValid, checksumModulus_eq hc, beq_iff_eq]

/-- Adding the six words with wrap-around gives the field sum modulo 65536. -/
theorem toNat_add_fields (o : DetectedObject) :
    (o.signature + o.x + o.y + o.width + o.height + o.angle).toNat = fieldSum o % 65536 := by
  simp only [BitVec.toNat_add, Nat.reducePow, Nat.mod_add_mod, fieldSum]

/-- Settles O49: the wrap-around sum is the field sum reduced. -/
theorem checksumIsTheFieldSumModulo65536 : Obligations.ChecksumIsTheFieldSumModulo65536 := by
  intro c chk o hc
  refine ⟨fieldSum_le o, checksumValid_iff hc chk o, ?_⟩
  rw [checksumValid_iff hc, ← toNat_add_fields, BitVec.toNat_inj]

/-- A completed record is kept in the list exactly as R170 and R171 say. -/
theorem judgeRecord_eq {c : Config} (hc : c.AsGiven) (d : DecRegs) :
    judgeRecord c.checksumModulus d = { d with objs := keepValid d.chk d.object d.objs } := by
  have hvalid := checksumValid_iff hc d.chk d.object
  unfold judgeRecord keepValid
  split_ifs with hjudged hsum hsum
  · rfl
  · exact absurd (hvalid.mp hjudged) hsum
  · exact absurd (hvalid.mpr hsum) hjudged
  · rfl

/-! ### The updates of each position -/

section
variable {s : State} {w : Word} {op : BusyOp}

theorem checksumWord_marker (bt : BlockType) :
    checksumWord op (markerOf bt) s =
      finishPoll op ((s.setDec { s.dec with chk := markerOf bt }).setCtx { bt := bt, skip := true }) := by
  cases bt <;> rfl

theorem checksumWord_zero : checksumWord op 0#16 s = finishPoll op (s.setDec { s.dec with chk := 0#16 }) := rfl

/-- Every other word is the record's checksum, the out-of-sync word included (R174, R183). -/
theorem checksumWord_other (hzero : w ≠ 0#16) (hstart : w ≠ Config.startWord) (hcc : w ≠ Config.startWordCc) :
    checksumWord op w s = (s.setDec { s.dec with chk := w }).setCtl (.busy op .dSig) := by
  by_cases hoos : w = Config.outOfSyncWord
  · subst hoos
    rfl
  · simp only [checksumWord, classify_eq_data hzero hstart hcc hoos]

/-- The height of a NORMAL record completes it with angle 0. -/
theorem heightWord_normal (hcfg : s.cfg.AsGiven) (hbt : s.ctx.bt = .normal) :
    heightWord op w s =
      (s.setDec { s.dec with
        h := w
        ang := 0#16
        objs := keepValid s.dec.chk { s.dec.object with height := w, angle := 0#16 } s.dec.objs }).setCtl (.busy op .dTrail) := by
  simp only [heightWord, hbt, judgeRecord_eq hcfg]
  rfl

theorem heightWord_colorCode (hbt : s.ctx.bt = .colorCode) :
    heightWord op w s = (s.setDec { s.dec with h := w }).setCtl (.busy op .dAng) := by
  simp only [heightWord, hbt]

/-- The angle completes a COLOR_CODE record. -/
theorem angleWord_eq (hcfg : s.cfg.AsGiven) :
    angleWord op w s =
      (s.setDec { s.dec with
        ang := w, objs := keepValid s.dec.chk { s.dec.object with angle := w } s.dec.objs }).setCtl (.busy op .dTrail) := by
  rw [angleWord, judgeRecord_eq hcfg]
  rfl

theorem trailingWord_marker (bt : BlockType) :
    trailingWord op (markerOf bt) s =
      (setBlockType bt (s.setDec { s.dec with trail := markerOf bt })).setCtl (.busy op .dChk) := by
  cases bt <;> rfl

/-- Every word that is no start marker ends the call (R177). -/
theorem trailingWord_other (hstart : w ≠ Config.startWord) (hcc : w ≠ Config.startWordCc) :
    trailingWord op w s = finishPoll op (s.setDec { s.dec with trail := w }) := by
  by_cases hzero : w = 0#16
  · subst hzero
    rfl
  by_cases hoos : w = Config.outOfSyncWord
  · subst hoos
    rfl
  · simp only [trailingWord, classify_eq_data hzero hstart hcc hoos]

/-- A word received where one is awaited is one exchange, which keeps the parameters and what the decoder works with, and then the
updates of the phase (R60, R179). -/
theorem receiveWord_phase {ph : Phase} (hi : s.Inv) (hc : s.ctl = .busy op ph) (hph : ph ≠ .skR) (w : Word) :
    ∃ u, s.Exchanged w u ∧ receiveWord w s = .next (wordPhase op ph w u) ∧ u.cfg.AsGiven ∧ u.ctx = s.ctx ∧ u.dec = s.dec := by
  obtain ⟨u, hu, hrecv, -⟩ := receiveWord_spec (.of_inv hi) ⟨hc, hph⟩ w
  have hframe := Exchanged.frame hu
  refine ⟨u, hu, hrecv, ?_⟩
  rw [hframe]
  exact ⟨hi.config_asGiven, rfl, rfl⟩

end

/-! ### The statements -/

/-- Settles O33: the two markers, the zero word, the out-of-sync word, and every other word. -/
theorem checksumPositionFollowsItsTable : Obligations.ChecksumPositionFollowsItsTable := by
  intro s hi hc
  have hrecv := receiveWord_phase hi hc nofun
  simp only [wordPhase] at hrecv
  refine ⟨?_, ?_, ?_, ?_, fun w hzero hstart hcc _ => ?_⟩
  · obtain ⟨u, hu, h, -, -, hdec⟩ := hrecv (markerOf .normal)
    rw [checksumWord_marker] at h
    exact ⟨u, hu, hdec ▸ h⟩
  · obtain ⟨u, hu, h, -, -, hdec⟩ := hrecv (markerOf .colorCode)
    rw [checksumWord_marker] at h
    exact ⟨u, hu, hdec ▸ h⟩
  · obtain ⟨u, hu, h, -, -, hdec⟩ := hrecv 0#16
    exact ⟨u, hu, hdec ▸ h⟩
  · obtain ⟨u, hu, h, -⟩ := hrecv Config.outOfSyncWord
    exact ⟨u, hu, h⟩
  · obtain ⟨u, hu, h, -⟩ := hrecv w
    rw [checksumWord_other hzero hstart hcc] at h
    exact ⟨u, hu, h⟩

/-- Settles O35: the height of a NORMAL record and the angle of a COLOR_CODE record are judged with the words before them. -/
theorem recordIsKeptExactlyWhenItsChecksumIsValid : Obligations.RecordIsKeptExactlyWhenItsChecksumIsValid := by
  intro s w hi
  rw [exec_decodeRx]
  refine ⟨fun hc hbt => ?_, fun hc => ?_⟩
  · obtain ⟨u, hu, h, hcfg, hctx, hdec⟩ := receiveWord_phase hi hc nofun w
    rw [wordPhase, heightWord_normal hcfg (hctx ▸ hbt)] at h
    exact ⟨u, hu, hdec ▸ h⟩
  · obtain ⟨u, hu, h, hcfg, -, hdec⟩ := receiveWord_phase hi hc nofun w
    rw [wordPhase, angleWord_eq hcfg] at h
    exact ⟨u, hu, hdec ▸ h⟩

/-- Settles O34: the words that do not complete a record are stored in order; for the two that do, by what becomes of the record. -/
theorem fieldPositionsTakeEveryWordAsData : Obligations.FieldPositionsTakeEveryWordAsData := by
  intro s w hi
  obtain ⟨hheight, hangle⟩ := recordIsKeptExactlyWhenItsChecksumIsValid s w hi
  refine ⟨fun hc => ?_, fun hc => ?_, fun hc => ?_, fun hc => ?_, fun hc hbt => ?_, fun hc hbt => ?_, fun hc => ?_⟩
  case refine_6 =>
    obtain ⟨u, -, h⟩ := hheight hc hbt
    exact ⟨_, h, rfl, rfl, rfl⟩
  case refine_7 =>
    obtain ⟨u, -, h⟩ := hangle hc
    exact ⟨_, h, rfl, rfl⟩
  all_goals
    rw [exec_decodeRx]
    obtain ⟨u, hu, h, -, hctx, -⟩ := receiveWord_phase hi hc nofun w
  case refine_5 =>
    rw [wordPhase, heightWord_colorCode (hctx ▸ hbt)] at h
    exact ⟨u, hu, h⟩
  all_goals exact ⟨u, hu, h⟩

/-- Settles O36: the two markers and every other word; the invariant keeps the skip flag clear during a POLL. -/
theorem trailingPositionContinuesOrEndsTheFrame : Obligations.TrailingPositionContinuesOrEndsTheFrame := by
  intro s hi hc
  have hrecv := receiveWord_phase hi hc nofun
  simp only [wordPhase] at hrecv
  refine ⟨hi.skip_clear _ hc, ?_, ?_, fun w hstart hcc => ?_⟩
  · obtain ⟨u, hu, h, -⟩ := hrecv (markerOf .normal)
    exact ⟨u, hu, h⟩
  · obtain ⟨u, hu, h, -⟩ := hrecv (markerOf .colorCode)
    exact ⟨u, hu, h⟩
  · obtain ⟨u, hu, h, -, -, hdec⟩ := hrecv w
    rw [trailingWord_other hstart hcc] at h
    rw [exec_decodeRx]
    exact ⟨u, hu, hdec ▸ h⟩

end Sys2Proof.Proofs
end

section
/-! PROOFS. The record loop of a decoder call. `DecodeReads` unfolds the loop of Decode() into the records it reads; the machine is
followed along them, word by word, by what the decoder's updates depend on (`DecoderView`). -/

namespace Sys2Proof.Proofs

open Sys2Proof Sys2Proof.Machine Sys2Proof.Laws

/-! ### The records that Decode() reads -/

/-- With the block type and the objects so far, the record loop of Decode() reads the bytes given up to `rest`, and returns the objects
and the Frame Context (R171 step 2): a marker or the zero word at checksum position ends it, and so does a record whose trailing word
is no marker. -/
inductive DecodeReads (rest : List Byte) : BlockType → List DetectedObject → List Byte → List DetectedObject → FrameCtx → Prop
  | marker (bt next : BlockType) (objs : List DetectedObject) :
      DecodeReads rest bt objs (wordBytes (markerOf next) ++ rest) objs { bt := next, skip := true }
  | zero (bt : BlockType) (objs : List DetectedObject) :
      DecodeReads rest bt objs (wordBytes 0#16 ++ rest) objs { bt := bt, skip := false }
  | last {bt : BlockType} {r : WireRecord} {trail : Word} (objs : List DetectedObject) (hr : r.deliverable)
      (hstart : trail ≠ Config.startWord) (hcc : trail ≠ Config.startWordCc) :
      DecodeReads rest bt objs ((r.words bt).flatMap wordBytes ++ (wordBytes trail ++ rest))
        (keepValid r.chk (r.object bt) objs) { bt := bt, skip := false }
  | next {bt : BlockType} {r : WireRecord} {objs res : List DetectedObject} {ctx : FrameCtx} {bs : List Byte} (nxt : BlockType)
      (hr : r.deliverable) (hmore : DecodeReads rest nxt (keepValid r.chk (r.object bt) objs) bs res ctx) :
      DecodeReads rest bt objs ((r.words bt).flatMap wordBytes ++ (wordBytes (markerOf nxt) ++ bs)) res ctx

/-- A word read off the stream is its first two bytes. -/
theorem bytes_of_readWord {bs rest : List Byte} {w : Word} (h : readWord bs = some (w, rest)) : bs = wordBytes w ++ rest := by
  match bs, h with
  | b0 :: b1 :: _, h =>
    cases h
    rw [wordBytes_wordOfBytes]
    rfl

/-- The fields read after a checksum word are with it the words of a record, whose object they make. -/
theorem record_of_readFields {bt : BlockType} {bs rest : List Byte} {o : DetectedObject} (chk : Word)
    (h : readFields bt bs = some (o, rest)) :
    wordBytes chk ++ bs = (({ chk := chk, obj := o } : WireRecord).words bt).flatMap wordBytes ++ rest ∧
      ({ chk := chk, obj := o } : WireRecord).object bt = o := by
  simp only [readFields, Option.bind_eq_bind, Option.bind_eq_some_iff, Prod.exists] at h
  obtain ⟨sig, bs1, hsig, x, bs2, hx, y, bs3, hy, w, bs4, hw, ht, bs5, hh, h⟩ := h
  rw [bytes_of_readWord hsig, bytes_of_readWord hx, bytes_of_readWord hy, bytes_of_readWord hw, bytes_of_readWord hh]
  cases bt with
  | normal =>
    cases h
    exact ⟨rfl, rfl⟩
  | colorCode =>
    simp only [Option.bind_eq_some_iff, Prod.exists] at h
    obtain ⟨ang, bs6, hang, h⟩ := h
    cases h
    rw [bytes_of_readWord hang]
    exact ⟨rfl, rfl⟩

/-- Whenever the record loop returns it has read some records. -/
theorem decodeReads_of_decodeLoop {rest : List Byte} {res : List DetectedObject} {ctx : FrameCtx} (n : Nat) (bt : BlockType)
    (objs : List DetectedObject) (bs : List Byte) (h : decodeLoop n bt objs bs = some (res, ctx, rest)) :
    DecodeReads rest bt objs bs res ctx := by
  induction n generalizing bt objs bs with
  | zero => cases h
  | succ n ih =>
    simp only [decodeLoop, Option.bind_eq_bind, Option.bind_eq_some_iff, Prod.exists] at h
    obtain ⟨chk, bs1, hchk, h⟩ := h
    rw [bytes_of_readWord hchk]
    split_ifs at h with hstart hcc hzero
    · cases h
      rw [hstart]
      exact .marker bt .normal _
    · cases h
      rw [hcc]
      exact .marker bt .colorCode _
    · cases h
      rw [hzero]
      exact .zero _ _
    · simp only [Option.bind_eq_some_iff, Prod.exists] at h
      obtain ⟨o, bs2, hfields, trail, bs3, htrail, h⟩ := h
      obtain ⟨hwords, hobject⟩ := record_of_readFields chk hfields
      have hr : ({ chk := chk, obj := o } : WireRecord).deliverable := ⟨hzero, hstart, hcc⟩
      rw [hwords, bytes_of_readWord htrail]
      rw [← hobject] at h
      split_ifs at h with htstart htcc
      · rw [htstart]
        exact .next .normal hr (ih _ _ _ h)
      · rw [htcc]
        exact .next .colorCode hr (ih _ _ _ h)
      · cases h
        exact .last objs hr htstart htcc

/-! ### The words of a POLL -/

/-- What the decoder's updates depend on and write: the controller state, the Frame Context, the decoder's registers and the answers
given. -/
structure DecoderView where
  ctl : Ctl
  ctx : FrameCtx
  dec : DecRegs
  portLog : List (Request × Response)

/-- The decoder's part of a state. -/
def decoderView (s : State) : DecoderView := { ctl := s.ctl, ctx := s.ctx, dec := s.dec, portLog := s.portLog }

/-- The call ends: it is answered with the objects so far, and the controller is IDLE (R179). -/
def DecoderView.answered (v : DecoderView) : DecoderView :=
  { v with ctl := .idle, portLog := v.portLog ++ [(BusyOp.poll.request, .ok (.objects v.dec.objs))] }

/-- Some exchanges lead from `s` to a state whose decoder's part is `v`, with the bytes `bs` still to come. -/
def Reaches (s : State) (v : DecoderView) (bs : List Byte) : Prop :=
  ∃ evs t, BusyRun s evs t ∧ decoderView t = v ∧ t.rxIn = bs ∧ t.rst = false

theorem reaches_self {s : State} (hi : s.Inv) (hr : s.rst = false) : Reaches s (decoderView s) s.rxIn :=
  ⟨[], s, ⟨rfl, (List.append_nil _).symm, rfl, rfl, rfl, rfl, hi⟩, rfl, rfl, hr⟩

section
variable {s : State} {v v' : DecoderView} {bs : List Byte} {w : Word}

/-- One word more is received, where the decoder awaits one. -/
theorem Reaches.word {ph : Phase} (h : Reaches s v (wordBytes w ++ bs)) (hc : v.ctl = .busy .poll ph) (hph : ph ≠ .skR)
    (hnext : ∀ u : State, u.cfg.AsGiven → decoderView u = v → decoderView (wordPhase .poll ph w u) = v') : Reaches s v' bs := by
  obtain ⟨evs, t, hrun, rfl, hx, hr⟩ := h
  obtain ⟨u, e, hu, hstep, hleft, -⟩ := busyRun_word hrun.inv hr ⟨hc, hph⟩ hx
  have hcfg : u.cfg.AsGiven := by
    rw [hu]
    exact hrun.inv.config_asGiven
  exact ⟨_, _, hrun.trans hstep, hnext u hcfg (by rw [hu]; rfl), hleft, hstep.rst.trans hr⟩

/-- A word that only fills a register and goes on to the next phase. -/
theorem Reaches.fill {ph ph' : Phase} (put : DecRegs → DecRegs) (h : Reaches s v (wordBytes w ++ bs)) (hc : v.ctl = .busy .poll ph)
    (hph : ph ≠ .skR) (hput : ∀ u : State, wordPhase .poll ph w u = (u.setDec (put u.dec)).setCtl (.busy .poll ph')) :
    Reaches s { v with ctl := .busy .poll ph', dec := put v.dec } bs := by
  refine h.word hc hph fun u _ hu => ?_
  rw [hput, ← hu]
  rfl

/-- From checksum position a record's words are received up to its height, each into its register (R174, R175). -/
theorem Reaches.toHeight {r : WireRecord}
    (h : Reaches s v ([r.chk, r.obj.signature, r.obj.x, r.obj.y, r.obj.width].flatMap wordBytes ++ bs))
    (hc : v.ctl = .busy .poll .dChk) (hr : r.deliverable) :
    Reaches s
      { v with
        ctl := .busy .poll .dH
        dec := { v.dec with chk := r.chk, sig := r.obj.signature, x := r.obj.x, y := r.obj.y, w := r.obj.width } } bs := by
  obtain ⟨hzero, hstart, hcc⟩ := hr
  have hchk := h.fill (ph' := .dSig) ({ · with chk := r.chk }) hc nofun fun u => checksumWord_other hzero hstart hcc
  have hsig := hchk.fill ({ · with sig := r.obj.signature }) rfl nofun fun _ => rfl
  have hx := hsig.fill ({ · with x := r.obj.x }) rfl nofun fun _ => rfl
  have hy := hx.fill ({ · with y := r.obj.y }) rfl nofun fun _ => rfl
  exact hy.fill ({ · with w := r.obj.width }) rfl nofun fun _ => rfl

theorem Reaches.heightNormal (h : Reaches s v (wordBytes w ++ bs)) (hc : v.ctl = .busy .poll .dH) (hbt : v.ctx.bt = .normal) :
    Reaches s
      { v with
        ctl := .busy .poll .dTrail
        dec := { v.dec with
          h := w, ang := 0#16, objs := keepValid v.dec.chk { v.dec.object with height := w, angle := 0#16 } v.dec.objs } } bs := by
  refine h.word hc nofun fun u hcfg hu => ?_
  subst hu
  rw [wordPhase, heightWord_normal hcfg hbt]
  rfl

theorem Reaches.heightColorCode (h : Reaches s v (wordBytes w ++ bs)) (hc : v.ctl = .busy .poll .dH)
    (hbt : v.ctx.bt = .colorCode) : Reaches s { v with ctl := .busy .poll .dAng, dec := { v.dec with h := w } } bs := by
  refine h.word hc nofun fun u _ hu => ?_
  subst hu
  rw [wordPhase, heightWord_colorCode hbt]
  rfl

theorem Reaches.angle (h : Reaches s v (wordBytes w ++ bs)) (hc : v.ctl = .busy .poll .dAng) :
    Reaches s
      { v with
        ctl := .busy .poll .dTrail
        dec := { v.dec with
          ang := w, objs := keepValid v.dec.chk { v.dec.object with angle := w } v.dec.objs } } bs := by
  refine h.word hc nofun fun u hcfg hu => ?_
  subst hu
  rw [wordPhase, angleWord_eq hcfg]
  rfl

/-- From checksum position a whole record is received, and kept if its checksum is valid (R174 to R176). -/
theorem Reaches.record {r : WireRecord} (h : Reaches s v ((r.words v.ctx.bt).flatMap wordBytes ++ bs))
    (hc : v.ctl = .busy .poll .dChk) (hr : r.deliverable) :
    ∃ dec, Reaches s { v with ctl := .busy .poll .dTrail, dec := dec } bs ∧
      dec.objs = keepValid r.chk (r.object v.ctx.bt) v.dec.objs := by
  cases hbt : v.ctx.bt with
  | normal =>
    rw [hbt] at h
    exact ⟨_, (h.toHeight hc hr).heightNormal (w := r.obj.height) rfl hbt, rfl⟩
  | colorCode =>
    rw [hbt] at h
    exact ⟨_, ((h.toHeight hc hr).heightColorCode (w := r.obj.height) rfl hbt).angle (w := r.obj.angle) rfl, rfl⟩

/-- A start marker at checksum position ends the call with the skip flag set (R174). -/
theorem Reaches.checksumMarker {bt : BlockType} (h : Reaches s v (wordBytes (markerOf bt) ++ bs)) (hc : v.ctl = .busy .poll .dChk) :
    Reaches s
      { v with ctx := { bt := bt, skip := true }, dec := { v.dec with chk := markerOf bt } }.answered bs := by
  refine h.word hc nofun fun u _ hu => ?_
  subst hu
  rw [wordPhase, checksumWord_marker]
  rfl

/-- The zero word at checksum position ends the call (R174). -/
theorem Reaches.checksumZero (h : Reaches s v (wordBytes 0#16 ++ bs)) (hc : v.ctl = .busy .poll .dChk) :
    Reaches s { v with dec := { v.dec with chk := 0#16 } }.answered bs := by
  refine h.word hc nofun fun u _ hu => ?_
  subst hu
  rw [wordPhase, checksumWord_zero]
  rfl

/-- A start marker at trailing position begins the next record (R177). -/
theorem Reaches.trailingMarker {bt : BlockType} (h : Reaches s v (wordBytes (markerOf bt) ++ bs)) (hc : v.ctl = .busy .poll .dTrail) :
    Reaches s
      { v with
        ctl := .busy .poll .dChk, ctx := { v.ctx with bt := bt }, dec := { v.dec with trail := markerOf bt } } bs := by
  refine h.word hc nofun fun u _ hu => ?_
  subst hu
  rw [wordPhase, trailingWord_marker]
  rfl

/-- Any other word at trailing position ends the call (R177). -/
theorem Reaches.trailingOther (h : Reaches s v (wordBytes w ++ bs)) (hc : v.ctl = .busy .poll .dTrail)
    (hstart : w ≠ Config.startWord) (hcc : w ≠ Config.startWordCc) :
    Reaches s { v with dec := { v.dec with trail := w } }.answered bs := by
  refine h.word hc nofun fun u _ hu => ?_
  subst hu
  rw [wordPhase, trailingWord_other hstart hcc]
  rfl

/-- From checksum position the machine reads the records that Decode() reads, and answers its objects. -/
theorem Reaches.decode {rest : List Byte} {bt : BlockType} {objs res : List DetectedObject} {ctx : FrameCtx}
    (hreads : DecodeReads rest bt objs bs res ctx) (h : Reaches s v bs) (hc : v.ctl = .busy .poll .dChk)
    (hctx : v.ctx = { bt := bt, skip := false }) (hobjs : v.dec.objs = objs) :
    ∃ dec, Reaches s { v with ctx := ctx, dec := dec }.answered rest ∧ dec.objs = res := by
  induction hreads generalizing v with
  | marker bt next objs => exact ⟨_, h.checksumMarker hc, hobjs⟩
  | zero bt objs =>
    have hend := h.checksumZero hc
    rw [hctx] at hend
    exact ⟨_, hend, hobjs⟩
  | last objs hr hstart hcc =>
    obtain rfl : _ = v.ctx.bt := (congrArg FrameCtx.bt hctx).symm
    obtain ⟨dec, hrecord, hkept⟩ := h.record hc hr
    have hend := hrecord.trailingOther rfl hstart hcc
    rw [hctx] at hend
    exact ⟨_, hend, hkept.trans (by rw [hobjs])⟩
  | next nxt hr hmore ih =>
    obtain rfl : _ = v.ctx.bt := (congrArg FrameCtx.bt hctx).symm
    obtain ⟨dec, hrecord, hkept⟩ := h.record hc hr
    have hmarker := hrecord.trailingMarker rfl
    rw [hctx] at hmarker
    obtain ⟨dec', hend, hres⟩ := ih hmarker rfl rfl (hkept.trans (by rw [hobjs]))
    exact ⟨dec', hend, hres⟩

end

end Sys2Proof.Proofs
end

section
/-! PROOFS. Whole decoder calls (O52, O54, O55). An accepted POLL seeks or begins at checksum position, and then runs the record loop;
`PollRun` accounts for its steps up to the answer. -/

namespace Sys2Proof.Proofs

open Sys2Proof Sys2Proof.Machine Sys2Proof.Laws

/-! ### An accepted POLL -/

/-- From `s` to `t` one POLL was accepted, with `hs` lined up after it, made the exchanges `evs` and was answered with `objs`. -/
structure PollRun (s : State) (hs : List HostItem) (objs : List DetectedObject) (evs : List Exchange) (t : State) : Prop where
  run : core.run (evs.length + 1) s = .next t
  ctl : t.ctl = .idle
  host : t.host = hs
  rst : t.rst = false
  inv : t.Inv
  portLog : t.portLog = s.portLog ++ [({ header := 0xB000#16, payload := [] }, .ok (.objects objs))]
  wire : t.wire = s.wire ++ evs
  received : s.rxIn = evs.flatMap Exchange.rx ++ t.rxIn
  sent : s.queued = evs.flatMap Exchange.sentByte ++ t.queued

/-- Acceptance of a POLL leaves both ports and the queue alone (R173). -/
theorem startPoll_ports (s : State) :
    (startPoll s).portLog = s.portLog ∧ (startPoll s).wire = s.wire ∧ (startPoll s).rxIn = s.rxIn ∧
      (startPoll s).queued = s.queued ∧ (startPoll s).host = s.host ∧ (startPoll s).rst = s.rst := by
  by_cases h : s.ctx.skip = true
  · rw [startPoll_of_skip h]
    exact ⟨rfl, rfl, rfl, rfl, rfl, rfl⟩
  · rw [startPoll_of_not_skip h]
    exact ⟨rfl, rfl, rfl, rfl, rfl, rfl⟩

section
variable {s : State} {hs : List HostItem}

theorem idle_of_ready (hi : s.Inv) (hready : s.ready) : s.ctl = .idle := by
  obtain ⟨hport, hfault⟩ := hready
  cases hc : s.ctl with
  | idle => rfl
  | halt => exact absurd hfault (hi.halt_iff_fault.mp hc)
  | busy op ph => simp [portReady, hc] at hport

theorem ready_of_idle (hi : s.Inv) (hc : s.ctl = .idle) : s.ready :=
  ⟨by simp [portReady, hc], fault_eq_none_of_idle hi hc⟩

variable (hready : s.ready) (hr : s.rst = false) (hhost : s.host = .beat 0xB000#16 :: hs)
include hready hr hhost

/-- The step that accepts a POLL and the exchanges up to its answer. -/
theorem pollRun_of_busyRun {t : State} {evs : List Exchange} {objs : List DetectedObject}
    (hrun : BusyRun (startPoll (s.setHost hs)) evs t) (hctl : t.ctl = .idle)
    (hlog : t.portLog = s.portLog ++ [(BusyOp.poll.request, .ok (.objects objs))]) : PollRun s hs objs evs t := by
  obtain ⟨-, hwire, hrxIn, hqueued, hleft, hrst⟩ := startPoll_ports (s.setHost hs)
  exact {
    run := (run_succ core _ (step_of_poll hr hready hhost)).trans hrun.run
    ctl := hctl
    host := hrun.host.trans hleft
    rst := (hrun.rst.trans hrst).trans hr
    inv := hrun.inv
    portLog := hlog
    wire := by rw [hrun.wire, hwire, setHost_wire]
    received := hrxIn.symm.trans hrun.received
    sent := hqueued.symm.trans hrun.sent }

/-- A POLL at checksum position with no object so far ends as Decode() does. -/
theorem poll_decodes {v : DecoderView} {bt : BlockType} {bs rest : List Byte} {objs : List DetectedObject} {ctx : FrameCtx}
    (hv : Reaches (startPoll (s.setHost hs)) v bs) (hc : v.ctl = .busy .poll .dChk) (hctx : v.ctx = { bt := bt, skip := false })
    (hobjs : v.dec.objs = []) (hlog : v.portLog = s.portLog) (hreads : DecodeReads rest bt [] bs objs ctx) :
    ∃ evs t, PollRun s hs objs evs t ∧ t.rxIn = rest ∧ t.ctx = ctx := by
  obtain ⟨dec, ⟨evs, t, hrun, hend, hrest, -⟩, rfl⟩ := hv.decode hreads hc hctx hobjs
  simp only [decoderView, DecoderView.answered, DecoderView.mk.injEq] at hend
  obtain ⟨hctl, hctx, -, hanswer⟩ := hend
  exact ⟨evs, t, pollRun_of_busyRun hready hr hhost hrun hctl (hlog ▸ hanswer), hrest, hctx⟩

variable (hi : s.Inv)
include hi

theorem inv_acceptedPoll : (startPoll (s.setHost hs)).Inv := everyStepKeepsTheInvariant s _ hi (step_of_poll hr hready hhost)

/-- A POLL accepted with the skip flag clear seeks first (R173). -/
theorem poll_seeks {r : Option BlockType} {rest : List Byte} {ws : List Word} (hskip : s.ctx.skip = false)
    (hreads : SeekReads r rest Config.noPreviousWord ws s.rxIn) :
    ∃ evs t, BusyRun (startPoll (s.setHost hs)) evs t ∧ t.rxIn = rest ∧ t.ctl = ctlAfterSeek .poll r ∧
      t.ctx = { s.ctx with bt := r.getD s.ctx.bt } ∧ t.portLog = s.portLog ++ answersOfSeek .poll r ∧ t.dec.objs = [] ∧
      Accounted evs ws := by
  have hinv := inv_acceptedPoll hready hr hhost hi
  rw [startPoll_of_not_skip (by simp [hskip])] at hinv ⊢
  obtain ⟨evs, t, hrun, hrest, hend, hacc⟩ := seek_runs hreads hinv hr rfl rfl rfl
  exact ⟨evs, t, hrun, hrest, hend.ctl, hend.ctx, hend.portLog, by rw [hend.dec]; rfl, hacc⟩

/-- With the skip flag clear and no data the answer is the empty list (R173). -/
theorem poll_runs_noData {rest : List Byte} {ws : List Word} (hskip : s.ctx.skip = false)
    (hreads : SeekReads none rest Config.noPreviousWord ws s.rxIn) :
    ∃ evs t, PollRun s hs [] evs t ∧ t.rxIn = rest ∧ t.ctx = s.ctx ∧ Accounted evs ws := by
  obtain ⟨evs, t, hrun, hrest, hctl, hctx, hlog, -, hacc⟩ := poll_seeks hready hr hhost hi hskip hreads
  exact ⟨evs, t, pollRun_of_busyRun hready hr hhost hrun hctl hlog, hrest, hctx, hacc⟩

/-- With the skip flag clear and a frame found the record loop runs after the seek (R173). -/
theorem poll_runs_found {bt : BlockType} {bs rest : List Byte} {objs : List DetectedObject} {ctx : FrameCtx}
    (hskip : s.ctx.skip = false) (hseek : seekBytes 0xFFFF#16 s.rxIn = some (some bt, bs))
    (hreads : DecodeReads rest bt [] bs objs ctx) : ∃ evs t, PollRun s hs objs evs t ∧ t.rxIn = rest ∧ t.ctx = ctx := by
  obtain ⟨ws, hwords⟩ := seekReads_of_seekBytes _ _ hseek
  obtain ⟨evs, t, hrun, hrest, hctl, hctx, hlog, hobjs, -⟩ := poll_seeks hready hr hhost hi hskip hwords
  obtain ⟨-, -, -, -, -, hrst⟩ := startPoll_ports (s.setHost hs)
  have hv : Reaches (startPoll (s.setHost hs)) (decoderView t) bs :=
    ⟨evs, t, hrun, rfl, hrest, (hrun.rst.trans hrst).trans hr⟩
  have hctx : t.ctx = { bt := bt, skip := false } := by
    rw [hctx, ← hskip]
    rfl
  exact poll_decodes hready hr hhost hv hctl hctx hobjs (hlog.trans (List.append_nil _)) hreads

/-- With the skip flag set the record loop runs at once, with the block type as it is (R173). -/
theorem poll_runs_skip {rest : List Byte} {objs : List DetectedObject} {ctx : FrameCtx}
    (hskip : s.ctx.skip = true) (hreads : DecodeReads rest s.ctx.bt [] s.rxIn objs ctx) :
    ∃ evs t, PollRun s hs objs evs t ∧ t.rxIn = rest ∧ t.ctx = ctx := by
  obtain ⟨-, -, hrxIn, -, -, hrst⟩ := startPoll_ports (s.setHost hs)
  have hview : decoderView (startPoll (s.setHost hs)) =
      { ctl := .busy .poll .dChk
        ctx := { s.ctx with skip := false }
        dec := { s.dec with objs := [] }
        portLog := s.portLog } := by
    rw [startPoll_of_skip (s := s.setHost hs) hskip]
    rfl
  have hv := reaches_self (inv_acceptedPoll hready hr hhost hi) (hrst.trans hr)
  rw [hview, hrxIn] at hv
  exact poll_decodes hready hr hhost hv rfl rfl rfl rfl hreads

end

/-- Settles O52: with the skip flag set the record loop alone, else the seek, and the record loop when it finds a frame. -/
theorem pollRunsItsAlgorithm : Obligations.PollRunsItsAlgorithm := by
  intro s hs n objs ctx rest hi hready hr hhost hdecode
  have hpoll : ∃ evs t, PollRun s hs objs evs t ∧ t.rxIn = rest ∧ t.ctx = ctx := by
    unfold decodeBytes at hdecode
    split at hdecode
    case isTrue hskip => exact poll_runs_skip hready hr hhost hi hskip (decodeReads_of_decodeLoop _ _ _ _ hdecode)
    case isFalse hskip =>
      rw [Bool.not_eq_true] at hskip
      split at hdecode
      case h_1 => cases hdecode
      case h_2 hseek =>
        cases hdecode
        obtain ⟨ws, hwords⟩ := seekReads_of_seekBytes _ _ hseek
        obtain ⟨evs, t, hrun, hrest, hctx, -⟩ := poll_runs_noData hready hr hhost hi hskip hwords
        exact ⟨evs, t, hrun, hrest, hctx⟩
      case h_3 hseek =>
        exact poll_runs_found hready hr hhost hi hskip hseek (decodeReads_of_decodeLoop _ _ _ _ hdecode)
  obtain ⟨evs, t, hrun, hrest, hctx⟩ := hpoll
  exact ⟨_, t, evs, hrun.run, hrun.ctl, hrun.host, fault_eq_none_of_idle hrun.inv hrun.ctl, hrest, hctx, hrun.portLog, hrun.wire,
    hrest ▸ hrun.received, rfl, hrun.sent⟩

/-! ### Frames of records -/

theorem append_keepValid (chk : Word) (o : DetectedObject) (objs : List DetectedObject) :
    objs ++ keepValid chk o [] = keepValid chk o objs := by
  unfold keepValid
  split
  · rfl
  · exact List.append_nil _

/-- Decode() reads a frame of deliverable records, each followed by a start marker, up to the marker at checksum position. -/
theorem decodeReads_frame (rest : List Byte) (last : BlockType) (rs : List (WireRecord × BlockType)) (bt : BlockType)
    (objs : List DetectedObject) (hrs : ∀ p ∈ rs, p.1.deliverable) :
    DecodeReads rest bt objs ((recordWords bt rs ++ [markerOf last]).flatMap wordBytes ++ rest) (objs ++ validObjects bt rs)
      { bt := last, skip := true } := by
  induction rs generalizing bt objs with
  | nil =>
    rw [validObjects, List.append_nil]
    exact .marker bt last objs
  | cons p rs ih =>
    obtain ⟨r, nxt⟩ := p
    rw [List.forall_mem_cons] at hrs
    obtain ⟨hr, hrs⟩ := hrs
    have hmore := DecodeReads.next nxt hr (ih nxt (keepValid r.chk (r.object bt) objs) hrs)
    rw [← append_keepValid, List.append_assoc] at hmore
    simpa only [recordWords, validObjects, List.flatMap_append, List.flatMap_singleton, List.append_assoc] using hmore

/-- Settles O54: the seek finds the frame start, and the record loop reads the frame. -/
theorem pollDeliversTheValidRecordsOfAFrame : Obligations.PollDeliversTheValidRecordsOfAFrame := by
  intro s hs first last rs rest hi hready hr hskip hhost hrs hseek
  obtain ⟨evs, t, hrun, hrest, hctx⟩ :=
    poll_runs_found hready hr hhost hi hskip hseek (decodeReads_frame rest last rs first [] hrs)
  exact ⟨_, t, hrun.run, hrun.ctl, hrun.host, hrest, hctx, hrun.portLog⟩

/-! ### No data -/

/-- Two zero words end a seek with no data (R153). -/
theorem seekReads_zeros (rest : List Byte) :
    SeekReads none rest Config.noPreviousWord [0#16, 0#16] (wordBytes 0#16 ++ (wordBytes 0#16 ++ rest)) :=
  .roll (by decide) (.last (by decide))

/-- Two zero words are received in two exchanges of two bytes. -/
theorem Accounted.exchanges_of_zeros {evs : List Exchange} (h : Accounted evs [0#16, 0#16]) : evs.length = 2 ∧ ∀ e ∈ evs, e.n = 2 := by
  have hn : evs.map Exchange.n = [2, 2] := h.lengths
  refine ⟨by simpa using congrArg List.length hn, fun e he => ?_⟩
  have hmem := List.mem_map_of_mem (f := Exchange.n) he
  rw [hn] at hmem
  simpa using hmem

/-- Any number of POLLs in a row on a stream of zeros, with the skip flag clear. -/
theorem polls_run_noData {rest : List Byte} {hs : List HostItem} (m : Nat) (s : State) (hi : s.Inv) (hready : s.ready)
    (hr : s.rst = false) (hskip : s.ctx.skip = false) (hhost : s.host = List.replicate m (.beat 0xB000#16) ++ hs)
    (hx : s.rxIn = List.replicate (4 * m) 0x00#8 ++ rest) :
    ∃ t evs, core.run (3 * m) s = .next t ∧ t.ctl = s.ctl ∧ t.host = hs ∧ t.rxIn = rest ∧ t.ctx = s.ctx ∧
      t.portLog = s.portLog ++ List.replicate m ({ header := 0xB000#16, payload := [] }, .ok (.objects [])) ∧
      t.wire = s.wire ++ evs ∧ evs.length = 2 * m ∧ ∀ e ∈ evs, e.n = 2 := by
  induction m generalizing s with
  | zero => exact ⟨s, [], rfl, rfl, hhost, hx, rfl, (List.append_nil _).symm, (List.append_nil _).symm, rfl, nofun⟩
  | succ m ih =>
    have hreads := seekReads_zeros (List.replicate (4 * m) 0x00#8 ++ rest)
    obtain ⟨evs, u, hrun, hleft, hctx, hacc⟩ := poll_runs_noData hready hr hhost hi hskip (hx ▸ hreads)
    obtain ⟨hlen, hn⟩ := hacc.exchanges_of_zeros
    obtain ⟨t, evs', hruns, hctl, hhost', hrest, hctx', hlog, hwire, hlen', hn'⟩ :=
      ih u hrun.inv (ready_of_idle hrun.inv hrun.ctl) hrun.rst (by rw [hctx, hskip]) hrun.host hleft
    have hfirst := hrun.run
    rw [hlen] at hfirst
    refine ⟨t, evs ++ evs', ?_, ?_, hhost', hrest, hctx'.trans hctx, ?_, ?_, ?_, ?_⟩
    · rw [Nat.mul_succ, Nat.add_comm, run_add core _ hfirst, hruns]
    · rw [hctl, hrun.ctl, idle_of_ready hi hready]
    · rw [hlog, hrun.portLog, List.append_assoc]
      rfl
    · rw [hwire, hrun.wire, List.append_assoc]
    · rw [List.length_append, hlen, hlen']
      omega
    · intro e he
      exact (List.mem_append.mp he).elim (hn e) (hn' e)

/-- Settles O55: one POLL after the other, and the POLL whose first word is at checksum position. -/
theorem noDataPollsAreIdempotent : Obligations.NoDataPollsAreIdempotent := by
  intro s m hs rest hi hready hr
  refine ⟨fun hskip hhost hx => polls_run_noData m s hi hready hr hskip hhost hx, fun hskip hhost hx => ?_⟩
  have hinv := inv_acceptedPoll hready hr hhost hi
  have hpoll {t : State} {evs} := pollRun_of_busyRun hready hr hhost (t := t) (evs := evs) (objs := [])
  rw [startPoll_of_skip (s := s.setHost hs) hskip] at hinv hpoll
  obtain ⟨u, e, hu, hrun, hrest, hn, -⟩ := busyRun_word (w := 0#16) hinv hr ⟨rfl, nofun⟩ hx
  rw [wordPhase, checksumWord_zero, hu] at hrun hrest
  have hdone := hpoll hrun rfl rfl
  exact ⟨_, e, hdone.run, rfl, hdone.host, hrest, rfl, hdone.portLog, hdone.wire, hn⟩

end Sys2Proof.Proofs
end

section
/-! PROOFS. The host pseudo-operations (O2, O28, O29, O30, O31). Each of the three checks its arguments and then either is the SEND
of its bytes or raises InvalidArgument in the host; `IssuesSend` says so for the words and for the meaning at once, and the encodings
and the effects follow from it and from the rules of SEND. -/

namespace Sys2Proof.Proofs

open Sys2Proof Sys2Proof.Machine Sys2Proof.Laws

/-! ### The bytes of a servo value -/

theorem lo8_toNat {v : Int} (h0 : 0 ≤ v) : ((lo8 v).toNat : Int) = v % 256 := by
  rw [lo8, BitVec.toNat_ofNat]
  omega

theorem hi8_toNat {v : Int} (h0 : 0 ≤ v) (h1 : v ≤ 65535) : ((hi8 v).toNat : Int) = v / 256 := by
  rw [hi8, BitVec.toNat_ofNat]
  omega

/-- Settles O31: the two bytes are the remainder and the quotient by 256, and 1000 / 256 is 3. -/
theorem servoValuesAreSplitLowByteFirst : Obligations.ServoValuesAreSplitLowByteFirst := by
  intro v h0 h1
  have hhi := hi8_toNat h0 h1
  exact ⟨lo8_toNat h0, hhi, fun _ => by omega, fun _ => rfl⟩

/-! ### A pseudo-operation is one SEND, or none -/

/-- With its arguments in range the pseudo-operation `i` has the words and the meaning of the SEND of `bytes`; out of range it has no
words and raises InvalidArgument (R200). -/
structure IssuesSend (i : Instr) (inRange : Prop) (bytes : List Byte) : Prop where
  encode_send : inRange → encode i = encode (.send bytes)
  exec_send : inRange → ∀ s, exec i s = exec (.send bytes) s
  encode_unissued : ¬ inRange → encode i = .unissued
  exec_raises : ¬ inRange → ∀ s, exec i s = .next (raiseInvalidArgument s)

/-- The encoder and the meaning branch on one check of the arguments and build the same bytes. -/
theorem issuesSend_of_check {i : Instr} {check : Bool} {inRange : Prop} {built bytes : List Byte}
    (hcheck : check = true ↔ inRange) (hbytes : inRange → built = bytes)
    (hencode : encode i = if check then encode (.send built) else .unissued)
    (hexec : ∀ s, exec i s = if check then exec (.send built) s else .next (raiseInvalidArgument s)) :
    IssuesSend i inRange bytes where
  encode_send h := by rw [hencode, if_pos (hcheck.mpr h), hbytes h]
  exec_send h s := by rw [hexec, if_pos (hcheck.mpr h), hbytes h]
  encode_unissued h := by rw [hencode, if_neg (mt hcheck.mp h)]
  exec_raises h s := by rw [hexec, if_neg (mt hcheck.mp h)]

theorem servo_issuesSend (s1 s2 : Int) : IssuesSend (.servo s1 s2) (0 ≤ s1 ∧ s1 ≤ 1000 ∧ 0 ≤ s2 ∧ s2 ≤ 1000)
    [0x00#8, 0xFF#8, BitVec.ofInt 8 (s1 % 256), BitVec.ofInt 8 (s1 / 256), BitVec.ofInt 8 (s2 % 256),
      BitVec.ofInt 8 (s2 / 256)] := by
  refine issuesSend_of_check (built := servoBytes s1 s2) servoInRange_iff ?_ rfl fun _ => rfl
  rintro ⟨h1, -, h2, -⟩
  rw [servoBytes, lo8_eq h1, hi8_eq h1, lo8_eq h2, hi8_eq h2]
  rfl

theorem exposure_issuesSend (v : Int) : IssuesSend (.exposure v) (0 ≤ v ∧ v ≤ 255) [0x00#8, 0xFE#8, BitVec.ofInt 8 v] := by
  refine issuesSend_of_check (built := exposureBytes v) exposureInRange_iff ?_ rfl fun _ => rfl
  rintro ⟨h0, h1⟩
  rw [exposureBytes, lo8_eq_self h0 h1]
  rfl

theorem led_issuesSend (r g b : Int) : IssuesSend (.led r g b) (0 ≤ r ∧ r ≤ 255 ∧ 0 ≤ g ∧ g ≤ 255 ∧ 0 ≤ b ∧ b ≤ 255)
    [0x00#8, 0xFD#8, BitVec.ofInt 8 r, BitVec.ofInt 8 g, BitVec.ofInt 8 b] := by
  refine issuesSend_of_check (built := ledBytes r g b) ledInRange_iff ?_ rfl fun _ => rfl
  rintro ⟨hr0, hr1, hg0, hg1, hb0, hb1⟩
  rw [ledBytes, lo8_eq_self hr0 hr1, lo8_eq_self hg0 hg1, lo8_eq_self hb0 hb1]
  rfl

/-! ### The words of a pseudo-operation -/

theorem IssuesSend.decodeWords_encode {i : Instr} {inRange : Prop} [Decidable inRange] {bytes : List Byte}
    (h : IssuesSend i inRange bytes) (hlen : bytes.length ≤ Config.standard.maxPayload) :
    decodeWords (encode i) = if inRange then .ok (.send bytes) else .error .notIssued := by
  split
  case isTrue hin =>
    have hwf : (Instr.send bytes).wellFormed = true := decide_eq_true hlen
    rw [h.encode_send hin, decodeWords_of_request hwf rfl rfl]
  case isFalse hout =>
    rw [h.encode_unissued hout]
    rfl

/-- Settles O2: each pseudo-operation's words are those of its SEND, which is read back. -/
theorem pseudoOperationsAreEncodedAsTheirSend : Obligations.PseudoOperationsAreEncodedAsTheirSend := fun s1 s2 v r g b =>
  ⟨(servo_issuesSend s1 s2).decodeWords_encode (by simp [Config.standard]),
    (exposure_issuesSend v).decodeWords_encode (by simp [Config.standard]),
    (led_issuesSend r g b).decodeWords_encode (by simp [Config.standard])⟩

/-! ### The effect of a pseudo-operation -/

/-- At a ready port one SEND of `bytes`, with its header, has the outcome `o`: it answers with no value, stores to the slots of its own
bytes at most, and queues the whole payload, or drops it and keeps the queue (R135). -/
def SendOutcome (s : State) (header : Beat) (bytes : List Byte) (o : Result) : Prop :=
  ∃ q', o = .next { s with
      q := q'
      portLog := s.portLog ++ [({ header := header, payload := bytes }, .ok .none)] } ∧
    (bytes.length ≤ s.cfg.capacity - s.q.count → q'.bytes s.cfg.capacity = s.queued ++ bytes) ∧
    (s.cfg.capacity - s.q.count < bytes.length → q' = s.q) ∧
    ∀ a, (∀ k < bytes.length, a ≠ (s.q.tail + k) % s.cfg.capacity) → Memory.read q'.buf a = Memory.read s.q.buf a

theorem exec_send_outcome {s : State} (bytes : List Byte) (hi : s.Inv) (hs : s.ready) :
    SendOutcome s (headerOf 0x9#4 (lengthByte bytes)) bytes (exec (.send bytes) s) := by
  by_cases hfits : bytes.length ≤ s.cfg.capacity - s.q.count
  · obtain ⟨q', henq, -, hqueued, -, -, -, hkept⟩ := enqueueAll_fits bytes (.of_inv hi) hfits
    exact ⟨q', exec_send_enqueued hs henq, fun _ => hqueued, fun hlong => absurd hfits hlong.not_ge, hkept⟩
  · have henq := enqueueAll_full bytes hfits
    exact ⟨s.q, exec_send_enqueued hs henq, fun h => absurd h hfits, fun _ => rfl, fun _ _ => rfl⟩

/-- In range a pseudo-operation has the outcome of its SEND; out of range it adds an error of the host and changes nothing else. -/
theorem IssuesSend.sends_or_raises {i : Instr} {inRange : Prop} {bytes : List Byte} {header : Beat}
    (h : IssuesSend i inRange bytes) (hheader : headerOf 0x9#4 (lengthByte bytes) = header) (s : State) :
    (inRange → s.Inv → s.ready → SendOutcome s header bytes (exec i s)) ∧
    (¬ inRange → exec i s = .next (raiseInvalidArgument s)) := by
  refine ⟨fun hin hi hs => ?_, fun hout => h.exec_raises hout s⟩
  rw [h.exec_send hin, ← hheader]
  exact exec_send_outcome bytes hi hs

/-- Settles O28: SERVO issues the SEND of its six bytes. -/
theorem servoSendsSixBytesOrRaises : Obligations.ServoSendsSixBytesOrRaises := fun s s1 s2 =>
  (servo_issuesSend s1 s2).sends_or_raises (header := 0x9006#16) (by simp [lengthByte, headerOf]) s

/-- Settles O29: EXPOSURE issues the SEND of its three bytes. -/
theorem exposureSendsThreeBytesOrRaises : Obligations.ExposureSendsThreeBytesOrRaises := fun s v =>
  (exposure_issuesSend v).sends_or_raises (header := 0x9003#16) (by simp [lengthByte, headerOf]) s

/-- Settles O30: LED issues the SEND of its five bytes. -/
theorem ledSendsFiveBytesOrRaises : Obligations.LedSendsFiveBytesOrRaises := fun s r g b =>
  (led_issuesSend r g b).sends_or_raises (header := 0x9005#16) (by simp [lengthByte, headerOf]) s

end Sys2Proof.Proofs
end

section
/-! PROOFS. Illegal requests and HALT (O12, O25, O26). A header that R81 calls illegal is fetched as a request of a reserved code or
rejected, and either way its step is the answer to an illegal request. While a fault is recorded every kind of step leaves the block
alone. -/

namespace Sys2Proof.Proofs

open Sys2Proof Sys2Proof.Machine Sys2Proof.Laws

/-! ### Illegal headers -/

section
variable {h : Beat}

/-- The three kinds of illegal header, by the header's fields as numbers (R81). -/
theorem illegalHeader_iff :
    illegalHeader h = true ↔
      h.toNat / 4096 ∈ [0x0, 0xC, 0xD, 0xE, 0xF] ∨ h.toNat / 256 % 16 ≠ 0 ∨
        (h.toNat / 4096 ∉ [0x1, 0x3, 0x9] ∧ h.toNat % 256 ≠ 0) := by
  have hop : ∀ k : BitVec 4, opField h = k ↔ h.toNat / 4096 = k.toNat := fun k => by rw [← BitVec.toNat_inj, opField_toNat]
  simp [illegalHeader, hop, rsvField_eq_zero, immField_eq_zero, or_assoc]

/-- An illegal header is one beat long: ENQCMD and SEND have a payload only when their header is legal (R78). -/
theorem requestLength_of_illegal (hl : illegalHeader h = true) : requestLength h = 1 := by
  refine if_neg ?_
  rintro ⟨hr, hop | hop⟩ <;> simp [illegalHeader, hr, hop] at hl

/-- An instruction whose words begin with an illegal header has a reserved code, and its meaning is the answer to an illegal request
(R81, R224). -/
theorem exec_of_illegal {i : Instr} {bs : List Beat} (hp : i.isPseudo = false) (he : encode i = .request (h :: bs))
    (hl : illegalHeader h = true) (s : State) : exec i s = answerIllegal { header := h, payload := [] } s := by
  cases i
  case servo | exposure | led => cases hp
  all_goals cases he
  case reserved0 | reservedC | reservedD | reservedE | reservedF => rfl
  all_goals simp [illegalHeader_headerOf] at hl

/-- The step at a ready port with an illegal header answers it and consumes its one beat. -/
theorem step_of_illegal {s : State} {rest : List HostItem} (hr : s.rst = false) (hp : portReady s = true)
    (hhost : s.host = .beat h :: rest) (hl : illegalHeader h = true) :
    step s = answerIllegal { header := h, payload := [] } (s.setHost rest) := by
  rw [step_ready hr hp, hhost]
  rcases fetchRequest_beats (h := h) (p := []) rest (requestLength_of_illegal hl) with ⟨i, hf, hpseudo, he⟩ | ⟨-, hf⟩
  · rw [show fetchRequest (.beat h :: rest) = _ from hf]
    exact exec_of_illegal hpseudo he hl _
  · rw [show fetchRequest (.beat h :: rest) = _ from hf]

end

/-- Settles O12: the step answers the illegal request, and at a ready port the answer is ILLEGAL. -/
theorem illegalHeadersAreAnsweredIllegal : Obligations.IllegalHeadersAreAnsweredIllegal := by
  intro s h rest hr hs hhost hl
  rw [step_of_illegal hr hs.1 hhost (illegalHeader_iff.mpr hl)]
  exact answerIllegal_ready (s := s.setHost rest) _ hs

/-! ### Steps while a fault is recorded -/

/-- From `s` to `t` the block kept its state: at most what the host lined up, one FAULT answer and the host's errors differ. -/
def BlockUntouched (s t : State) : Prop :=
  t = { s with host := t.host, portLog := t.portLog, hostErrors := t.hostErrors } ∧
    (t.portLog = s.portLog ∨ ∃ r, t.portLog = s.portLog ++ [(r, .fault)])

theorem blockUntouched_respond_fault (r : Request) (s : State) (rest : List HostItem) :
    BlockUntouched s (respond r .fault (s.setHost rest)) :=
  ⟨rfl, .inr ⟨r, rfl⟩⟩

/-- While a fault is recorded no step but a reset touches the block, whatever is lined up (R223, R229). -/
theorem step_faulted {s t : State} (hr : s.rst = false) (hp : portReady s = true) (hf : s.fault ≠ .none)
    (h : step s = .next t) : BlockUntouched s t := by
  rw [step_ready hr hp] at h
  split at h
  case h_1 =>
    cases h
    exact ⟨rfl, .inl rfl⟩
  case h_2 i rest _ =>
    obtain ⟨u, hu, hcases⟩ := exec_halted (s := s.setHost rest) i hp hf
    obtain rfl : u = t := by simpa [hu] using h
    rcases hcases with rfl | rfl | ⟨r, rfl⟩
    · exact ⟨rfl, .inl rfl⟩
    · exact ⟨rfl, .inl rfl⟩
    · exact blockUntouched_respond_fault r s rest
  case h_3 hd rest _ =>
    rw [answerIllegal, acceptRequest_halted (s := s.setHost rest) _ _ hp hf] at h
    cases h
    exact blockUntouched_respond_fault _ s rest

/-- Settles O25: every request is presented at the port and answered FAULT there, an illegal header too, and no step touches the
block. -/
theorem haltedBlockAnswersFault : Obligations.HaltedBlockAnswersFault := by
  refine fun s hp hf => ⟨fun i h beats hpseudo he => ?_, fun h rest hr hhost hl => ?_, fun t hi hr hstep => ?_⟩
  · obtain ⟨run, hrun⟩ := exec_request hpseudo he
    exact (hrun s).trans (acceptRequest_halted _ run hp hf)
  · rw [step_of_illegal hr hp hhost (illegalHeader_iff.mpr hl)]
    exact acceptRequest_halted (s := s.setHost rest) _ _ hp hf
  · obtain ⟨hkept, -⟩ := step_faulted hr hp hf hstep
    exact ⟨by rw [hkept], by rw [hkept, hi.halt_iff_fault.mpr hf], by rw [hkept]⟩

/-- Settles O26: the invariant gives a halted block a recorded fault. -/
theorem onlyResetLeavesHalt : Obligations.OnlyResetLeavesHalt := fun s _ hi hhalt hr hstep =>
  step_faulted hr (by rw [portReady, hhalt]) (hi.halt_iff_fault.mp hhalt) hstep

end Sys2Proof.Proofs
end

section
/-! PROOFS. Reset (O9, O10, O13). The step that resets is the update `resetBlock`, which gives the block the values of `State.reset` and
keeps the ports; a first POLL on those values is accepted as a seek. -/

namespace Sys2Proof.Proofs

open Sys2Proof Sys2Proof.Machine Sys2Proof.Laws

/-- The reset empties the queue at every capacity (R22, R250). -/
theorem resetBlock_queued (s : State) : (resetBlock s).queued = [] := queued_eq_nil.mpr rfl

theorem reset_queued : State.reset.queued = [] := queued_eq_nil.mpr rfl

theorem reset_ready : State.reset.ready := ⟨rfl, rfl⟩

/-- Settles O9: the step is `resetBlock`, which writes the reset values and neither log. -/
theorem resetInputResetsTheBlock : Obligations.ResetInputResetsTheBlock := fun s hr =>
  ⟨resetBlock s, step_of_rst hr, rfl, rfl, rfl, resetBlock_queued s, rfl, rfl, rfl, rfl, rfl⟩

/-- Settles O10: `resetBlock` keeps the ports, and the reset input is clear in the reset state. -/
theorem resetInputKeepsThePorts : Obligations.ResetInputKeepsThePorts := fun s hr =>
  ⟨resetBlock s, step_of_rst hr, rfl, rfl, rfl, rfl, rfl, rfl⟩

/-- Settles O13: the reset values, and the way a POLL starts with the skip flag clear (O23). -/
theorem resetStateIsIdleAndEmpty : Obligations.ResetStateIsIdleAndEmpty := by
  obtain ⟨-, hseeks⟩ := pollSkipsOrSeeks State.reset reset_ready
  have hpoll := hseeks rfl
  exact ⟨rfl, reset_ready, rfl, reset_queued, rfl, rfl, rfl, rfl, _, hpoll, rfl, rfl⟩

end Sys2Proof.Proofs
end
